-- ==== Sys2Proof/Word.lean ====
section
/-! DEFINITION. The bit-vector types of HUFF-CORE (spec/00_scope.md R9). -/

namespace Sys2Proof

/-- `u8`: one byte of a buffer, one symbol, one opcode. -/
abbrev Byte := BitVec 8

/-- `u16`: a child-index field of the arena and of the envelope (R6). -/
abbrev Half := BitVec 16

/-- `u32`: a register, a bus data word, a command word, a frequency (R6). -/
abbrev Word := BitVec 32

/-- A byte offset on the host bus: 26 bits (R6, spec/20_memory.md R61). -/
abbrev Addr := BitVec 26

/-- A code path: element 0 is the edge taken first from the root; `false` is left, `true` is right (R11). -/
abbrev Path := List Bool

/-- `ceil8(n) = (n + 7) div 8` (R9). -/
def ceil8 (n : Nat) : Nat := (n + 7) / 8

end Sys2Proof
end

