-- ==== Sys2Proof/Syntax.lean ====
section
/-! DEFINITION. What the machine is given and what it is made of, as data: the commands, the host's bus
transactions, the events of a schedule, the error codes, the nodes of the arena. -/

namespace Sys2Proof

/-- The ten commands of spec/30_encoding.md R91, one constructor per row of spec/opcode_table.json. No command has
an operand (R90). -/
inductive Instr where
  /-- NOP 0x00 (R124). -/
  | nop
  /-- CLEAR 0x01 (R125). -/
  | clear
  /-- ENCODE 0x02 (R185). -/
  | encode
  /-- DECODE 0x03 (R205). -/
  | decode
  /-- FREQ_COUNT 0x10 (R140). -/
  | freqCount
  /-- TREE_BUILD 0x11 (R141). -/
  | treeBuild
  /-- CODE_GEN 0x12 (R170). -/
  | codeGen
  /-- ENV_PACK 0x13 (R182). -/
  | envPack
  /-- ENV_PARSE 0x20 (R202). -/
  | envParse
  /-- BIT_DECODE 0x21 (R204). -/
  | bitDecode
deriving DecidableEq, Repr

/-- The kind of a bus transaction (spec/20_memory.md R60). -/
inductive Access where
  | read
  | write
deriving DecidableEq, Repr

/-- A request on the host port: `(addr: u26, kind, wdata: u32)` (R60). A read's `wdata` means nothing. -/
structure Request where
  addr : Addr
  kind : Access
  wdata : Word
deriving DecidableEq, Repr

/-- The bus response of a transaction (R60, R62). -/
inductive Resp where
  | okay
  | error
deriving DecidableEq, Repr

/-- The answer to a request: `(resp, rdata: u32)` (R60). -/
structure Answer where
  resp : Resp
  rdata : Word
deriving DecidableEq, Repr

/-- What can happen next: a host transaction, the engine's completion step (spec/40_control.md R122), or a reset by
the platform (spec/70_reset_and_hazards.md R260). A schedule is a list of these (log 2). -/
inductive Event where
  | host (r : Request)
  | engine
  | reset
deriving DecidableEq, Repr

/-- The error causes of spec/60_exceptions.md R230. Success (0x00) is no cause. -/
inductive ErrorCause where
  | fmtShort
  | fmtChildRange
  | fmtTruncated
  | fmtHeader
  | fmtTreeShape
  | fmtDupSymbol
  | fmtBadCode
  | outOverflow
  | lenRange
  | sequence
  | illegalCmd
deriving DecidableEq, Repr

/-- An entry of the node arena (spec/10_state.md R37). A leaf has no child fields; an internal node has exactly two
children and no payload (spec/00_scope.md R12, R14). -/
inductive Node where
  | leaf (payload : Byte) (freq : Word)
  | internal (left right : Half) (freq : Word)
deriving DecidableEq, Repr, Inhabited

end Sys2Proof
end

