-- ==== Sys2Proof/Config.lean ====
section
/-! DEFINITION. What one build of the block fixes (its two capacities) and the free values: constants with no body,
of which nothing can be proved. -/

namespace Sys2Proof

/-- A legal buffer capacity: a multiple of 4 in [16, 2^24] (spec/00_scope.md R7). -/
def capOk (n : Nat) : Bool := n % 4 == 0 && decide (16 ≤ n) && decide (n ≤ 2 ^ 24)

/-- The two open parameters of R7, with the check R7 puts on them: a value of this type is a legal build (log 1). -/
structure Config where
  inCap : Nat
  outCap : Nat
  inCap_ok : capOk inCap = true
  outCap_ok : capOk outCap = true
deriving DecidableEq, Repr

/-- The capacities spec/95_test_vectors.md takes unless a vector says otherwise. DESIGN CHOICE (log 1): the spec fixes
no capacity; every statement is made for every `Config`. -/
def Config.example4096 : Config := ⟨4096, 4096, by decide, by decide⟩

/-- FREE VALUE (log 4): what byte `k` of IN holds when the host has not written it since reset number `epoch`
(spec/10_state.md R39, spec/93_implementation_defined.md S1). -/
opaque Config.freeIn (epoch k : Nat) : Byte

/-- FREE VALUE (log 5): what byte `k` of OUT holds when no command has written it since reset number `epoch`
(R39, S2). -/
opaque Config.freeOut (epoch k : Nat) : Byte

/-- FREE VALUE (log 7): the `n`-th draw, returned by a read the spec leaves unspecified while BUSY = 1
(spec/10_state.md R50, S3, S4). -/
opaque Config.freeDraw (n : Nat) : Word

/-- FREE VALUE (log 8): what entry `i` of the arena holds when no command has written it (R37, S2). -/
opaque Config.strayNode (i : Nat) : Node

/-- FREE VALUE (log 8): the payload read from a node that has none. -/
opaque Config.strayPayload (n : Node) : Byte

/-- FREE VALUE (log 8): the left child read from a node that has no children. -/
opaque Config.strayLeft (n : Node) : Half

/-- FREE VALUE (log 8): the right child read from a node that has no children. -/
opaque Config.strayRight (n : Node) : Half

/-- FREE VALUE (log 9): the code of leaf `i` in an arena where no unique chain of parents leads from it to the root. -/
opaque Config.strayPath (i : Nat) : Path

end Sys2Proof
end

