-- ==== Sys2Proof/Machine/State.lean ====
section
/-! DEFINITION. The state of HUFF-CORE (spec/10_state.md), its reset value (R49), and the reasons a step can stop. -/

namespace Sys2Proof.Machine

/-- A byte memory: (offset, byte) cells, offsets strictly rising; an offset that is not listed has not been written
since reset (log 16). -/
abbrev Memory := List Host.Cell

/-- The engine's control state (R20, R45): no command is running, or word `w` is accepted and not yet completed. -/
inductive Engine where
  | idle
  | busy (w : Word)
deriving DecidableEq, Repr

/-- Why the machine stops with a fault. The spec gives every command word, transaction and state an effect
(spec/40_control.md R122, R126, spec/20_memory.md R62), so there is no such reason and no constructor (log 13). -/
inductive Fault
deriving DecidableEq, Repr

/-- Why an instruction has no meaning here. -/
inductive Refusal where
  /-- Raised by an arm of `exec` whose instruction has no meaning yet; no arm does (safe). -/
  | notModelled (mnemonic : String)
deriving DecidableEq, Repr

/-- Everything the spec gives the block (spec/10_state.md R20 to R50), and below it four fields of the model's own. -/
structure State where
  /-- IN_CAP and OUT_CAP (R22), constant. -/
  cfg : Config
  /-- IDLE or BUSY(w) (R20); STATUS.BUSY reads it (R25). -/
  engine : Engine
  /-- LAST_CMD, read at CMD (R23). -/
  lastCmd : Word
  /-- STATUS.DONE (R26). -/
  done : Bool
  /-- STATUS.ERR (R27). -/
  err : Bool
  /-- STATUS.WBUSY (R28). -/
  wbusy : Bool
  /-- STATUS.FREQ_V (R29). -/
  freqV : Bool
  /-- STATUS.TREE_V (R29). -/
  treeV : Bool
  /-- STATUS.TREE_SRC (R29): false built from frequencies, true parsed from an envelope. -/
  treeSrc : Bool
  /-- STATUS.CODES_V (R29). -/
  codesV : Bool
  /-- IRQ_EN.DONE_IE (R30). -/
  doneIE : Bool
  /-- IRQ_EN.ERR_IE (R30). -/
  errIE : Bool
  /-- ERR_CODE[7:0] (R31). -/
  errCode : Byte
  /-- ERR_INFO (R31). -/
  errInfo : Word
  /-- IN_LEN (R32). -/
  inLen : Word
  /-- OUT_LEN (R33). -/
  outLen : Word
  /-- TREE_SIZE (R35). -/
  treeSize : Word
  /-- LEAF_COUNT (R35). -/
  leafCount : Word
  /-- BITS (R35). -/
  bits : Word
  /-- DATA_OFF (R35). -/
  dataOff : Word
  /-- ROOT (R35): ROOT_V in bit 31, ROOT_IDX in bits 15..0. -/
  root : Word
  /-- STAT_LEAF (R34). -/
  statLeaf : Word
  /-- STAT_NODES (R34). -/
  statNodes : Word
  /-- STAT_ORIG (R34). -/
  statOrig : Word
  /-- STAT_COMP (R34). -/
  statComp : Word
  /-- STAT_RATIO (R34), unsigned Q16.16. -/
  statRatio : Word
  /-- FREQ[0..255] (R36). -/
  freq : Vector Word 256
  /-- NODE[0..510], as far as it has been written (R37). -/
  nodes : List Node
  /-- CODE[0..255] (R38): the path; its length is `len`. -/
  codes : Vector Path 256
  /-- IN (R39), by buffer offset. -/
  inBuf : Memory
  /-- OUT (R39), by buffer offset. -/
  outBuf : Memory
  /-- The model's own: what happens next, oldest first (log 2). -/
  schedule : List Event
  /-- The model's own: the answer to the latest host transaction (log 3). -/
  answer : Option Answer
  /-- The model's own: how many free draws busy reads have taken (log 7). -/
  draws : Nat
  /-- The model's own: how many resets there have been (log 4). -/
  epoch : Nat
deriving DecidableEq, Repr

/-- The state after reset of a build `cfg` (R49). The contents of FREQ, NODE and CODE are unspecified and unobservable
there: DESIGN CHOICE zeros and nothing written (log 6). The model's own fields: log 17. -/
def State.resetOf (cfg : Config) : State where
  cfg := cfg
  engine := .idle
  lastCmd := 0
  done := false
  err := false
  wbusy := false
  freqV := false
  treeV := false
  treeSrc := false
  codesV := false
  doneIE := false
  errIE := false
  errCode := 0
  errInfo := 0
  inLen := 0
  outLen := 0
  treeSize := 0
  leafCount := 0
  bits := 0
  dataOff := 0
  root := 0
  statLeaf := 0
  statNodes := 0
  statOrig := 0
  statComp := 0
  statRatio := 0
  freq := Vector.replicate 256 0
  nodes := []
  codes := Vector.replicate 256 []
  inBuf := []
  outBuf := []
  schedule := []
  answer := none
  draws := 0
  epoch := 0

/-- The machine right after reset. DESIGN CHOICE (log 1): the capacities of spec/95_test_vectors.md. -/
def State.reset : State := State.resetOf Config.example4096

end Sys2Proof.Machine
end

