-- ==== Sys2Proof/Machine/Ops.lean ====
section
/-! DEFINITION. The shared operations over memory, tables and registers: byte memories, the 256-entry tables, the
invalidation actions (spec/10_state.md R46, R47), accepting a command (spec/40_control.md R120), the checks bodies share
(R127), completing a command (R122), and the error completion, this block's exception (spec/60_exceptions.md R236). -/

namespace Sys2Proof.Machine

/-! ### Byte memories -/

/-- The byte written at offset `a`, if one has been written since reset. -/
def Memory.read? : Memory → Nat → Option Byte
  | [], _ => none
  | (k, v) :: m, a => if k = a then some v else Memory.read? m a

/-- Write one byte, keeping the offsets strictly rising. -/
def Memory.write : Memory → Nat → Byte → Memory
  | [], a, v => [(a, v)]
  | (k, w) :: m, a, v =>
    if a < k then (a, v) :: (k, w) :: m
    else if a = k then (a, v) :: m
    else (k, w) :: Memory.write m a v

/-- Write a run of bytes from offset `a` on. -/
def Memory.writeBytes (m : Memory) (a : Nat) : List Byte → Memory
  | [] => m
  | b :: bs => Memory.writeBytes (m.write a b) (a + 1) bs

/-- The canonical form: offsets strictly rising (log 16). -/
abbrev Memory.wf (m : Memory) : Prop := m.Pairwise (fun c d => c.1 < d.1)

/-! ### Tables indexed by a symbol -/

/-- The 256-entry table whose entry `b` is `f b`. -/
def tableOf {α : Type} (f : Byte → α) : Vector α 256 :=
  ⟨((List.range 256).map fun n => f (BitVec.ofNat 8 n)).toArray, by simp⟩

/-- Entry `b` of a 256-entry table. -/
def entry {α : Type} (t : Vector α 256) (b : Byte) : α := t[b.toNat]'(by have := b.isLt; omega)

/-- All symbols 0, 1, …, 255 in ascending order. -/
def allSymbols : List Byte := (List.range 256).map (BitVec.ofNat 8)

/-! ### Invalidation (R46, R47) -/

/-- `InvCodes`. -/
def invCodes (s : State) : State := { s with codesV := false }

/-- `InvTree`. -/
def invTree (s : State) : State :=
  { invCodes s with treeV := false, treeSrc := false, treeSize := 0, leafCount := 0, bits := 0, dataOff := 0, root := 0 }

/-- `InvFreq`. -/
def invFreq (s : State) : State := { s with freqV := false }

/-- `InvInput`: what an accepted write to IN_LEN or the IN window does. -/
def invInput (s : State) : State := invTree (invFreq s)

/-- `ClearDerived` (R47). -/
def clearDerived (s : State) : State := { invInput s with outLen := 0 }

/-! ### Errors (spec/60_exceptions.md) -/

/-- ERR_CODE of an error cause (R230). -/
def causeCode : ErrorCause → Byte
  | .fmtShort => 0x01#8
  | .fmtChildRange => 0x02#8
  | .fmtTruncated => 0x03#8
  | .fmtHeader => 0x04#8
  | .fmtTreeShape => 0x05#8
  | .fmtDupSymbol => 0x06#8
  | .fmtBadCode => 0x07#8
  | .outOverflow => 0x10#8
  | .lenRange => 0x11#8
  | .sequence => 0x12#8
  | .illegalCmd => 0x13#8

/-- `raise E(info)` (spec/00_scope.md R10): the cause and the 32-bit detail of R231. -/
structure Raise where
  cause : ErrorCause
  info : Word
deriving DecidableEq, Repr

/-- What a command body computes: `ok(s1)`, or the first `raise` it reaches (R122, R234). -/
abbrev Body := Except Raise State

/-- TAKING AN ERROR, the analogue of trap entry (R236, R122): from the state `s0` before the body, whose writes are thus
discarded, clear the derived state, record code and detail, set ERR and DONE, and go IDLE. -/
def takeError (r : Raise) (s0 : State) : State :=
  { clearDerived s0 with
    errCode := causeCode r.cause, errInfo := r.info, err := true, done := true, engine := .idle }

/-- The success branch of the completion step (R122). ERR is left as it is, 0 since acceptance (R27). -/
def completeOk (s1 : State) : State :=
  { s1 with errCode := 0, errInfo := 0, done := true, engine := .idle }

/-- The completion step of R122 for a body's result on the state `s0`. -/
def complete (s0 : State) : Body → State
  | .ok s1 => completeOk s1
  | .error r => takeError r s0

/-- ACKNOWLEDGING, this block's return (R238): a host write of STATUS clears the W1C bits written as 1, DONE bit 1, ERR
bit 2 and WBUSY bit 3 (spec/10_state.md R24); ERR_CODE and ERR_INFO keep their values. -/
def acknowledge (v : Word) (s : State) : State :=
  { s with
    done := s.done && !v.getLsbD 1
    err := s.err && !v.getLsbD 2
    wbusy := s.wbusy && !v.getLsbD 3 }

/-- An illegal command word completes with ILLEGAL_CMD and the whole word (spec/40_control.md R126). -/
def illegalCommand (w : Word) (s : State) : State := takeError ⟨.illegalCmd, w⟩ s

/-! ### Accepting a command and the shared checks (spec/40_control.md) -/

/-- Accepting word `w` in IDLE (R120): nothing is decoded, and nothing else changes. -/
def acceptCommand (w : Word) (s : State) : State :=
  { s with lastCmd := w, done := false, err := false, engine := .busy w }

/-- A host write of `w` to CMD (R120): dropped with WBUSY set while busy, else accepted. -/
def writeCmd (w : Word) (s : State) : State :=
  match s.engine with
  | .busy _ => { s with wbusy := true }
  | .idle => acceptCommand w s

/-- `if not c: raise r`. -/
def raiseUnless (c : Bool) (r : Raise) : Except Raise Unit := if c then .ok () else .error r

/-- `CheckInLen` (R127): `if IN_LEN > IN_CAP: raise LEN_RANGE(IN_LEN)`. -/
def checkInLen (s : State) : Except Raise Unit :=
  raiseUnless (decide (s.inLen.toNat ≤ s.cfg.inCap)) ⟨.lenRange, s.inLen⟩

/-- `Require(c)` (R127): `if not c: raise SEQUENCE(w[7:0])`, `opc` being the opcode of the running command. -/
def require (c : Bool) (opc : Byte) : Except Raise Unit := raiseUnless c ⟨.sequence, opc.setWidth 32⟩

/-! ### Writing tables and registers -/

/-- ROOT for an arena of `n` nodes (R35, R141): `2^31 + (n - 1)` when `n ≥ 1`, else 0. -/
def rootWord (n : Nat) : Word := if 1 ≤ n then BitVec.ofNat 32 (2 ^ 31 + (n - 1)) else 0

/-- `for i in 0..|ns|-1: NODE[i] <- ns[i]`: the entries from `|ns|` on keep what they hold. -/
def loadArena (ns : List Node) (s : State) : State := { s with nodes := ns ++ s.nodes.drop ns.length }

/-- `for j in 0..|e|-1: OUT[j] <- e[j]`. -/
def writeOut (e : List Byte) (s : State) : State := { s with outBuf := s.outBuf.writeBytes 0 e }

end Sys2Proof.Machine
end

