-- ==== Sys2Proof/Machine/Operands.lean ====
section
/-! DEFINITION. How a command reads its operands: bytes of IN, entries of the tables, multi-byte fields. Every operand
of a command is state (spec/30_encoding.md R90); the bytes' order is little-endian (spec/20_memory.md R65). -/

namespace Sys2Proof.Machine

/-! ### Byte order (spec/00_scope.md R9) -/

/-- `LE32(v)`. -/
def le32 (v : Word) : List Byte :=
  [v.extractLsb' 0 8, v.extractLsb' 8 8, v.extractLsb' 16 8, v.extractLsb' 24 8]

/-- `LE16(v)`. -/
def le16 (v : Half) : List Byte := [v.extractLsb' 0 8, v.extractLsb' 8 8]

/-- `rdLE32(buf, o)`. -/
def rdLE32 (buf : Nat → Byte) (o : Nat) : Nat :=
  (buf o).toNat + 256 * (buf (o + 1)).toNat + 65536 * (buf (o + 2)).toNat + 16777216 * (buf (o + 3)).toNat

/-- `rdLE16(buf, o)`. -/
def rdLE16 (buf : Nat → Byte) (o : Nat) : Nat := (buf o).toNat + 256 * (buf (o + 1)).toNat

/-- The word `b0 + 2^8*b1 + 2^16*b2 + 2^24*b3` of a window (spec/20_memory.md R63, R64). -/
def wordOfBytes (b0 b1 b2 b3 : Byte) : Word := b3 ++ b2 ++ b1 ++ b0

/-! ### Buffers -/

/-- `IN[k]`: the byte the host wrote, or a free value where it has written none since reset (R39, log 4). -/
def inByte (s : State) (k : Nat) : Byte := (s.inBuf.read? k).getD (Config.freeIn s.epoch k)

/-- `OUT[k]`: the byte a command wrote, or a free value where none has since reset (R39, log 5). -/
def outByte (s : State) (k : Nat) : Byte := (s.outBuf.read? k).getD (Config.freeOut s.epoch k)

/-- `IN[0..IN_LEN-1]`: the command input; no command reads a byte of IN beyond it (spec/20_memory.md R67). -/
def inputBytes (s : State) : List Byte := (List.range s.inLen.toNat).map (inByte s)

/-- `OUT[0..OUT_LEN-1]`: the command output, as the OUT window shows it (R64). -/
def outputBytes (s : State) : List Byte := (List.range s.outLen.toNat).map (outByte s)

/-- `Bit(k)`: bit `k mod 8` of the packed byte `k div 8` (spec/44_decoder.md R203). -/
def packedBit (s : State) (k : Nat) : Bool := (inByte s (s.dataOff.toNat + k / 8)).getLsbD (k % 8)

/-- `Bit(0), …, Bit(BITS-1)`. -/
def packedBits (s : State) : List Bool := (List.range s.bits.toNat).map (packedBit s)

/-! ### The node arena (spec/10_state.md R37) -/

/-- `NODE[i]`: what a command wrote there, or a free value where none has (log 8). -/
def node (s : State) (i : Nat) : Node := s.nodes.getD i (Config.strayNode i)

/-- `NODE[0..TREE_SIZE-1]`. -/
def arena (s : State) : List Node := (List.range s.treeSize.toNat).map (node s)

/-- `freq(n)`. -/
def nodeFreq : Node → Word
  | .leaf _ f => f
  | .internal _ _ f => f

/-- `payload(n)`; an internal node has none (log 8). -/
def nodePayload : Node → Byte
  | .leaf p _ => p
  | .internal l r f => Config.strayPayload (.internal l r f)

/-- `left(n)`; a leaf has none (log 8). -/
def nodeLeft : Node → Half
  | .leaf p f => Config.strayLeft (.leaf p f)
  | .internal l _ _ => l

/-- `right(n)`; a leaf has none (log 8). -/
def nodeRight : Node → Half
  | .leaf p f => Config.strayRight (.leaf p f)
  | .internal _ r _ => r

/-- "a node is a leaf iff both child references are 'no child'" (R37): here, the constructor. -/
def nodeIsLeaf : Node → Bool
  | .leaf _ _ => true
  | .internal _ _ _ => false

end Sys2Proof.Machine
end

