-- ==== Sys2Proof/Machine/Flags.lean ====
section
/-! DEFINITION. The status and interrupt words the flags make up (spec/10_state.md R24, R30), and the irq output
(spec/60_exceptions.md R240). -/

namespace Sys2Proof.Machine

/-- STATUS.BUSY (R25): 1 exactly while the engine is BUSY(w). -/
def isBusy (s : State) : Bool :=
  match s.engine with
  | .idle => false
  | .busy _ => true

/-- A flag at bit `n` of a register. -/
def bitAt (n : Nat) (b : Bool) : Word := if b then 1#32 <<< n else 0#32

/-- STATUS bits 3..0: BUSY, DONE, ERR, WBUSY (R24). -/
def statusLow (s : State) : Word :=
  bitAt 0 (isBusy s) ||| bitAt 1 s.done ||| bitAt 2 s.err ||| bitAt 3 s.wbusy

/-- STATUS bits 7..4: FREQ_V, TREE_V, TREE_SRC (which reads 0 when TREE_V = 0), CODES_V (R24, R29). -/
def statusHigh (s : State) : Word :=
  bitAt 4 s.freqV ||| bitAt 5 s.treeV ||| bitAt 6 (s.treeV && s.treeSrc) ||| bitAt 7 s.codesV

/-- STATUS as the host reads it in IDLE; bits 31..8 read 0 (R24). -/
def statusWord (s : State) : Word := statusLow s ||| statusHigh s

/-- STATUS as the host reads it while BUSY = 1: bits 7..4 are unspecified, here those of the free draw `d` (R50). -/
def statusWordBusy (d : Word) (s : State) : Word := statusLow s ||| (d &&& 0xF0#32)

/-- IRQ_EN as the host reads it (R30). -/
def irqEnWord (s : State) : Word := bitAt 0 s.doneIE ||| bitAt 1 s.errIE

/-- A host write of IRQ_EN: bits 31..2 are ignored (R30). -/
def writeIrqEn (v : Word) (s : State) : State := { s with doneIE := v.getLsbD 0, errIE := v.getLsbD 1 }

/-- `irq = (DONE AND DONE_IE) OR (ERR AND ERR_IE)` (R240). -/
def irq (s : State) : Bool := (s.done && s.doneIE) || (s.err && s.errIE)

end Sys2Proof.Machine
end

