-- ==== Sys2Proof/Machine/Bus.lean ====
section
/-! DEFINITION. The host port (spec/20_memory.md): the address map of spec/10_state.md R43, what each transaction reads
and writes, and reset (spec/70_reset_and_hazards.md R260). -/

namespace Sys2Proof.Machine

/-- What an aligned offset reaches (R43). The tree and statistics registers keep their own names. -/
inductive Target where
  | id | inCap | outCap | cmd | status | irqEn | errCode | errInfo | inLen | outLen
  | treeSize | leafCount | bits | dataOff | root
  | statLeaf | statNodes | statOrig | statComp | statRatio
  /-- FREQ window, entry `s` (R40). -/
  | freqWin (s : Byte)
  /-- NODE window, entry `i`, word `w` of 4 (R41, spec/30_encoding.md R105). -/
  | nodeWin (i w : Nat)
  /-- CODE window, entry `s`, word `w` of 16 (R42, spec/30_encoding.md R106). -/
  | codeWin (s : Byte) (w : Nat)
  /-- IN window, the word at buffer offset `k` (spec/20_memory.md R63). -/
  | inWin (k : Nat)
  /-- OUT window, the word at buffer offset `k` (spec/20_memory.md R64). -/
  | outWin (k : Nat)
  /-- Reserved or unmapped (spec/20_memory.md R62). -/
  | reserved
deriving DecidableEq, Repr

/-- The registers below offset 0x054 (R43). -/
def registerAt : Nat → Target
  | 0x000 => .id
  | 0x004 => .inCap
  | 0x008 => .outCap
  | 0x010 => .cmd
  | 0x014 => .status
  | 0x018 => .irqEn
  | 0x01C => .errCode
  | 0x020 => .errInfo
  | 0x024 => .inLen
  | 0x028 => .outLen
  | 0x02C => .treeSize
  | 0x030 => .leafCount
  | 0x034 => .bits
  | 0x038 => .dataOff
  | 0x03C => .root
  | 0x040 => .statLeaf
  | 0x044 => .statNodes
  | 0x048 => .statOrig
  | 0x04C => .statComp
  | 0x050 => .statRatio
  | _ => .reserved

/-- The host address map (R43), for an aligned byte offset `a` below 2^26. -/
def targetAt (cfg : Config) (a : Nat) : Target :=
  if a < 0x1000 then registerAt a
  else if a < 0x1400 then .freqWin (BitVec.ofNat 8 ((a - 0x1000) / 4))
  else if a < 0x2000 then .reserved
  else if a < 0x4000 then .nodeWin ((a - 0x2000) / 16) ((a - 0x2000) / 4 % 4)
  else if a < 0x8000 then .codeWin (BitVec.ofNat 8 ((a - 0x4000) / 64)) ((a - 0x4000) / 4 % 16)
  else if a < 0x1000000 then .reserved
  else if a < 0x1000000 + cfg.inCap then .inWin (a - 0x1000000)
  else if a < 0x2000000 then .reserved
  else if a < 0x2000000 + cfg.outCap then .outWin (a - 0x2000000)
  else .reserved

/-- Does a read of this target return an unspecified value while BUSY = 1 (R50)? STATUS, partly unspecified, is read by
`statusWordBusy`. -/
def unspecifiedWhileBusy : Target → Bool
  | .errCode | .errInfo | .outLen => true
  | .treeSize | .leafCount | .bits | .dataOff | .root => true
  | .statLeaf | .statNodes | .statOrig | .statComp | .statRatio => true
  | .freqWin _ | .nodeWin _ _ | .codeWin _ _ | .outWin _ => true
  | .id | .inCap | .outCap | .cmd | .status | .irqEn | .inLen | .inWin _ | .reserved => false

/-- Word `w` of a NODE window entry (spec/30_encoding.md R105). -/
def nodeEntryWord (n : Node) (w : Nat) : Word :=
  match w, n with
  | 0, n => nodeFreq n
  | 1, .leaf _ _ => 0
  | 1, .internal l r _ => r ++ l
  | 2, .leaf p _ => 0#23 ++ 1#1 ++ p
  | 2, .internal _ _ _ => 0
  | _, _ => 0

/-- A word whose bit `j` is `f j`. -/
def wordOfBits (f : Nat → Bool) : Word := (List.range 32).foldl (fun acc j => acc ||| bitAt j (f j)) 0#32

/-- Word `w` of a CODE window entry (spec/30_encoding.md R106). -/
def codeEntryWord (p : Path) (w : Nat) : Word :=
  if w = 0 then (BitVec.ofNat 8 p.length).setWidth 32
  else if w ≤ 8 then wordOfBits fun j => p.getD (32 * (w - 1) + j) false
  else 0

/-- Byte `k` as the OUT window shows it: 0 from OUT_LEN on (spec/20_memory.md R64). -/
def outWindowByte (s : State) (k : Nat) : Byte := if k < s.outLen.toNat then outByte s k else 0

/-- What a read of a target returns in IDLE, and at any time for one that stays defined while busy (R21 to R42). -/
def readTarget (s : State) : Target → Word
  | .id => 0x48554646#32
  | .inCap => BitVec.ofNat 32 s.cfg.inCap
  | .outCap => BitVec.ofNat 32 s.cfg.outCap
  | .cmd => s.lastCmd
  | .status => statusWord s
  | .irqEn => irqEnWord s
  | .errCode => s.errCode.setWidth 32
  | .errInfo => s.errInfo
  | .inLen => s.inLen
  | .outLen => s.outLen
  | .treeSize => s.treeSize
  | .leafCount => s.leafCount
  | .bits => s.bits
  | .dataOff => s.dataOff
  | .root => s.root
  | .statLeaf => s.statLeaf
  | .statNodes => s.statNodes
  | .statOrig => s.statOrig
  | .statComp => s.statComp
  | .statRatio => s.statRatio
  | .freqWin b => if s.freqV then entry s.freq b else 0
  | .nodeWin i w => if s.treeV && decide (i < s.treeSize.toNat) then nodeEntryWord (node s i) w else 0
  | .codeWin b w => if s.codesV then codeEntryWord (entry s.codes b) w else 0
  | .inWin k => wordOfBytes (inByte s k) (inByte s (k + 1)) (inByte s (k + 2)) (inByte s (k + 3))
  | .outWin k =>
    wordOfBytes (outWindowByte s k) (outWindowByte s (k + 1)) (outWindowByte s (k + 2)) (outWindowByte s (k + 3))
  | .reserved => 0

/-- A read of a target: its value, and the state after, in which only the count of free draws may have moved (R50,
spec/20_memory.md R68, log 7). -/
def busRead (s : State) (t : Target) : Word × State :=
  if isBusy s then
    if unspecifiedWhileBusy t then (Config.freeDraw s.draws, { s with draws := s.draws + 1 })
    else if t = .status then (statusWordBusy (Config.freeDraw s.draws) s, { s with draws := s.draws + 1 })
    else (readTarget s t, s)
  else (readTarget s t, s)

/-- A write to IN_LEN (R32): stored unchanged, then InvInput; dropped with WBUSY set while busy (R28). -/
def writeInLen (v : Word) (s : State) : State :=
  if isBusy s then { s with wbusy := true } else invInput { s with inLen := v }

/-- A write to the IN window (spec/20_memory.md R63): the four bytes, then InvInput; dropped with WBUSY set while busy. -/
def writeInWin (k : Nat) (v : Word) (s : State) : State :=
  if isBusy s then { s with wbusy := true } else invInput { s with inBuf := s.inBuf.writeBytes k (le32 v) }

/-- A write to a target (spec/20_memory.md R68): everything but these five is read-only or ignored. -/
def busWrite (v : Word) (s : State) : Target → State
  | .cmd => writeCmd v s
  | .status => acknowledge v s
  | .irqEn => writeIrqEn v s
  | .inLen => writeInLen v s
  | .inWin k => writeInWin k v s
  | .id | .inCap | .outCap | .errCode | .errInfo | .outLen => s
  | .treeSize | .leafCount | .bits | .dataOff | .root => s
  | .statLeaf | .statNodes | .statOrig | .statComp | .statRatio => s
  | .freqWin _ | .nodeWin _ _ | .codeWin _ _ | .outWin _ | .reserved => s

/-- `addr[1:0] = 0` (spec/20_memory.md R62). -/
def aligned (a : Addr) : Bool := a.extractLsb' 0 2 == 0#2

/-- One transaction on the host port (R60, R62): a misaligned one is answered ERROR with no effect; any other is answered
OKAY, a write with `rdata = 0`. The answer is kept in `answer` (log 3). -/
def transact (r : Request) (s : State) : State :=
  if aligned r.addr then
    let t := targetAt s.cfg r.addr.toNat
    match r.kind with
    | .read => { (busRead s t).2 with answer := some ⟨.okay, (busRead s t).1⟩ }
    | .write => { busWrite r.wdata s t with answer := some ⟨.okay, 0⟩ }
  else { s with answer := some ⟨.error, 0⟩ }

/-- Reset by the platform (spec/70_reset_and_hazards.md R260, R261): every piece of state at its value of R49, a running
command abandoned, the buffers as never written. The build, the schedule and the draw count stay (log 15). -/
def resetBlock (s : State) : State :=
  { State.resetOf s.cfg with schedule := s.schedule, draws := s.draws, epoch := s.epoch + 1 }

end Sys2Proof.Machine
end

