-- ==== Sys2Proof/WellFormed.lean ====
section
/-! DEFINITION. The checks on what the machine is given. A command has no operand (spec/30_encoding.md R90), so every
`Instr` is well formed; what can be ill formed is a command WORD, and a build's capacities (`capOk`, Config.lean). -/

namespace Sys2Proof

/-- Every command is well formed: it has no operand field that could be out of range (R90). -/
def Instr.wf : Instr → Bool
  | .nop => true
  | .clear => true
  | .encode => true
  | .decode => true
  | .freqCount => true
  | .treeBuild => true
  | .codeGen => true
  | .envPack => true
  | .envParse => true
  | .bitDecode => true

/-- RSV, bits 31..8 of a command word, must be 0 (R90). -/
def rsvZero (w : Word) : Bool := w.extractLsb' 8 24 == 0#24

/-- OPC, bits 7..0, is one of the ten of R91: 00..03, 10..13, 20, 21. -/
def opcListed (w : Word) : Bool :=
  let opc := (w.extractLsb' 0 8).toNat
  decide (opc ≤ 0x03) || (decide (0x10 ≤ opc) && decide (opc ≤ 0x13)) || opc == 0x20 || opc == 0x21

/-- A legal command word (R92). -/
def commandWordOk (w : Word) : Bool := rsvZero w && opcListed w

end Sys2Proof
end

