-- ==== Sys2Proof/Decode.lean ====
section
/-! DEFINITION. The command word's decoder (spec/30_encoding.md R93, spec/40_control.md R123) and encoder (R90, R91). -/

namespace Sys2Proof

/-- Why a command word is illegal (R92). -/
inductive DecodeError where
  /-- `w[31:8] ≠ 0`. -/
  | reservedBits
  /-- `w[7:0]` is no opcode of R91. -/
  | unknownOpcode
deriving DecidableEq, Repr

/-- The opcode map of R91, as its rows stand. -/
def opcodeMap : List (Byte × Instr) :=
  [ (0x00#8, .nop), (0x01#8, .clear), (0x02#8, .encode), (0x03#8, .decode),
    (0x10#8, .freqCount), (0x11#8, .treeBuild), (0x12#8, .codeGen), (0x13#8, .envPack),
    (0x20#8, .envParse), (0x21#8, .bitDecode) ]

/-- OPC, bits 7..0 of a command word (R90). -/
def opcOf (w : Word) : Byte := w.extractLsb' 0 8

/-- RSV, bits 31..8 of a command word (R90). -/
def rsvOf (w : Word) : BitVec 24 := w.extractLsb' 8 24

/-- R93: a word with a nonzero RSV is illegal; otherwise it selects the row whose OPC equals `w[7:0]`, or is illegal if
there is none. -/
def decode (w : Word) : Except DecodeError Instr :=
  if rsvOf w ≠ 0#24 then .error .reservedBits
  else
    match opcodeMap.lookup (opcOf w) with
    | some i => .ok i
    | none => .error .unknownOpcode

/-- The OPC of a command, from its own rule's "Encoding" line (R124, R125, R185, R205, R140, R141, R170, R182, R202, R204). -/
def Instr.opcode : Instr → Byte
  | .nop => 0x00#8
  | .clear => 0x01#8
  | .encode => 0x02#8
  | .decode => 0x03#8
  | .freqCount => 0x10#8
  | .treeBuild => 0x11#8
  | .codeGen => 0x12#8
  | .envPack => 0x13#8
  | .envParse => 0x20#8
  | .bitDecode => 0x21#8

/-- The command word of a command: RSV = 0 above OPC (R90). -/
def encode (i : Instr) : Word := 0#24 ++ i.opcode

/-- The instruction the decoder reads from a row's bits (bit 0 the least significant of the one command word, R90). A
number that does not fit the 32-bit word is no command word. -/
def decodeTableWord (nbits w : Nat) : Option Instr :=
  let v := w % 2 ^ nbits
  if v < 2 ^ 32 then
    match decode (BitVec.ofNat 32 v) with
    | .ok i => some i
    | .error _ => none
  else none

end Sys2Proof
end

