-- ==== Sys2Proof/Machine/Control.lean ====
section
/-! DEFINITION. The control commands NOP and CLEAR (spec/40_control.md). A `…Body` is `Exec_<MNEMONIC>`; an `exec…` is
the completion step of R122 around it. -/

namespace Sys2Proof.Machine

/-- `Exec_NOP` (R124). -/
def nopBody (s : State) : Body := .ok s

/-- NOP completes (R124, R122). -/
def execNop (s : State) : Host.Outcome State Fault Refusal := .next (complete s (nopBody s))

/-- `Exec_CLEAR` (R125). -/
def clearBody (s : State) : Body := .ok (clearDerived s)

/-- CLEAR completes (R125, R122). -/
def execClear (s : State) : Host.Outcome State Fault Refusal := .next (complete s (clearBody s))

end Sys2Proof.Machine
end

