-- ==== Sys2Proof/Machine/TreeBuilder.lean ====
section
/-! DEFINITION. The tree builder (spec/41_tree_builder.md): FREQ_COUNT, TREE_BUILD, and the functions Serialize and
Reconstruct that ENV_PACK and ENV_PARSE call. -/

namespace Sys2Proof.Machine

/-! ### FREQ_COUNT (R140) -/

/-- The number of occurrences of each byte value, as u32 (R140, R36). -/
def countBytes (bs : List Byte) : Vector Word 256 := tableOf fun b => BitVec.ofNat 32 (bs.count b)

/-- `Exec_FREQ_COUNT`. -/
def freqCountBody (s : State) : Body := do
  checkInLen s
  let s1 := invTree s
  .ok { s1 with freq := countBytes (inputBytes s1), freqV := true }

/-- FREQ_COUNT completes (R140, R122). -/
def execFreqCount (s : State) : Host.Outcome State Fault Refusal := .next (complete s (freqCountBody s))

/-! ### The merge algorithm (R142 to R145) -/

/-- An element of the priority queue: a node's index with its frequency, `key(i) = (freq(nodes[i]), i)` (R142). -/
structure Key where
  freq : Nat
  idx : Nat
deriving DecidableEq, Repr

/-- Keys are ordered by frequency first, then by index (R142, R144). -/
def keyLt (a b : Key) : Bool := decide (a.freq < b.freq) || (a.freq == b.freq && decide (a.idx < b.idx))

/-- The least key of `k :: q`. -/
def leastKey (k : Key) : List Key → Key
  | [] => k
  | k' :: q => leastKey (if keyLt k' k then k' else k) q

/-- Remove the least key from a queue. -/
def popLeast : List Key → Option (Key × List Key)
  | [] => none
  | k :: q => some (leastKey k q, (k :: q).erase (leastKey k q))

/-- `while |Q| ≥ 2`: pop `a`, then `b`, append `Internal(a, b)` with the summed frequency, and queue it. The first
popped is the left child (R145). `fuel` is at least the length of the queue, which falls by one each time. -/
def mergeLoop : Nat → List Node → List Key → List Node
  | 0, nodes, _ => nodes
  | fuel + 1, nodes, q =>
    match popLeast q with
    | none => nodes
    | some (a, q1) =>
      match popLeast q1 with
      | none => nodes
      | some (b, q2) =>
        mergeLoop fuel
          (nodes ++ [.internal (BitVec.ofNat 16 a.idx) (BitVec.ofNat 16 b.idx) (BitVec.ofNat 32 (a.freq + b.freq))])
          (⟨a.freq + b.freq, nodes.length⟩ :: q2)

/-- One leaf per present symbol, in ascending symbol order (R142, R143). -/
def leavesOf (f : Vector Word 256) : List Node :=
  (allSymbols.filter fun b => entry f b != 0#32).map fun b => .leaf b (entry f b)

/-- The queue of a list of leaves: every index, with its frequency as key (R142). -/
def queueOf (leaves : List Node) : List Key :=
  leaves.mapIdx fun i n => ⟨(nodeFreq n).toNat, i⟩

/-- `BuildFromFrequencies(F) -> (nodes, L)` (R142); with fewer than two leaves the merge loop does not run (R149). -/
def buildFromFrequencies (f : Vector Word 256) : List Node × Nat :=
  let leaves := leavesOf f
  let l := leaves.length
  if l ≤ 1 then (leaves, l) else (mergeLoop l leaves (queueOf leaves), l)

/-! ### TREE_BUILD (R141) -/

/-- `Exec_TREE_BUILD`; `opc` is the opcode of the running command, which Require reports (R127). -/
def treeBuildBody (opc : Byte) (s : State) : Body := do
  require s.freqV opc
  let s1 := invTree s
  let (nodes, l) := buildFromFrequencies s1.freq
  .ok { loadArena nodes s1 with
    treeSize := BitVec.ofNat 32 nodes.length
    leafCount := BitVec.ofNat 32 l
    root := rootWord nodes.length
    treeV := true
    treeSrc := false }

/-- TREE_BUILD completes (R141, R122). -/
def execTreeBuild (s : State) : Host.Outcome State Fault Refusal :=
  .next (complete s (treeBuildBody (Instr.opcode .treeBuild) s))

/-! ### Serialize (R146) -/

/-- The record of one node: a payload byte below `l`, else the two child indices (spec/30_encoding.md R101). -/
def serializeNode (l i : Nat) (n : Node) : List Byte :=
  if i < l then [nodePayload n] else le16 (nodeLeft n) ++ le16 (nodeRight n)

/-- `Serialize(nodes, L)`. -/
def serialize (nodes : List Node) (l : Nat) : List Byte := (nodes.mapIdx (serializeNode l)).flatten

/-! ### Reconstruct (R147) -/

/-- Where Reconstruct stands: the read offset, the payloads seen, the indices referenced as a child, and the nodes so
far (hidden state, spec/10_state.md R44). -/
structure Recon where
  off : Nat
  seen : List Byte
  refd : List Nat
  nodes : List Node
deriving DecidableEq, Repr

/-- The checks on one child index `c` of node `i`: range, then shape; `side` is 0 for left and 1 for right. -/
def checkChild (size i side c : Nat) (refd : List Nat) : Except Raise (List Nat) :=
  if size ≤ c then .error ⟨.fmtChildRange, BitVec.ofNat 32 (i + 2 ^ 16 * side)⟩
  else if i ≤ c ∨ c ∈ refd then .error ⟨.fmtTreeShape, BitVec.ofNat 32 (i + 2 ^ 16 * side)⟩
  else .ok (c :: refd)

/-- One round of the loop of R147, for node `i`. -/
def reconNode (buf : Nat → Byte) (size l i : Nat) (r : Recon) : Except Raise Recon :=
  if i < l then
    if buf r.off ∈ r.seen then .error ⟨.fmtDupSymbol, BitVec.ofNat 32 i⟩
    else .ok { r with
      off := r.off + 1, seen := buf r.off :: r.seen, nodes := r.nodes ++ [.leaf (buf r.off) 0#32] }
  else do
    let refd1 ← checkChild size i 0 (rdLE16 buf r.off) r.refd
    let refd2 ← checkChild size i 1 (rdLE16 buf (r.off + 2)) refd1
    .ok { r with
      off := r.off + 4
      refd := refd2
      nodes := r.nodes ++
        [.internal (BitVec.ofNat 16 (rdLE16 buf r.off)) (BitVec.ofNat 16 (rdLE16 buf (r.off + 2))) 0#32] }

/-- The loop of R147: `n` more nodes, from index `i` on. -/
def reconLoop (buf : Nat → Byte) (size l : Nat) : Nat → Nat → Recon → Except Raise Recon
  | 0, _, r => .ok r
  | n + 1, i, r =>
    match reconNode buf size l i r with
    | .error e => .error e
    | .ok r' => reconLoop buf size l n (i + 1) r'

/-- `Reconstruct(size, L) -> nodes`, reading the tree region from offset 12 of `buf` (R147). -/
def reconstruct (buf : Nat → Byte) (size l : Nat) : Except Raise (List Node) :=
  match reconLoop buf size l size 0 ⟨12, [], [], []⟩ with
  | .error e => .error e
  | .ok r => .ok r.nodes

end Sys2Proof.Machine
end

