-- ==== Sys2Proof/Machine/CodeGenerator.lean ====
section
/-! DEFINITION. The code-path generator (spec/42_code_generator.md): CODE_GEN. -/

namespace Sys2Proof.Machine

/-- Is `c` a child of this node? -/
def hasChild (c : Nat) : Node → Bool
  | .leaf _ _ => false
  | .internal l r _ => l.toNat == c || r.toNat == c

/-- "the unique internal node with left(q) = c or right(q) = c" (R171), if there is exactly one. -/
def parentOf (nodes : List Node) (c : Nat) : Option (Nat × Node) :=
  match (nodes.zipIdx.filter fun p => hasChild c p.1) with
  | [p] => some (p.2, p.1)
  | _ => none

/-- `Path(i)` (R171): climb from `c` to the root, putting each edge in front. A climb longer than the arena is no
climb of a tree. -/
def climb (nodes : List Node) : Nat → Nat → Path → Option Path
  | 0, c, p => if c = nodes.length - 1 then some p else none
  | fuel + 1, c, p =>
    if c = nodes.length - 1 then some p
    else
      match parentOf nodes c with
      | none => none
      | some (q, n) => climb nodes fuel q ((!((nodeLeft n).toNat == c)) :: p)

/-- The code path of leaf `i`; a free value in an arena where the climb of R171 does not reach the root (log 9). -/
def pathOf (nodes : List Node) (i : Nat) : Path := (climb nodes nodes.length i []).getD (Config.strayPath i)

/-- The assignments of R170 to CODE, in order: (symbol, path) for each leaf. A single leaf has the code `[0]` (R172). -/
def codeAssignments (nodes : List Node) (l : Nat) : List (Byte × Path) :=
  if nodes.length = 1 then (nodes.take 1).map fun n => (nodePayload n, [false])
  else if 2 ≤ nodes.length then
    (List.range l).map fun i => (nodePayload (nodes.getD i (Config.strayNode i)), pathOf nodes i)
  else []

/-- `for s in 0..255: CODE[s] <- []`, then the assignments in order, a later one to the same entry standing (R170). -/
def codeTable (nodes : List Node) (l : Nat) : Vector Path 256 :=
  let assigned := (codeAssignments nodes l).reverse
  tableOf fun b => (assigned.lookup b).getD []

/-- `Exec_CODE_GEN` (R170). -/
def codeGenBody (opc : Byte) (s : State) : Body := do
  require s.treeV opc
  .ok { s with codes := codeTable (arena s) s.leafCount.toNat, codesV := true }

/-- CODE_GEN completes (R170, R122). -/
def execCodeGen (s : State) : Host.Outcome State Fault Refusal :=
  .next (complete s (codeGenBody (Instr.opcode .codeGen) s))

end Sys2Proof.Machine
end

