-- ==== Sys2Proof/Machine/Encoder.lean ====
section
/-! DEFINITION. The bit-packer and envelope framer, encode side (spec/43_encoder.md): ENV_PACK and ENCODE. -/

namespace Sys2Proof.Machine

/-- `BitSeq()`: the code paths of the input bytes, in order (R180). -/
def bitSeq (codes : Vector Path 256) (input : List Byte) : List Bool := input.flatMap (entry codes)

/-- Byte `m` of `Pack(B)`: bit `j` is `B[8m + j]`, or 0 past the end (R181, R183). -/
def packByte (b : List Bool) (m : Nat) : Byte :=
  (List.range 8).foldl (fun acc j => acc ||| (if b.getD (8 * m + j) false then 1#8 <<< j else 0#8)) 0#8

/-- `Pack(B)`: `ceil8(|B|)` bytes, least-significant bit first (R181, spec/20_memory.md R66). -/
def pack (b : List Bool) : List Byte := (List.range (ceil8 b.length)).map (packByte b)

/-- The envelope (R182, spec/30_encoding.md R100 to R103). -/
def envelope (nodes : List Node) (l : Nat) (b : List Bool) : List Byte :=
  le32 (BitVec.ofNat 32 nodes.length) ++ le32 (BitVec.ofNat 32 l) ++ le32 (BitVec.ofNat 32 b.length)
    ++ serialize nodes l ++ pack b

/-- The ratio of `UpdateStats`: unsigned Q16.16, rounded toward zero, saturating; all ones for an empty input (R184). -/
def ratioQ16 (comp orig : Nat) : Word :=
  if orig = 0 then 0xFFFFFFFF#32 else BitVec.ofNat 32 (min (comp * 2 ^ 16 / orig) 0xFFFFFFFF)

/-- `UpdateStats(L, size, orig, comp)` (R184). -/
def updateStats (l size orig : Word) (comp : Nat) (s : State) : State :=
  { s with
    statLeaf := l
    statNodes := size
    statOrig := orig
    statComp := BitVec.ofNat 32 comp
    statRatio := ratioQ16 comp orig.toNat }

/-- The bit sequence ENV_PACK packs in this state (R180). -/
def stateBits (s : State) : List Bool := bitSeq s.codes (inputBytes s)

/-- The envelope ENV_PACK frames in this state (R182). -/
def stateEnvelope (s : State) : List Byte := envelope (arena s) s.leafCount.toNat (stateBits s)

/-- `Exec_ENV_PACK` (R182). -/
def envPackBody (opc : Byte) (s : State) : Body := do
  require (s.codesV && !s.treeSrc) opc
  let e := stateEnvelope s
  raiseUnless (decide (e.length ≤ s.cfg.outCap)) ⟨.outOverflow, BitVec.ofNat 32 e.length⟩
  let s1 : State := { writeOut e s with
    outLen := BitVec.ofNat 32 e.length
    bits := BitVec.ofNat 32 (stateBits s).length
    dataOff := BitVec.ofNat 32 (12 + (serialize (arena s) s.leafCount.toNat).length) }
  .ok (updateStats s.leafCount s.treeSize s.inLen e.length s1)

/-- ENV_PACK completes (R182, R122). -/
def execEnvPack (s : State) : Host.Outcome State Fault Refusal :=
  .next (complete s (envPackBody (Instr.opcode .envPack) s))

/-- `Exec_ENCODE`: the four staged bodies in order after ClearDerived (R185). -/
def encodeBody (opc : Byte) (s : State) : Body := do
  checkInLen s
  let s1 ← freqCountBody (clearDerived s)
  let s2 ← treeBuildBody opc s1
  let s3 ← codeGenBody opc s2
  envPackBody opc s3

/-- ENCODE completes (R185, R122). -/
def execEncode (s : State) : Host.Outcome State Fault Refusal :=
  .next (complete s (encodeBody (Instr.opcode .encode) s))

end Sys2Proof.Machine
end

