-- ==== Sys2Proof/Machine/Decoder.lean ====
section
/-! DEFINITION. The envelope parser and bit unpacker, decode side (spec/44_decoder.md): ENV_PARSE, BIT_DECODE, DECODE. -/

namespace Sys2Proof.Machine

/-- What ParseHeader returns: `(size, L, bits, doff)` (R200). -/
structure Header where
  size : Nat
  leaves : Nat
  bits : Nat
  doff : Nat
deriving DecidableEq, Repr

/-- The consistent pairs of tree_size and leaf_count (R200). -/
def headerOk (size l : Nat) : Bool :=
  (l == 0 && size == 0) || (l == 1 && size == 1) || (decide (2 ≤ l) && decide (l ≤ 256) && size == 2 * l - 1)

/-- `ParseHeader()` of a buffer with `len` valid bytes (R200). -/
def parseHeader (buf : Nat → Byte) (len : Nat) : Except Raise Header :=
  if len < 12 then .error ⟨.fmtShort, 12#32⟩
  else
    let size := rdLE32 buf 0
    let l := rdLE32 buf 4
    let bits := rdLE32 buf 8
    if headerOk size l then
      let doff := 12 + l + 4 * (size - l)
      if len < doff then .error ⟨.fmtShort, BitVec.ofNat 32 doff⟩ else .ok ⟨size, l, bits, doff⟩
    else .error ⟨.fmtHeader, 0#32⟩

/-- `Exec_ENV_PARSE` (R202). -/
def envParseBody (s : State) : Body := do
  checkInLen s
  let s1 := invInput s
  let h ← parseHeader (inByte s1) s1.inLen.toNat
  let nodes ← reconstruct (inByte s1) h.size h.leaves
  .ok { loadArena nodes s1 with
    treeSize := BitVec.ofNat 32 h.size
    leafCount := BitVec.ofNat 32 h.leaves
    bits := BitVec.ofNat 32 h.bits
    dataOff := BitVec.ofNat 32 h.doff
    root := rootWord h.size
    treeV := true
    treeSrc := true }

/-- ENV_PARSE completes (R202, R122). -/
def execEnvParse (s : State) : Host.Outcome State Fault Refusal := .next (complete s (envParseBody s))

/-- Where the walk stands: the walk pointer, and the bytes emitted so far (hidden state, spec/10_state.md R44). -/
structure Walk where
  ptr : Nat
  out : List Byte
deriving DecidableEq, Repr

/-- `Emit(v, k)` (R204): OUT byte number `n` is `v`, unless `n = OUT_CAP`. -/
def emit (outCap : Nat) (v : Byte) (k : Nat) (w : Walk) : Except Raise Walk :=
  if w.out.length = outCap then .error ⟨.outOverflow, BitVec.ofNat 32 k⟩ else .ok { w with out := w.out ++ [v] }

/-- The child the walk moves to: bit 0 left, bit 1 right (R204, R207). -/
def walkChild (b : Bool) (n : Node) : Nat := if b then (nodeRight n).toNat else (nodeLeft n).toNat

/-- One round of the loop of R204, for bit `b` at position `k`; with a single-leaf tree a 0 emits the sole symbol and a
1 is no code (R206). -/
def walkBit (s : State) (k : Nat) (b : Bool) (w : Walk) : Except Raise Walk :=
  if s.treeSize.toNat = 1 then
    if b then .error ⟨.fmtBadCode, BitVec.ofNat 32 k⟩ else emit s.cfg.outCap (nodePayload (node s 0)) k w
  else
    let p := walkChild b (node s w.ptr)
    if nodeIsLeaf (node s p) then
      emit s.cfg.outCap (nodePayload (node s p)) k { w with ptr := s.treeSize.toNat - 1 }
    else .ok { w with ptr := p }

/-- The loop of R204 over the bits from position `k` on. -/
def walkBits (s : State) : Nat → List Bool → Walk → Except Raise Walk
  | _, [], w => .ok w
  | k, b :: bs, w =>
    match walkBit s k b w with
    | .error e => .error e
    | .ok w' => walkBits s (k + 1) bs w'

/-- `Exec_BIT_DECODE` (R204). -/
def bitDecodeBody (opc : Byte) (s : State) : Body := do
  require (s.treeV && s.treeSrc) opc
  let need := s.dataOff.toNat + ceil8 s.bits.toNat
  raiseUnless (decide (need ≤ s.inLen.toNat)) ⟨.fmtShort, BitVec.ofNat 32 need⟩
  raiseUnless (!(s.treeSize == 0#32 && decide (0 < s.bits.toNat))) ⟨.fmtBadCode, 0#32⟩
  let root := s.treeSize.toNat - 1
  let w ← walkBits s 0 (packedBits s) ⟨root, []⟩
  raiseUnless (!(decide (2 ≤ s.treeSize.toNat) && w.ptr != root)) ⟨.fmtTruncated, s.bits⟩
  .ok { writeOut w.out s with outLen := BitVec.ofNat 32 w.out.length }

/-- BIT_DECODE completes (R204, R122). -/
def execBitDecode (s : State) : Host.Outcome State Fault Refusal :=
  .next (complete s (bitDecodeBody (Instr.opcode .bitDecode) s))

/-- `Exec_DECODE`: the two staged bodies in order after ClearDerived (R205). -/
def decodeBody (opc : Byte) (s : State) : Body := do
  checkInLen s
  let s1 ← envParseBody (clearDerived s)
  bitDecodeBody opc s1

/-- DECODE completes (R205, R122). -/
def execDecode (s : State) : Host.Outcome State Fault Refusal :=
  .next (complete s (decodeBody (Instr.opcode .decode) s))

end Sys2Proof.Machine
end

