-- ==== Sys2Proof/Machine/Dispatch.lean ====
section
/-! DEFINITION. The dispatch of spec/40_control.md R123: one arm per command. -/

namespace Sys2Proof.Machine

/-- The completion step of a command (R122, R123). -/
def exec (i : Instr) (s : State) : Host.Outcome State Fault Refusal :=
  match i with
  | .nop => Sys2Proof.Machine.execNop s
  | .clear => Sys2Proof.Machine.execClear s
  | .encode => Sys2Proof.Machine.execEncode s
  | .decode => Sys2Proof.Machine.execDecode s
  | .freqCount => Sys2Proof.Machine.execFreqCount s
  | .treeBuild => Sys2Proof.Machine.execTreeBuild s
  | .codeGen => Sys2Proof.Machine.execCodeGen s
  | .envPack => Sys2Proof.Machine.execEnvPack s
  | .envParse => Sys2Proof.Machine.execEnvParse s
  | .bitDecode => Sys2Proof.Machine.execBitDecode s

end Sys2Proof.Machine
end

