-- ==== Sys2Proof/Machine/Step.lean ====
section
/-! DEFINITION. One step of the machine: the next event of the schedule (log 2). -/

namespace Sys2Proof.Machine

/-- The engine's step (spec/40_control.md R122, R123): complete the pending command; IDLE does nothing (R248). -/
def engineStep (s : State) : Host.Outcome State Fault Refusal :=
  match s.engine with
  | .idle => .next s
  | .busy w =>
    match Sys2Proof.decode w with
    | .ok i => exec i s
    | .error _ => .next (illegalCommand w s)

/-- One step: the next event of the schedule, or the engine's step when the schedule is used up (R8, weak fairness). -/
def step (s : State) : Host.Outcome State Fault Refusal :=
  match s.schedule with
  | [] => engineStep s
  | .host r :: rest => .next (transact r { s with schedule := rest })
  | .engine :: rest => engineStep { s with schedule := rest }
  | .reset :: rest => .next (resetBlock { s with schedule := rest })

/-- `s` with the command word `w` (of `nbits` bits, zero above) accepted as a host write to CMD accepts it (R120), and the
engine's step next: the very next step completes that command (log 11). -/
def State.withFetchWord (s : State) (nbits w : Nat) : State :=
  { acceptCommand (BitVec.ofNat 32 (w % 2 ^ nbits)) s with schedule := .engine :: s.schedule }

end Sys2Proof.Machine
end

