-- ==== Sys2Proof/Safety.lean ====
section
/-! DEFINITION. The terms claims use: the shape of a tree (spec/41_tree_builder.md R148), following a path down a tree
(spec/42_code_generator.md R171), the envelope of an input, and the invariant of the machine (spec/10_state.md R48). -/

namespace Sys2Proof.Machine

/-- The children of a node, left first. -/
def children : Node → List Nat
  | .leaf _ _ => []
  | .internal l r _ => [l.toNat, r.toNat]

/-- Every child reference in an arena, in node order. -/
def childRefs (nodes : List Node) : List Nat := nodes.flatMap children

/-- The five structural invariants of R148, for an arena of `l` leaves. -/
structure TreeOk (nodes : List Node) (l : Nat) : Prop where
  /-- tree_size is 0, 1 or `2*leaf_count - 1` (R148 item 1, R149; the pairs of R200). -/
  size : (l = 0 ∧ nodes.length = 0) ∨ (l = 1 ∧ nodes.length = 1) ∨
    (2 ≤ l ∧ l ≤ 256 ∧ nodes.length = 2 * l - 1)
  /-- Nodes 0..l-1 are leaves and the others internal (item 2). -/
  kinds : ∀ i, (h : i < nodes.length) → (nodeIsLeaf nodes[i] = true ↔ i < l)
  /-- Each child has an index lower than its parent's (item 3). -/
  below : ∀ i, (h : i < nodes.length) → ∀ c ∈ children nodes[i], c < i
  /-- Every node except the root, the last, is the child of exactly one node (item 4). -/
  parents : ∀ c, c < nodes.length - 1 → (childRefs nodes).count c = 1
  /-- The leaf payloads are distinct (item 5). -/
  payloads : ((nodes.take l).map nodePayload).Nodup

/-- Follow a path down from node `i`: bit 0 to the left child, bit 1 to the right (R171, spec/44_decoder.md R207). -/
def descend (nodes : List Node) : Nat → Path → Option Nat
  | i, [] => some i
  | i, b :: p =>
    match nodes[i]? with
    | some (.internal l r _) => descend nodes (if b then r.toNat else l.toNat) p
    | _ => none

/-- The record of node `i` as it stands in the tree region of an envelope with `l` leaves, unchecked
(spec/30_encoding.md R101). -/
def recordAt (buf : Nat → Byte) (l i : Nat) : Node :=
  if i < l then .leaf (buf (12 + i)) 0
  else .internal (BitVec.ofNat 16 (rdLE16 buf (12 + l + 4 * (i - l))))
    (BitVec.ofNat 16 (rdLE16 buf (12 + l + 4 * (i - l) + 2))) 0

/-- The `size` records of a tree region, unchecked. -/
def recordsOf (buf : Nat → Byte) (size l : Nat) : List Node := (List.range size).map (recordAt buf l)

/-- The frequency left out, as the envelope leaves it out (spec/10_state.md R37, R147). -/
def withoutFreq : Node → Node
  | .leaf p _ => .leaf p 0
  | .internal l r _ => .internal l r 0

/-- The tree ENCODE builds for an input: its arena and its leaf count. -/
def inputTree (input : List Byte) : List Node × Nat := buildFromFrequencies (countBytes input)

/-- The code table ENCODE makes for an input. -/
def inputCodes (input : List Byte) : Vector Path 256 := codeTable (inputTree input).1 (inputTree input).2

/-- The envelope ENCODE makes for an input (spec/43_encoder.md R182, R185). -/
def inputEnvelope (input : List Byte) : List Byte :=
  envelope (inputTree input).1 (inputTree input).2 (bitSeq (inputCodes input) input)

/-- What a successful completion adds to the body's writes (spec/40_control.md R122). -/
def afterSuccess (s : State) : State := { s with errCode := 0, errInfo := 0, done := true, engine := .idle }

/-- What a command that raised `code` with detail `info` leaves of the state before it (spec/60_exceptions.md R236). -/
def afterError (code : Byte) (info : Word) (s : State) : State :=
  { s with
    freqV := false, treeV := false, treeSrc := false, codesV := false
    treeSize := 0, leafCount := 0, bits := 0, dataOff := 0, root := 0, outLen := 0
    errCode := code, errInfo := info, err := true, done := true, engine := .idle }

/-- `u` holds the bytes `e` as its input, and they fit its IN: the host has loaded them (spec/70_reset_and_hazards.md R263). -/
structure HoldsInput (u : State) (e : List Byte) : Prop where
  len : u.inLen.toNat = e.length
  fits : e.length ≤ u.cfg.inCap
  bytes : inputBytes u = e

/-- The arena was built from the current FREQ, itself counted over the current input (R48 item 2). -/
structure BuiltOk (s : State) : Prop where
  freqV : s.freqV = true
  tree : (arena s, s.leafCount.toNat) = buildFromFrequencies s.freq

/-- The arena was parsed from the current input (R48 item 3). -/
structure ParsedOk (s : State) : Prop where
  freqV : s.freqV = false
  lenOk : s.inLen.toNat ≤ s.cfg.inCap
  header : parseHeader (inByte s) s.inLen.toNat =
    .ok ⟨s.treeSize.toNat, s.leafCount.toNat, s.bits.toNat, s.dataOff.toNat⟩
  tree : reconstruct (inByte s) s.treeSize.toNat s.leafCount.toNat = .ok (arena s)

/-- The invariant every step keeps: R48, and what R20 to R50 say of the other fields. -/
structure Invariant (s : State) : Prop where
  /-- IN and OUT keep their canonical form (log 16) and lie inside their capacities (R39). -/
  inWf : s.inBuf.wf
  outWf : s.outBuf.wf
  inBound : ∀ c ∈ s.inBuf, c.1 < s.cfg.inCap
  outBound : ∀ c ∈ s.outBuf, c.1 < s.cfg.outCap
  /-- While BUSY(w), DONE and ERR read 0 and LAST_CMD is `w` (R50, spec/40_control.md R120). -/
  busy : ∀ w, s.engine = .busy w → s.done = false ∧ s.err = false ∧ s.lastCmd = w
  /-- ERR_CODE is 0 or a code of spec/60_exceptions.md R230, and ERR_INFO reads 0 after a success (R31). -/
  code : s.errCode = 0 ∨ ∃ c, s.errCode = causeCode c
  info : s.errCode = 0 → s.errInfo = 0
  /-- The output lies inside OUT and has been written (R33, R49). -/
  outLen : s.outLen.toNat ≤ s.cfg.outCap
  outWritten : ∀ k, k < s.outLen.toNat → (s.outBuf.read? k).isSome = true
  /-- The arena has at most 511 entries (R37). -/
  arenaLen : s.nodes.length ≤ 511
  /-- R48 item 1. -/
  noTree : s.treeV = false → s.treeSrc = false ∧ s.codesV = false ∧ s.treeSize = 0 ∧ s.leafCount = 0 ∧
    s.bits = 0 ∧ s.dataOff = 0 ∧ s.root = 0
  /-- FREQ was counted over the current input, which fits IN (R48 item 2, R140). -/
  freq : s.freqV = true → s.inLen.toNat ≤ s.cfg.inCap ∧ s.freq = countBytes (inputBytes s)
  /-- R48 item 2. -/
  built : s.treeV = true → s.treeSrc = false → BuiltOk s
  /-- R48 item 3. -/
  parsed : s.treeV = true → s.treeSrc = true → ParsedOk s
  /-- R48 item 4. -/
  codes : s.codesV = true → s.treeV = true ∧ s.codes = codeTable (arena s) s.leafCount.toNat
  /-- R48 item 5 and R148; ROOT is the last node (R35). -/
  shape : s.treeV = true → TreeOk (arena s) s.leafCount.toNat ∧ s.root = rootWord s.treeSize.toNat

/-- A safe run: the step answers a next state. -/
def Safe (s : State) : Prop := ∃ t, step s = .next t

end Sys2Proof.Machine
end

