-- ==== Sys2Proof/Certificates/Slice0/Obligations.lean ====
section
/-! DEFINITION. The statements for the provers, one `Obligations.<Name> : Prop` each. A docstring names the rule of spec/
it formalises. Every statement about a free value (Config.lean) holds for every value of it. -/

open Sys2Proof Sys2Proof.Machine

/-! ### The command word (spec/30_encoding.md) -/

/-- R91: the ten opcodes, and words just outside the map, written out bit for bit from R90. -/
def Obligations.DecoderReadsTheOpcodeMap : Prop :=
  decode 0b00000000000000000000000000000000#32 = .ok .nop ∧
  decode 0b00000000000000000000000000000001#32 = .ok .clear ∧
  decode 0b00000000000000000000000000000010#32 = .ok .encode ∧
  decode 0b00000000000000000000000000000011#32 = .ok .decode ∧
  decode 0b00000000000000000000000000010000#32 = .ok .freqCount ∧
  decode 0b00000000000000000000000000010001#32 = .ok .treeBuild ∧
  decode 0b00000000000000000000000000010010#32 = .ok .codeGen ∧
  decode 0b00000000000000000000000000010011#32 = .ok .envPack ∧
  decode 0b00000000000000000000000000100000#32 = .ok .envParse ∧
  decode 0b00000000000000000000000000100001#32 = .ok .bitDecode ∧
  decode 0b00000000000000000000000000000100#32 = .error .unknownOpcode ∧
  decode 0b00000000000000000000000000010100#32 = .error .unknownOpcode ∧
  decode 0b00000000000000000000000000100010#32 = .error .unknownOpcode ∧
  decode 0b00000000000000000000000100000010#32 = .error .reservedBits

/-- R93: a word with `w[31:8] ≠ 0` is illegal; otherwise it selects the row whose OPC equals `w[7:0]`, or it is illegal
if there is no such row. R92: the words that decode are exactly the legal ones, RSV = 0 and OPC among 00..03, 10..13, 20, 21. -/
def Obligations.DecodingSelectsTheRowOfTheOpcode : Prop :=
  ∀ w : Word,
    (w.extractLsb' 8 24 ≠ 0#24 → decode w = .error .reservedBits) ∧
    (w.extractLsb' 8 24 = 0#24 →
      (∀ i, decode w = .ok i ↔ (w.extractLsb' 0 8, i) ∈ opcodeMap) ∧
      (decode w = .error .unknownOpcode ↔ ∀ i, (w.extractLsb' 0 8, i) ∉ opcodeMap)) ∧
    ((∃ i, decode w = .ok i) ↔ commandWordOk w = true)

/-- R90, R91: every bit of a command word counts: a word decodes to a command exactly when it is that command's encoding
(so decode of encode i is i, and encode of what decodes is the word). Every command is well formed. -/
def Obligations.DecodingInvertsEncoding : Prop :=
  ∀ (w : Word) (i : Instr), (decode w = .ok i ↔ w = encode i) ∧ i.wf = true

/-! ### The step (spec/40_control.md R122, R123, spec/20_memory.md R72) -/

/-- R122, R123: when the engine is BUSY with a word that decodes to `i` and its step comes next, the step is `exec i`; the
step takes the engine's event off the schedule (log 2) and adds nothing else. -/
def Obligations.StepRunsTheDecodedCommand : Prop :=
  ∀ (s : State) (w : Word) (i : Instr), s.engine = .busy w → decode w = .ok i →
    (s.schedule = [] → step s = exec i s) ∧
    (∀ rest, s.schedule = .engine :: rest → step s = exec i { s with schedule := rest })

/-- The schedule (log 2): a host transaction or a reset at its head happens next, whatever the engine does; an IDLE engine
does nothing (R248). -/
def Obligations.StepServesTheNextEvent : Prop :=
  ∀ (s : State) (rest : List Event),
    (∀ r, s.schedule = .host r :: rest → step s = .next (transact r { s with schedule := rest })) ∧
    (s.schedule = .reset :: rest → step s = .next (resetBlock { s with schedule := rest })) ∧
    (s.engine = .idle → s.schedule = [] → step s = .next s) ∧
    (s.engine = .idle → s.schedule = .engine :: rest → step s = .next { s with schedule := rest })

/-- R126, R92: an illegal word is accepted from IDLE like any other and completes with ILLEGAL_CMD, the whole word in ERR_INFO
and LAST_CMD, the derived state cleared. -/
def Obligations.IllegalWordsCompleteWithIllegalCmd : Prop :=
  ∀ (s : State) (w : Word), s.engine = .idle → commandWordOk w = false →
    engineStep (transact ⟨0x10#26, .write, w⟩ s) =
      .next (afterError 0x13#8 w { s with lastCmd := w, answer := some ⟨.okay, 0⟩ })

/-- The block stops for nothing: from every state the step answers a next state (R122, R126, R62, log 13). -/
def Obligations.EveryStepAnswersANextState : Prop := ∀ s : State, Safe s

/-- R8, R280: whatever the schedule, once it is used up the engine's step comes, and the engine is IDLE. The bound counts
events, not time, and rests on the schedule being finite (log 2). -/
def Obligations.EveryScheduleEndsIdle : Prop :=
  ∀ s : State, ∃ t : State, core.run (s.schedule.length + 1) s = .next t ∧ t.engine = .idle ∧ t.schedule = []

/-! ### Reset (spec/70_reset_and_hazards.md, spec/10_state.md R49) -/

/-- R49: the listed reset values, for every build; FREQ, NODE, CODE and OUT are unobservable, their windows read 0. -/
def Obligations.ResetLeavesTheListedValues : Prop :=
  ∀ cfg : Config,
    let s := State.resetOf cfg
    s.engine = .idle ∧ s.lastCmd = 0 ∧
    isBusy s = false ∧ s.done = false ∧ s.err = false ∧ s.wbusy = false ∧
    s.freqV = false ∧ s.treeV = false ∧ s.treeSrc = false ∧ s.codesV = false ∧
    s.doneIE = false ∧ s.errIE = false ∧ s.errCode = 0 ∧ s.errInfo = 0 ∧ s.inLen = 0 ∧ s.outLen = 0 ∧
    s.treeSize = 0 ∧ s.leafCount = 0 ∧ s.bits = 0 ∧ s.dataOff = 0 ∧ s.root = 0 ∧
    s.statLeaf = 0 ∧ s.statNodes = 0 ∧ s.statOrig = 0 ∧ s.statComp = 0 ∧ s.statRatio = 0 ∧
    (∀ b, readTarget s (.freqWin b) = 0) ∧ (∀ i w, readTarget s (.nodeWin i w) = 0) ∧
    (∀ b w, readTarget s (.codeWin b w) = 0) ∧ (∀ k, readTarget s (.outWin k) = 0) ∧
    (∀ k, s.inBuf.read? k = none) ∧ irq s = false

/-- R260, R261: a reset abandons a running command, which never completes; every register has its reset value, DONE, ERR and
irq are 0, and IN counts as never written. The model's own, DESIGN CHOICE (log 15): the build and the rest of the schedule
stand, the answer is cleared, the count of resets changes, and nothing is said of the count of draws. -/
def Obligations.ResetAbandonsTheCommand : Prop :=
  ∀ (s : State) (rest : List Event), s.schedule = .reset :: rest →
    ∃ t, step s = .next t ∧
      t = { State.resetOf s.cfg with schedule := rest, draws := t.draws, epoch := t.epoch } ∧
      t.done = false ∧ t.err = false ∧ irq t = false ∧ (∀ k, t.inBuf.read? k = none) ∧ t.epoch ≠ s.epoch

/-- The invariant of Safety.lean (R48; the memories' canonical form is the model's, log 16) holds at reset, for every build. -/
def Obligations.InvariantHoldsAtReset : Prop := ∀ cfg : Config, Invariant (State.resetOf cfg)

/-- R48 (and the memories' canonical form, the model's, log 16): every step keeps the invariant, from every state that has it. -/
def Obligations.EveryStepKeepsTheInvariant : Prop := ∀ s t : State, Invariant s → step s = .next t → Invariant t

/-! ### The command life cycle (spec/40_control.md, spec/60_exceptions.md) -/

/-- R120: a write of `w` to CMD is dropped with WBUSY set while BUSY, and accepted in IDLE, undecoded. -/
def Obligations.WritingCmdRequestsACommand : Prop :=
  ∀ (s : State) (w : Word),
    (∀ w', s.engine = .busy w' →
      transact ⟨0x10#26, .write, w⟩ s = { s with wbusy := true, answer := some ⟨.okay, 0⟩ }) ∧
    (s.engine = .idle →
      transact ⟨0x10#26, .write, w⟩ s =
        { s with lastCmd := w, done := false, err := false, engine := .busy w, answer := some ⟨.okay, 0⟩ })

/-- R122, R236: every command completes; it sets DONE and goes IDLE. With ERR_CODE = 0 it reports no detail and leaves ERR as
it was; with an error the state is the one before it with the derived state cleared and the error recorded. -/
def Obligations.CompletionRecordsTheOutcome : Prop :=
  ∀ (i : Instr) (s : State), ∃ t, exec i s = .next t ∧ t.done = true ∧ t.engine = .idle ∧
    (t.errCode = 0 → t.errInfo = 0 ∧ t.err = s.err) ∧
    (t.errCode ≠ 0 → t = afterError t.errCode t.errInfo s)

/-- R230: the numbers of the error codes. -/
def Obligations.ErrorCodesAreTheListedNumbers : Prop :=
  causeCode .fmtShort = 0x01#8 ∧ causeCode .fmtChildRange = 0x02#8 ∧ causeCode .fmtTruncated = 0x03#8 ∧
  causeCode .fmtHeader = 0x04#8 ∧ causeCode .fmtTreeShape = 0x05#8 ∧ causeCode .fmtDupSymbol = 0x06#8 ∧
  causeCode .fmtBadCode = 0x07#8 ∧ causeCode .outOverflow = 0x10#8 ∧ causeCode .lenRange = 0x11#8 ∧
  causeCode .sequence = 0x12#8 ∧ causeCode .illegalCmd = 0x13#8

/-- R233: which command can raise which error; an illegal word raises ILLEGAL_CMD. -/
def Obligations.CommandsRaiseOnlyTheirErrors : Prop :=
  (∀ (s t : State) (w : Word), s.engine = .busy w → commandWordOk w = false → engineStep s = .next t →
    t.errCode = 0x13#8) ∧
  ∀ (i : Instr) (s t : State), exec i s = .next t → t.errCode ≠ 0 →
    t.errCode ∈ (match i with
      | .nop => []
      | .clear => []
      | .freqCount => [0x11#8]
      | .treeBuild => [0x12#8]
      | .codeGen => [0x12#8]
      | .envPack => [0x12#8, 0x10#8]
      | .encode => [0x11#8, 0x10#8]
      | .envParse => [0x11#8, 0x01#8, 0x04#8, 0x06#8, 0x02#8, 0x05#8]
      | .bitDecode => [0x12#8, 0x01#8, 0x07#8, 0x10#8, 0x03#8]
      | .decode => [0x11#8, 0x01#8, 0x04#8, 0x06#8, 0x02#8, 0x05#8, 0x07#8, 0x10#8, 0x03#8])

/-- R236, R47, R39: what no command touches, on success or error: the build, LAST_CMD, WBUSY, IRQ_EN, IN_LEN and every byte of
IN, and the model's own fields (log 17). -/
def Obligations.NoCommandTouchesTheHostsState : Prop :=
  ∀ (i : Instr) (s t : State), exec i s = .next t →
    t.cfg = s.cfg ∧ t.lastCmd = s.lastCmd ∧ t.wbusy = s.wbusy ∧ t.doneIE = s.doneIE ∧ t.errIE = s.errIE ∧
    t.inLen = s.inLen ∧ t.inBuf = s.inBuf ∧ (∀ k, inByte t k = inByte s k) ∧
    t.schedule = s.schedule ∧ t.answer = s.answer ∧ t.draws = s.draws ∧ t.epoch = s.epoch

/-- R34: only a successful ENV_PACK, on its own or inside ENCODE, writes the statistics, and it writes all five together; no
host transaction writes them. -/
def Obligations.OnlyAPackedEnvelopeUpdatesStatistics : Prop :=
  (∀ (r : Request) (s : State),
    let t := transact r s
    t.statLeaf = s.statLeaf ∧ t.statNodes = s.statNodes ∧ t.statOrig = s.statOrig ∧ t.statComp = s.statComp ∧
      t.statRatio = s.statRatio) ∧
  ∀ (i : Instr) (s t : State), exec i s = .next t →
    ((i = .envPack ∨ i = .encode) ∧ t.errCode = 0 ∧
      t.statLeaf = t.leafCount ∧ t.statNodes = t.treeSize ∧ t.statOrig = s.inLen ∧ t.statComp = t.outLen ∧
      t.statRatio.toNat = if s.inLen = 0 then 0xFFFFFFFF
        else min (t.outLen.toNat * 65536 / s.inLen.toNat) 0xFFFFFFFF) ∨
    (¬((i = .envPack ∨ i = .encode) ∧ t.errCode = 0) ∧
      t.statLeaf = s.statLeaf ∧ t.statNodes = s.statNodes ∧ t.statOrig = s.statOrig ∧ t.statComp = s.statComp ∧
      t.statRatio = s.statRatio)

/-- R273: which commands leave the output alone, which end it, and that no host transaction touches it. -/
def Obligations.OutputLivesUntilACommandWritesIt : Prop :=
  (∀ (i : Instr) (s t : State), exec i s = .next t → t.errCode = 0 →
    i = .nop ∨ i = .freqCount ∨ i = .treeBuild ∨ i = .codeGen ∨ i = .envParse →
      t.outLen = s.outLen ∧ ∀ k, outByte t k = outByte s k) ∧
  (∀ (i : Instr) (s t : State), exec i s = .next t → i = .clear ∨ t.errCode ≠ 0 →
    t.outLen = 0 ∧ ∀ k, outByte t k = outByte s k) ∧
  (∀ (r : Request) (s : State),
    (transact r s).outLen = s.outLen ∧ ∀ k, outByte (transact r s) k = outByte s k)

/-! ### Control commands (spec/40_control.md) -/

/-- R124: NOP completes and changes nothing beyond the completion step. -/
def Obligations.NopOnlyCompletes : Prop :=
  decode 0x00000000#32 = .ok .nop ∧
  ∀ s : State, exec .nop s = .next { s with errCode := 0, errInfo := 0, done := true, engine := .idle }

/-- R125: CLEAR clears the derived state and nothing else. -/
def Obligations.ClearForgetsTheDerivedState : Prop :=
  decode 0x00000001#32 = .ok .clear ∧
  ∀ s : State, exec .clear s = .next
    { s with
      freqV := false, treeV := false, treeSrc := false, codesV := false
      treeSize := 0, leafCount := 0, bits := 0, dataOff := 0, root := 0, outLen := 0
      errCode := 0, errInfo := 0, done := true, engine := .idle }

/-- R127: CheckInLen is the first step of the four commands that read IN from its start, and Require guards the four staged
commands that read derived tables. -/
def Obligations.SharedChecksComeFirst : Prop :=
  (∀ (i : Instr) (s : State), i = .freqCount ∨ i = .envParse ∨ i = .encode ∨ i = .decode →
    s.cfg.inCap < s.inLen.toNat → exec i s = .next (afterError 0x11#8 s.inLen s)) ∧
  (∀ s : State, s.freqV = false → exec .treeBuild s = .next (afterError 0x12#8 0x11#32 s)) ∧
  (∀ s : State, s.treeV = false → exec .codeGen s = .next (afterError 0x12#8 0x12#32 s)) ∧
  (∀ s : State, s.codesV = false ∨ s.treeSrc = true → exec .envPack s = .next (afterError 0x12#8 0x13#32 s)) ∧
  (∀ s : State, s.treeV = false ∨ s.treeSrc = false → exec .bitDecode s = .next (afterError 0x12#8 0x21#32 s))

/-! ### The tree builder (spec/41_tree_builder.md) -/

/-- R140: FREQ_COUNT counts every byte value over `IN[0..IN_LEN-1]` and sets FREQ_V; InvTree goes before; nothing else
changes. With `IN_LEN > IN_CAP` it raises LEN_RANGE. -/
def Obligations.FreqCountCountsTheInput : Prop :=
  decode 0x00000010#32 = .ok .freqCount ∧
  ∀ s : State,
    (s.inLen.toNat ≤ s.cfg.inCap → ∃ t, exec .freqCount s = .next t ∧
      (∀ b, (entry t.freq b).toNat = ((List.range s.inLen.toNat).filter fun k => inByte s k == b).length) ∧
      t = afterSuccess { s with
        freq := t.freq, freqV := true, treeV := false, treeSrc := false, codesV := false
        treeSize := 0, leafCount := 0, bits := 0, dataOff := 0, root := 0 }) ∧
    (s.cfg.inCap < s.inLen.toNat → exec .freqCount s = .next (afterError 0x11#8 s.inLen s))

/-- R141, R149: TREE_BUILD puts the tree of FREQ in the arena and in the tree registers; BITS and DATA_OFF are 0; no present
symbol gives an empty tree, one gives a single leaf that is the root. Without FREQ_V it raises SEQUENCE(0x11). -/
def Obligations.TreeBuildFillsTheArena : Prop :=
  decode 0x00000011#32 = .ok .treeBuild ∧
  ∀ s : State,
    (s.freqV = true → ∃ t, exec .treeBuild s = .next t ∧
      arena t = (buildFromFrequencies s.freq).1 ∧ t.leafCount.toNat = (buildFromFrequencies s.freq).2 ∧
      t.treeSize.toNat = (arena t).length ∧
      t.root.toNat = (if 1 ≤ t.treeSize.toNat then 2 ^ 31 + (t.treeSize.toNat - 1) else 0) ∧
      ((allSymbols.filter fun b => entry s.freq b != 0).length = 0 → t.treeSize = 0 ∧ t.leafCount = 0) ∧
      (∀ b, (allSymbols.filter fun b => entry s.freq b != 0) = [b] →
        arena t = [.leaf b (entry s.freq b)] ∧ t.leafCount = 1) ∧
      t = afterSuccess { s with
        nodes := t.nodes, treeSize := t.treeSize, leafCount := t.leafCount, bits := 0, dataOff := 0, root := t.root
        treeV := true, treeSrc := false, codesV := false }) ∧
    (s.freqV = false → exec .treeBuild s = .next (afterError 0x12#8 0x11#32 s))

/-- R148: the arena TREE_BUILD leaves is a tree, and so is every arena Reconstruct accepts after the header check. -/
def Obligations.BuiltArenaIsATree : Prop :=
  (∀ s t : State, exec .treeBuild s = .next t → t.errCode = 0 → TreeOk (arena t) t.leafCount.toNat) ∧
  (∀ (buf : Nat → Byte) (size l : Nat) (ns : List Node), headerOk size l = true → reconstruct buf size l = .ok ns →
    TreeOk ns l)

/-- R143: the leaves are the present symbols in ascending order, each with its count. -/
def Obligations.LeavesStandInSymbolOrder : Prop :=
  ∀ s t : State, exec .treeBuild s = .next t → t.errCode = 0 →
    (arena t).take t.leafCount.toNat =
      (allSymbols.filter fun b => entry s.freq b != 0).map fun b => .leaf b (entry s.freq b)

/-- R142, R144, R145: each internal node merges the two least keys (frequency, index) among the nodes before it that are no
child yet, the least on the left, and its frequency is their sum. The premise rules out frequencies no count over a legal
input reaches (R152). -/
def Obligations.MergeTakesTheTwoLeastKeys : Prop :=
  ∀ s t : State, exec .treeBuild s = .next t → t.errCode = 0 →
    (allSymbols.map fun b => (entry s.freq b).toNat).sum < 2 ^ 32 →
    ∀ (i : Nat) (l r : Half) (f : Word), (arena t)[i]? = some (.internal l r f) →
      let fr := fun j => (nodeFreq (node t j)).toNat
      let taken := childRefs ((arena t).take i)
      f.toNat = fr l.toNat + fr r.toNat ∧ l.toNat < i ∧ r.toNat < i ∧ l.toNat ∉ taken ∧ r.toNat ∉ taken ∧
      keyLt ⟨fr l.toNat, l.toNat⟩ ⟨fr r.toNat, r.toNat⟩ = true ∧
      ∀ j, j < i → j ∉ taken → j ≠ l.toNat → j ≠ r.toNat → keyLt ⟨fr r.toNat, r.toNat⟩ ⟨fr j, j⟩ = true

/-- R152: after FREQ_COUNT and TREE_BUILD an internal node's frequency is the sum of its children's, as numbers (no sum
overflows), and on a nonempty input the root's is IN_LEN. -/
def Obligations.RootFrequencyIsTheInputLength : Prop :=
  ∀ s t u : State, exec .freqCount s = .next t → t.errCode = 0 → exec .treeBuild t = .next u →
    (∀ (i : Nat) (l r : Half) (f : Word), (arena u)[i]? = some (.internal l r f) →
      f.toNat = (nodeFreq (node u l.toNat)).toNat + (nodeFreq (node u r.toNat)).toNat) ∧
    (1 ≤ u.leafCount.toNat ↔ 0 < s.inLen.toNat) ∧
    (1 ≤ u.leafCount.toNat → nodeFreq (node u (u.treeSize.toNat - 1)) = s.inLen)

/-! ### The code-path generator (spec/42_code_generator.md) -/

/-- R170, R171, R172: on a tree, CODE_GEN gives each leaf's symbol the path from the root down to that leaf, `[0]` for a sole
leaf, and every other symbol no code. Without TREE_V it raises SEQUENCE(0x12). -/
def Obligations.CodeGenFollowsTheTree : Prop :=
  decode 0x00000012#32 = .ok .codeGen ∧
  (∀ s : State, s.treeV = true → TreeOk (arena s) s.leafCount.toNat → ∃ t, exec .codeGen s = .next t ∧
    (∀ i, 2 ≤ s.treeSize.toNat → i < s.leafCount.toNat →
      descend (arena s) (s.treeSize.toNat - 1) (entry t.codes (nodePayload (node s i))) = some i) ∧
    (s.treeSize.toNat = 1 → entry t.codes (nodePayload (node s 0)) = [false]) ∧
    (∀ b, (∀ i, i < s.leafCount.toNat → nodePayload (node s i) ≠ b) → entry t.codes b = []) ∧
    t = afterSuccess { s with codes := t.codes, codesV := true }) ∧
  (∀ s : State, s.treeV = false → exec .codeGen s = .next (afterError 0x12#8 0x12#32 s))

/-- R173: no symbol's code is a prefix of another's. -/
def Obligations.CodesArePrefixFree : Prop :=
  ∀ s t : State, s.treeV = true → TreeOk (arena s) s.leafCount.toNat → exec .codeGen s = .next t →
    ∀ a b : Byte, a ≠ b → entry t.codes a ≠ [] → entry t.codes b ≠ [] → ¬ entry t.codes a <+: entry t.codes b

/-- R174: every leaf's symbol has a code of 1 to `max(1, LEAF_COUNT - 1)` bits, at most 255, and LEN in the CODE window reads
that length. -/
def Obligations.CodeLengthsAreBounded : Prop :=
  ∀ s t : State, s.treeV = true → TreeOk (arena s) s.leafCount.toNat → exec .codeGen s = .next t →
    ∀ i, i < s.leafCount.toNat →
      let p := entry t.codes (nodePayload (node s i))
      1 ≤ p.length ∧ p.length ≤ max 1 (s.leafCount.toNat - 1) ∧ p.length ≤ 255 ∧
      (readTarget t (.codeWin (nodePayload (node s i)) 0)).toNat = p.length

/-- R151: after CODE_GEN on a built tree, of two present symbols the strictly rarer has no shorter code. -/
def Obligations.RarerSymbolsHaveNoShorterCodes : Prop :=
  ∀ s t u : State, exec .treeBuild s = .next t → t.errCode = 0 → exec .codeGen t = .next u →
    ∀ a b : Byte, entry s.freq a ≠ 0 → (entry s.freq a).toNat < (entry s.freq b).toNat →
      (entry u.codes b).length ≤ (entry u.codes a).length

/-! ### The encoder (spec/43_encoder.md) -/

/-- R181, R183, and spec/20_memory.md R66: `ceil8(|B|)` bytes; bit `k` is bit `k mod 8` of byte `k div 8`; padding is 0. -/
def Obligations.PackingIsLeastSignificantBitFirst : Prop :=
  ∀ b : List Bool, (pack b).length = (b.length + 7) / 8 ∧
    (∀ k, (hk : k < b.length) → ∃ y, (pack b)[k / 8]? = some y ∧ y.getLsbD (k % 8) = b[k]) ∧
    (∀ k, b.length ≤ k → k / 8 < (pack b).length → ∃ y, (pack b)[k / 8]? = some y ∧ y.getLsbD (k % 8) = false)

/-- R100, R101, R102: where the fields of the envelope of an arena lie: the header's three little-endian words, the record
of node `i` at `12 + min(i, L) + 4*max(0, i - L)`, the packed bytes at DATA_OFF. -/
def Obligations.EnvelopeLayout : Prop :=
  ∀ (nodes : List Node) (l : Nat) (b : List Bool), l ≤ nodes.length → nodes.length < 2 ^ 32 → b.length < 2 ^ 32 →
    let e := envelope nodes l b
    let at' := fun k => e.getD k 0
    rdLE32 at' 0 = nodes.length ∧ rdLE32 at' 4 = l ∧ rdLE32 at' 8 = b.length ∧
    (∀ i, (hi : i < nodes.length) →
      let o := 12 + min i l + 4 * (i - l)
      (i < l → at' o = nodePayload nodes[i]) ∧
      (l ≤ i → rdLE16 at' o = (nodeLeft nodes[i]).toNat ∧ rdLE16 at' (o + 2) = (nodeRight nodes[i]).toNat)) ∧
    e.drop (12 + l + 4 * (nodes.length - l)) = pack b

/-- R182, R184: ENV_PACK frames the envelope into OUT and writes OUT_LEN, BITS, DATA_OFF and the statistics; the bytes of OUT
past the envelope and everything else stay. It raises SEQUENCE(0x13) without codes of a built tree, and OUT_OVERFLOW with
the envelope's length when that does not fit. -/
def Obligations.EnvPackFramesTheEnvelope : Prop :=
  decode 0x00000013#32 = .ok .envPack ∧
  ∀ s : State,
    let b := (inputBytes s).flatMap (entry s.codes)
    let tree := serialize (arena s) s.leafCount.toNat
    let e := le32 s.treeSize ++ le32 s.leafCount ++ le32 (BitVec.ofNat 32 b.length) ++ tree ++ pack b
    (s.codesV = false ∨ s.treeSrc = true → exec .envPack s = .next (afterError 0x12#8 0x13#32 s)) ∧
    (s.codesV = true → s.treeSrc = false → s.cfg.outCap < e.length →
      exec .envPack s = .next (afterError 0x10#8 (BitVec.ofNat 32 e.length) s)) ∧
    (s.codesV = true → s.treeSrc = false → e.length ≤ s.cfg.outCap → ∃ t, exec .envPack s = .next t ∧
      outputBytes t = e ∧ t.outLen.toNat = e.length ∧ (∀ k, e.length ≤ k → outByte t k = outByte s k) ∧
      t.bits.toNat = b.length ∧ t.dataOff.toNat = 12 + tree.length ∧
      t.statRatio.toNat = (if s.inLen = 0 then 0xFFFFFFFF else min (e.length * 65536 / s.inLen.toNat) 0xFFFFFFFF) ∧
      t = afterSuccess { s with
        outBuf := t.outBuf, outLen := t.outLen, bits := t.bits, dataOff := t.dataOff
        statLeaf := s.leafCount, statNodes := s.treeSize, statOrig := s.inLen, statComp := t.outLen
        statRatio := t.statRatio })

/-- R186: the envelope's size after a successful ENV_PACK, on an arena with no more leaves than nodes; with `2L - 1` nodes for
`L ≥ 2` leaves (R148) it is `12 + 5L - 4 + ceil8(BITS)`. -/
def Obligations.EnvelopeSizeFollowsTheTree : Prop :=
  ∀ s t : State, s.leafCount.toNat ≤ s.treeSize.toNat → exec .envPack s = .next t → t.errCode = 0 →
    t.outLen.toNat =
      12 + t.leafCount.toNat + 4 * (t.treeSize.toNat - t.leafCount.toNat) + (t.bits.toNat + 7) / 8 ∧
    t.dataOff.toNat = 12 + t.leafCount.toNat + 4 * (t.treeSize.toNat - t.leafCount.toNat) ∧
    (2 ≤ t.leafCount.toNat → t.treeSize.toNat = 2 * t.leafCount.toNat - 1 →
      t.outLen.toNat = 12 + 5 * t.leafCount.toNat - 4 + (t.bits.toNat + 7) / 8)

/-- R185: ENCODE completes on every input that fits: from any state at all it makes the input's envelope, tables, tree
registers (R141, R182) and statistics (R184); it raises only LEN_RANGE and OUT_OVERFLOW. Bytes of IN, bytes of OUT past the
envelope, and everything not named stay. -/
def Obligations.EncodeWritesTheEnvelopeOfTheInput : Prop :=
  decode 0x00000002#32 = .ok .encode ∧
  ∀ s : State,
    let x := inputBytes s
    let e := inputEnvelope x
    (s.cfg.inCap < s.inLen.toNat → exec .encode s = .next (afterError 0x11#8 s.inLen s)) ∧
    (s.inLen.toNat ≤ s.cfg.inCap → s.cfg.outCap < e.length →
      exec .encode s = .next (afterError 0x10#8 (BitVec.ofNat 32 e.length) s)) ∧
    (s.inLen.toNat ≤ s.cfg.inCap → e.length ≤ s.cfg.outCap → ∃ t, exec .encode s = .next t ∧
      outputBytes t = e ∧ t.outLen.toNat = e.length ∧ (∀ k, e.length ≤ k → outByte t k = outByte s k) ∧
      t.freq = countBytes x ∧ arena t = (inputTree x).1 ∧ t.treeSize.toNat = (inputTree x).1.length ∧
      t.leafCount.toNat = (inputTree x).2 ∧ t.codes = inputCodes x ∧
      t.bits.toNat = (bitSeq (inputCodes x) x).length ∧
      t.dataOff.toNat = 12 + (serialize (inputTree x).1 (inputTree x).2).length ∧
      t.root.toNat = (if 1 ≤ (inputTree x).1.length then 2 ^ 31 + ((inputTree x).1.length - 1) else 0) ∧
      t.statRatio.toNat = (if s.inLen = 0 then 0xFFFFFFFF else min (e.length * 65536 / s.inLen.toNat) 0xFFFFFFFF) ∧
      t.statLeaf = t.leafCount ∧ t.statNodes = t.treeSize ∧ t.statOrig = s.inLen ∧ t.statComp = t.outLen ∧
      t = afterSuccess { s with
        freq := t.freq, nodes := t.nodes, codes := t.codes, outBuf := t.outBuf, outLen := t.outLen
        freqV := true, treeV := true, treeSrc := false, codesV := true
        treeSize := t.treeSize, leafCount := t.leafCount, bits := t.bits, dataOff := t.dataOff, root := t.root
        statLeaf := t.statLeaf, statNodes := t.statNodes, statOrig := t.statOrig, statComp := t.statComp
        statRatio := t.statRatio })

/-- R185: ENCODE is exactly the sequence of its staged commands after CLEAR: it succeeds with state `t` exactly when CLEAR,
FREQ_COUNT, TREE_BUILD, CODE_GEN, ENV_PACK run one after another, each with success, and end in `t`. Only FREQ_COUNT
(LEN_RANGE) and ENV_PACK (OUT_OVERFLOW) can fail there; ENCODE then has that error, and the state before ENCODE takes it. -/
def Obligations.EncodeIsTheStagedSequence : Prop :=
  decode 0x00000002#32 = .ok .encode ∧
  ∀ s : State,
    (∀ t, (exec .encode s = .next t ∧ t.errCode = 0) ↔
      ∃ s1 s2 s3 s4, exec .clear s = .next s1 ∧
        (exec .freqCount s1 = .next s2 ∧ s2.errCode = 0) ∧ (exec .treeBuild s2 = .next s3 ∧ s3.errCode = 0) ∧
        (exec .codeGen s3 = .next s4 ∧ s4.errCode = 0) ∧ (exec .envPack s4 = .next t ∧ t.errCode = 0)) ∧
    (∀ s1 s2, exec .clear s = .next s1 → exec .freqCount s1 = .next s2 → s2.errCode ≠ 0 →
      s2.errCode = 0x11#8 ∧ exec .encode s = .next (afterError s2.errCode s2.errInfo s)) ∧
    (∀ s1 s2 s3 s4 s5, exec .clear s = .next s1 → exec .freqCount s1 = .next s2 → s2.errCode = 0 →
      exec .treeBuild s2 = .next s3 → exec .codeGen s3 = .next s4 → exec .envPack s4 = .next s5 →
      s3.errCode = 0 ∧ s4.errCode = 0 ∧
      (s5.errCode ≠ 0 → s5.errCode = 0x10#8 ∧ exec .encode s = .next (afterError s5.errCode s5.errInfo s)))

/-! ### The decoder (spec/44_decoder.md) -/

/-- R200: ParseHeader's checks in order, through ENV_PARSE on an input that fits IN. -/
def Obligations.HeaderIsCheckedInOrder : Prop :=
  ∀ s : State, s.inLen.toNat ≤ s.cfg.inCap →
    let size := rdLE32 (inByte s) 0
    let l := rdLE32 (inByte s) 4
    let ok := (l = 0 ∧ size = 0) ∨ (l = 1 ∧ size = 1) ∨ (2 ≤ l ∧ l ≤ 256 ∧ size = 2 * l - 1)
    let doff := 12 + l + 4 * (size - l)
    (s.inLen.toNat < 12 → exec .envParse s = .next (afterError 0x01#8 12#32 s)) ∧
    (12 ≤ s.inLen.toNat → ¬ok → exec .envParse s = .next (afterError 0x04#8 0#32 s)) ∧
    (12 ≤ s.inLen.toNat → ok → s.inLen.toNat < doff →
      exec .envParse s = .next (afterError 0x01#8 (BitVec.ofNat 32 doff) s)) ∧
    (12 ≤ s.inLen.toNat → ok → doff ≤ s.inLen.toNat →
      parseHeader (inByte s) s.inLen.toNat = .ok ⟨size, l, rdLE32 (inByte s) 8, doff⟩)

/-- R202: ENV_PARSE raises LEN_RANGE on an input longer than IN. It completes on an input that fits IN with a good header and
tree region: it puts the records in the arena, with frequency 0, and the header in the tree registers; it invalidates FREQ
and the codes; OUT and everything else stay. Every error of the header or of the tree region is taken as such. -/
def Obligations.EnvParseRebuildsTheTree : Prop :=
  decode 0x00000020#32 = .ok .envParse ∧
  (∀ s : State, s.cfg.inCap < s.inLen.toNat → exec .envParse s = .next (afterError 0x11#8 s.inLen s)) ∧
  ∀ s : State, s.inLen.toNat ≤ s.cfg.inCap →
    (∀ r, parseHeader (inByte s) s.inLen.toNat = .error r →
      exec .envParse s = .next (afterError (causeCode r.cause) r.info s)) ∧
    (∀ h r, parseHeader (inByte s) s.inLen.toNat = .ok h → reconstruct (inByte s) h.size h.leaves = .error r →
      exec .envParse s = .next (afterError (causeCode r.cause) r.info s)) ∧
    (∀ h ns, parseHeader (inByte s) s.inLen.toNat = .ok h → reconstruct (inByte s) h.size h.leaves = .ok ns →
      ∃ t, exec .envParse s = .next t ∧ arena t = ns ∧ ns = recordsOf (inByte s) h.size h.leaves ∧
        t.treeSize.toNat = h.size ∧ t.leafCount.toNat = h.leaves ∧ t.bits.toNat = h.bits ∧ t.dataOff.toNat = h.doff ∧
        t.root.toNat = (if 1 ≤ h.size then 2 ^ 31 + (h.size - 1) else 0) ∧
        t = afterSuccess { s with
          nodes := t.nodes, treeSize := t.treeSize, leafCount := t.leafCount, bits := t.bits, dataOff := t.dataOff
          root := t.root, treeV := true, treeSrc := true, freqV := false, codesV := false })

/-- R147, R148: after a good header, Reconstruct accepts exactly the tree regions whose records form a tree. -/
def Obligations.ReconstructAcceptsExactlyTheTrees : Prop :=
  ∀ (buf : Nat → Byte) (size l : Nat), headerOk size l = true →
    ((∃ ns, reconstruct buf size l = .ok ns) ↔ TreeOk (recordsOf buf size l) l)

/-- R147, R234: Reconstruct reports the first bad record in index order: if the records before `i` pass, a leaf record that
repeats a payload is FMT_DUP_SYMBOL(i), and at an internal record the left child is checked before the right, each for range
before shape. -/
def Obligations.ReconstructReportsTheFirstBadRecord : Prop :=
  ∀ (buf : Nat → Byte) (size l i : Nat) (r : Recon), i < size → reconLoop buf size l i 0 ⟨12, [], [], []⟩ = .ok r →
    let o := 12 + min i l + 4 * (i - l)
    let lc := rdLE16 buf o
    let rc := rdLE16 buf (o + 2)
    let bad := fun c => i ≤ c ∨ c ∈ childRefs (recordsOf buf i l)
    (i < l → buf o ∈ (recordsOf buf i l).map nodePayload →
      reconstruct buf size l = .error ⟨.fmtDupSymbol, BitVec.ofNat 32 i⟩) ∧
    (l ≤ i → size ≤ lc → reconstruct buf size l = .error ⟨.fmtChildRange, BitVec.ofNat 32 i⟩) ∧
    (l ≤ i → lc < size → bad lc → reconstruct buf size l = .error ⟨.fmtTreeShape, BitVec.ofNat 32 i⟩) ∧
    (l ≤ i → lc < size → ¬bad lc → size ≤ rc →
      reconstruct buf size l = .error ⟨.fmtChildRange, BitVec.ofNat 32 (i + 65536)⟩) ∧
    (l ≤ i → lc < size → ¬bad lc → rc < size → bad rc ∨ rc = lc →
      reconstruct buf size l = .error ⟨.fmtTreeShape, BitVec.ofNat 32 (i + 65536)⟩)

/-- R204, R207: on a tree of two or more nodes, BIT_DECODE reads a sequence of root-to-leaf paths and emits the symbol of each
leaf, in order, and nothing else changes; bits left over inside a path are FMT_TRUNCATED(BITS); one symbol more than OUT_CAP
is OUT_OVERFLOW at the bit position that completes it. -/
def Obligations.BitDecodeWalksTheTree : Prop :=
  decode 0x00000021#32 = .ok .bitDecode ∧
  ∀ (s : State) (ps : List (Path × Nat)) (rest : List Bool),
    s.treeV = true → s.treeSrc = true → 2 ≤ s.treeSize.toNat → TreeOk (arena s) s.leafCount.toNat →
    s.dataOff.toNat + (s.bits.toNat + 7) / 8 ≤ s.inLen.toNat →
    (∀ p ∈ ps, p.2 < s.leafCount.toNat ∧ descend (arena s) (s.treeSize.toNat - 1) p.1 = some p.2) →
    packedBits s = (ps.map Prod.fst).flatten ++ rest →
    (ps.length ≤ s.cfg.outCap → rest = [] → ∃ t, exec .bitDecode s = .next t ∧
      outputBytes t = ps.map (fun p => nodePayload (node s p.2)) ∧ t.outLen.toNat = ps.length ∧
      (∀ k, ps.length ≤ k → outByte t k = outByte s k) ∧
      t = afterSuccess { s with outBuf := t.outBuf, outLen := t.outLen }) ∧
    (ps.length ≤ s.cfg.outCap → rest ≠ [] →
      (∃ i, descend (arena s) (s.treeSize.toNat - 1) rest = some i ∧ s.leafCount.toNat ≤ i) →
      exec .bitDecode s = .next (afterError 0x03#8 s.bits s)) ∧
    (ps.length = s.cfg.outCap + 1 →
      exec .bitDecode s = .next
        (afterError 0x10#8 (BitVec.ofNat 32 ((ps.map Prod.fst).flatten.length - 1)) s))

/-- R206, R204: the degenerate trees. A single leaf emits its symbol for each bit 0, the first bit 1 is FMT_BAD_CODE, and one
symbol more than OUT_CAP is OUT_OVERFLOW; an empty tree decodes only BITS = 0, to nothing; too few data bytes are FMT_SHORT
for any tree. -/
def Obligations.BitDecodeOfDegenerateTrees : Prop :=
  ∀ s : State, s.treeV = true → s.treeSrc = true →
    let need := s.dataOff.toNat + (s.bits.toNat + 7) / 8
    (s.inLen.toNat < need → exec .bitDecode s = .next (afterError 0x01#8 (BitVec.ofNat 32 need) s)) ∧
    (need ≤ s.inLen.toNat → s.treeSize = 0 → 0 < s.bits.toNat →
      exec .bitDecode s = .next (afterError 0x07#8 0#32 s)) ∧
    (need ≤ s.inLen.toNat → s.bits = 0 →
      exec .bitDecode s = .next (afterSuccess { s with outLen := 0 })) ∧
    (need ≤ s.inLen.toNat → s.treeSize = 1 → (∀ k, k < s.bits.toNat → packedBit s k = false) →
      s.bits.toNat ≤ s.cfg.outCap → ∃ t, exec .bitDecode s = .next t ∧
        outputBytes t = List.replicate s.bits.toNat (nodePayload (node s 0)) ∧ t.outLen = s.bits ∧
        (∀ k, s.bits.toNat ≤ k → outByte t k = outByte s k) ∧
        t = afterSuccess { s with outBuf := t.outBuf, outLen := t.outLen }) ∧
    (need ≤ s.inLen.toNat → s.treeSize = 1 → s.cfg.outCap < s.bits.toNat →
      (∀ k, k ≤ s.cfg.outCap → packedBit s k = false) →
      exec .bitDecode s = .next (afterError 0x10#8 (BitVec.ofNat 32 s.cfg.outCap) s)) ∧
    (∀ k, need ≤ s.inLen.toNat → s.treeSize = 1 → k < s.bits.toNat → k ≤ s.cfg.outCap → packedBit s k = true →
      (∀ j, j < k → packedBit s j = false) → exec .bitDecode s = .next (afterError 0x07#8 (BitVec.ofNat 32 k) s))

/-- R204: with two or more nodes FMT_BAD_CODE cannot occur. -/
def Obligations.BadCodeNeedsADegenerateTree : Prop :=
  ∀ s t : State, 2 ≤ s.treeSize.toNat → exec .bitDecode s = .next t → t.errCode ≠ 0x07#8

/-- R205: DECODE is exactly the sequence of its staged commands after CLEAR: it succeeds with state `t` exactly when CLEAR,
ENV_PARSE, BIT_DECODE run one after another, each with success, and end in `t`; the first of them that fails gives DECODE its
error, and the state before DECODE takes it. -/
def Obligations.DecodeIsTheStagedSequence : Prop :=
  decode 0x00000003#32 = .ok .decode ∧
  ∀ s : State,
    (∀ t, (exec .decode s = .next t ∧ t.errCode = 0) ↔
      ∃ s1 s2, exec .clear s = .next s1 ∧ (exec .envParse s1 = .next s2 ∧ s2.errCode = 0) ∧
        (exec .bitDecode s2 = .next t ∧ t.errCode = 0)) ∧
    (∀ s1 s2, exec .clear s = .next s1 → exec .envParse s1 = .next s2 → s2.errCode ≠ 0 →
      exec .decode s = .next (afterError s2.errCode s2.errInfo s)) ∧
    (∀ s1 s2 s3, exec .clear s = .next s1 → exec .envParse s1 = .next s2 → s2.errCode = 0 →
      exec .bitDecode s2 = .next s3 → s3.errCode ≠ 0 → exec .decode s = .next (afterError s3.errCode s3.errInfo s))

/-- R205, R202, R204, R206, R207: DECODE completes on every input that fits IN, has a good header and tree region and all its
data bytes, and whose packed bits are a sequence of codes of that tree (root-to-leaf paths of a tree of two or more nodes, bits
0 of a single leaf, nothing for an empty tree) that fits OUT: its output is their symbols, the tree stays loaded, and
everything not named stays. -/
def Obligations.DecodeDecodesEveryValidEnvelope : Prop :=
  ∀ (s : State) (h : Header) (ns : List Node) (data : List Bool) (out : List Byte), s.inLen.toNat ≤ s.cfg.inCap →
    parseHeader (inByte s) s.inLen.toNat = .ok h → reconstruct (inByte s) h.size h.leaves = .ok ns →
    h.doff + (h.bits + 7) / 8 ≤ s.inLen.toNat → out.length ≤ s.cfg.outCap →
    data = (List.range h.bits).map (fun k => (inByte s (h.doff + k / 8)).getLsbD (k % 8)) →
    (h.size = 0 ∧ h.bits = 0 ∧ out = []) ∨
      (h.size = 1 ∧ data = List.replicate h.bits false ∧ out = List.replicate h.bits (inByte s 12)) ∨
      (2 ≤ h.size ∧ ∃ ps : List (Path × Nat),
        (∀ p ∈ ps, p.2 < h.leaves ∧ descend ns (h.size - 1) p.1 = some p.2) ∧
        data = (ps.map Prod.fst).flatten ∧ out = ps.map fun p => inByte s (12 + p.2)) →
    ∃ t, exec .decode s = .next t ∧ outputBytes t = out ∧ t.outLen.toNat = out.length ∧
      (∀ k, out.length ≤ k → outByte t k = outByte s k) ∧ arena t = ns ∧ t.leafCount.toNat = h.leaves ∧
      t.treeSize.toNat = h.size ∧ t.bits.toNat = h.bits ∧ t.dataOff.toNat = h.doff ∧
      t = afterSuccess { s with
        nodes := t.nodes, treeSize := t.treeSize, leafCount := t.leafCount, bits := t.bits, dataOff := t.dataOff
        root := rootWord h.size, treeV := true, treeSrc := true, freqV := false, codesV := false
        outBuf := t.outBuf, outLen := t.outLen }

/-! ### Encoder and decoder together -/

/-- R150: parsing the envelope that ENV_PACK framed, on its own or inside ENCODE, gives the arena that was built, frequencies
apart. On its own ENV_PACK is taken in the states of `Invariant` (R48), where its arena and codes are those of its input. -/
def Obligations.ParsingAnEnvelopeRebuildsItsTree : Prop :=
  ∀ (i : Instr) (s t u : State), i = .encode ∨ (i = .envPack ∧ Invariant s) → exec i s = .next t → t.errCode = 0 →
    HoldsInput u (outputBytes t) →
    ∃ v, exec .envParse u = .next v ∧ v.errCode = 0 ∧ arena v = (arena t).map withoutFreq ∧
      v.leafCount = t.leafCount ∧ v.treeSize = t.treeSize ∧ v.bits = t.bits ∧ v.dataOff = t.dataOff

/-- R187: what ENCODE makes of an input is `inputEnvelope` of it, and DECODE turns the envelope of any input back into that
input, on any build whose IN holds the envelope and whose OUT holds the input; empty and single-symbol inputs included. -/
def Obligations.DecodeReturnsTheEncodedInput : Prop :=
  (∀ s t : State, exec .encode s = .next t → t.errCode = 0 → outputBytes t = inputEnvelope (inputBytes s)) ∧
  (∀ (x : List Byte) (u : State), HoldsInput u (inputEnvelope x) → x.length ≤ u.cfg.outCap →
    ∃ v, exec .decode u = .next v ∧ v.errCode = 0 ∧ v.errInfo = 0 ∧ outputBytes v = x ∧ v.outLen.toNat = x.length ∧
      v.treeV = true ∧ v.treeSrc = true ∧ v.freqV = false ∧ v.codesV = false ∧
      (∀ k, x.length ≤ k → outByte v k = outByte u k) ∧ (∀ k, inByte v k = inByte u k))

/-- R208: an envelope with packed data that ENV_PACK wrote, on its own (in the states of `Invariant`, R48) or inside ENCODE, cut by
its last byte, fails with FMT_SHORT and the uncut length. -/
def Obligations.CutEnvelopesAreRejected : Prop :=
  ∀ (i : Instr) (s t u : State), i = .encode ∨ (i = .envPack ∧ Invariant s) → exec i s = .next t → t.errCode = 0 →
    0 < t.bits.toNat → HoldsInput u (outputBytes t).dropLast →
    exec .decode u = .next (afterError 0x01#8 t.outLen u)

/-! ### Status, interrupt and the host port (spec/10_state.md, spec/20_memory.md, spec/60_exceptions.md) -/

/-- R240: irq is the level (DONE AND DONE_IE) OR (ERR AND ERR_IE): it rises at a completion whose enable is set, and falls
at an acceptance, at the clearing of the causing STATUS bits or enables, and at reset. -/
def Obligations.IrqIsALevelOfStatusAndEnables : Prop :=
  (∀ s : State, irq s = true ↔ (s.done = true ∧ s.doneIE = true) ∨ (s.err = true ∧ s.errIE = true)) ∧
  (∀ (i : Instr) (s t : State), exec i s = .next t → s.doneIE = true → irq t = true) ∧
  (∀ (i : Instr) (s t : State), exec i s = .next t → t.errCode ≠ 0 → s.errIE = true → irq t = true) ∧
  (∀ (s : State) (w : Word), s.engine = .idle → irq (transact ⟨0x10#26, .write, w⟩ s) = false) ∧
  (∀ (s : State) (w : Word), w.getLsbD 1 = true → w.getLsbD 2 = true →
    irq (transact ⟨0x14#26, .write, w⟩ s) = false) ∧
  (∀ s : State, irq (transact ⟨0x18#26, .write, 0#32⟩ s) = false) ∧
  (∀ s : State, irq (resetBlock s) = false)

/-- R24, R26 to R28, R30, R238: a write of STATUS clears the W1C bits written as 1 and nothing else; a write of IRQ_EN sets the
two enables; both take effect while busy too, and neither touches ERR_CODE or ERR_INFO. -/
def Obligations.StatusAndIrqEnWrites : Prop :=
  ∀ (s : State) (v : Word),
    transact ⟨0x14#26, .write, v⟩ s =
      { s with
        done := if v.getLsbD 1 then false else s.done
        err := if v.getLsbD 2 then false else s.err
        wbusy := if v.getLsbD 3 then false else s.wbusy
        answer := some ⟨.okay, 0⟩ } ∧
    transact ⟨0x18#26, .write, v⟩ s =
      { s with doneIE := v.getLsbD 0, errIE := v.getLsbD 1, answer := some ⟨.okay, 0⟩ }

/-- R46, R32, R63: in IDLE a write of IN_LEN stores the value, a write of an IN window word its four bytes, little-endian; each
performs InvInput, and nothing else changes. A read of that word then returns what was written. -/
def Obligations.InputWritesInvalidate : Prop :=
  ∀ (s : State) (v : Word), s.engine = .idle →
    (transact ⟨0x24#26, .write, v⟩ s =
      { s with
        inLen := v, freqV := false, treeV := false, treeSrc := false, codesV := false
        treeSize := 0, leafCount := 0, bits := 0, dataOff := 0, root := 0, answer := some ⟨.okay, 0⟩ }) ∧
    (∀ k, 4 * k < s.cfg.inCap →
      let a := BitVec.ofNat 26 (0x1000000 + 4 * k)
      let t := transact ⟨a, .write, v⟩ s
      (∀ j, j < 4 → inByte t (4 * k + j) = v.extractLsb' (8 * j) 8) ∧
      (∀ n, n < 4 * k ∨ 4 * k + 4 ≤ n → inByte t n = inByte s n) ∧
      (t = { s with
        inBuf := t.inBuf, freqV := false, treeV := false, treeSrc := false, codesV := false
        treeSize := 0, leafCount := 0, bits := 0, dataOff := 0, root := 0, answer := some ⟨.okay, 0⟩ }) ∧
      (transact ⟨a, .read, 0⟩ t).answer = some ⟨.okay, v⟩)

/-- R50, R28, R270: while BUSY, writes to CMD, IN_LEN and the IN window are dropped with WBUSY set. -/
def Obligations.BusyWritesAreDropped : Prop :=
  ∀ (s : State) (w v : Word) (a : Addr), s.engine = .busy w → aligned a = true →
    (a = 0x10#26 ∨ a = 0x24#26 ∨ (0x1000000 ≤ a.toNat ∧ a.toNat < 0x1000000 + s.cfg.inCap)) →
    transact ⟨a, .write, v⟩ s = { s with wbusy := true, answer := some ⟨.okay, 0⟩ }

/-- R75, R50: no transaction while BUSY changes what the running command reads or will complete with: of the block's state
only DONE, ERR, WBUSY and IRQ_EN can change. -/
def Obligations.BusyTransactionsKeepTheOperands : Prop :=
  ∀ (s : State) (w : Word) (r : Request), s.engine = .busy w →
    let t := transact r s
    t = { s with
      done := t.done, err := t.err, wbusy := t.wbusy, doneIE := t.doneIE, errIE := t.errIE
      answer := t.answer, draws := t.draws } ∧
    (s.done = false → t.done = false) ∧ (s.err = false → t.err = false)

/-- R50, over the offsets of R43: a read while BUSY. STATUS reads BUSY = 1, DONE = 0, ERR = 0, the current WBUSY and the
reserved bits 0, its bits 7..4 those of a free draw. ERR_CODE, ERR_INFO, OUT_LEN to STAT_RATIO and the FREQ, NODE, CODE and OUT
windows read a free draw, a fresh one at each read (log 7). ID, the capacities, CMD, IRQ_EN, IN_LEN and the IN window read
their values and reserved offsets 0. Nothing else changes. `Invariant` rules out a BUSY state with DONE or ERR. -/
def Obligations.BusyReadsOfResultsAreFree : Prop :=
  ∀ (s : State) (w v : Word) (a : Addr), Invariant s → s.engine = .busy w → aligned a = true →
    let t := transact ⟨a, .read, v⟩ s
    let drawn := { s with draws := s.draws + 1 }
    let n := a.toNat
    (n = 0x14 → ∃ d : Word, t = { drawn with answer := some ⟨.okay, d⟩ } ∧
      d.getLsbD 0 = true ∧ d.getLsbD 1 = false ∧ d.getLsbD 2 = false ∧ d.getLsbD 3 = s.wbusy ∧
      (∀ n, 4 ≤ n → n < 8 → d.getLsbD n = (Config.freeDraw s.draws).getLsbD n) ∧ d.extractLsb' 8 24 = 0) ∧
    (n = 0x1C ∨ n = 0x20 ∨ (0x28 ≤ n ∧ n ≤ 0x50) ∨ (0x1000 ≤ n ∧ n < 0x1400) ∨ (0x2000 ≤ n ∧ n < 0x4000) ∨
        (0x4000 ≤ n ∧ n < 0x8000) ∨ (0x2000000 ≤ n ∧ n < 0x2000000 + s.cfg.outCap) →
      t = { drawn with answer := some ⟨.okay, Config.freeDraw s.draws⟩ }) ∧
    (n = 0x00 → t = { s with answer := some ⟨.okay, 0x48554646#32⟩ }) ∧
    (n = 0x04 → t = { s with answer := some ⟨.okay, BitVec.ofNat 32 s.cfg.inCap⟩ }) ∧
    (n = 0x08 → t = { s with answer := some ⟨.okay, BitVec.ofNat 32 s.cfg.outCap⟩ }) ∧
    (n = 0x10 → t = { s with answer := some ⟨.okay, s.lastCmd⟩ }) ∧
    (n = 0x18 → t = { s with answer := some ⟨.okay, 0#30 ++ BitVec.ofBool s.errIE ++ BitVec.ofBool s.doneIE⟩ }) ∧
    (n = 0x24 → t = { s with answer := some ⟨.okay, s.inLen⟩ }) ∧
    (∀ k, 4 * k < s.cfg.inCap → n = 0x1000000 + 4 * k → ∃ d : Word, t = { s with answer := some ⟨.okay, d⟩ } ∧
      ∀ j, j < 4 → d.extractLsb' (8 * j) 8 = inByte s (4 * k + j)) ∧
    (n = 0x0C ∨ (0x54 ≤ n ∧ n < 0x1000) ∨ (0x1400 ≤ n ∧ n < 0x2000) ∨ (0x8000 ≤ n ∧ n < 0x1000000) ∨
        (0x1000000 + s.cfg.inCap ≤ n ∧ n < 0x2000000) ∨ 0x2000000 + s.cfg.outCap ≤ n →
      t = { s with answer := some ⟨.okay, 0⟩ })

/-- R68, R69: a read has no side effect: nothing but the answer changes in IDLE, and two reads of one word then agree. -/
def Obligations.IdleReadsHaveNoSideEffect : Prop :=
  ∀ (s : State) (r : Request), s.engine = .idle → r.kind = .read →
    transact r s = { s with answer := (transact r s).answer } ∧
    (transact r (transact r s)).answer = (transact r s).answer

/-- R62, with the reserved ranges of R43: a misaligned transaction is answered ERROR with data 0 and no effect; an aligned one
is answered OKAY; a reserved offset reads 0 and ignores a write, busy or not; a write to a read-only register or window is
ignored. -/
def Obligations.BusRejectsOnlyMisalignedAccesses : Prop :=
  ∀ (s : State) (r : Request),
    let n := r.addr.toNat
    (r.addr.extractLsb' 0 2 ≠ 0#2 → transact r s = { s with answer := some ⟨.error, 0⟩ }) ∧
    (r.addr.extractLsb' 0 2 = 0#2 → ∃ d, (transact r s).answer = some ⟨.okay, d⟩ ∧
      (r.kind = .write → d = 0) ∧
      (n = 0x0C ∨ (0x54 ≤ n ∧ n < 0x1000) ∨ (0x1400 ≤ n ∧ n < 0x2000) ∨ (0x8000 ≤ n ∧ n < 0x1000000) ∨
          (0x1000000 + s.cfg.inCap ≤ n ∧ n < 0x2000000) ∨ 0x2000000 + s.cfg.outCap ≤ n →
        d = 0 ∧ transact r s = { s with answer := some ⟨.okay, 0⟩ }) ∧
      (r.kind = .write → r.addr ≠ 0x10#26 → r.addr ≠ 0x14#26 → r.addr ≠ 0x18#26 → r.addr ≠ 0x24#26 →
        ¬(0x1000000 ≤ n ∧ n < 0x1000000 + s.cfg.inCap) →
        transact r s = { s with answer := some ⟨.okay, 0⟩ }))

/-- R43, R21 to R24, R30 to R35: the register map, as read in IDLE. -/
def Obligations.RegistersReadAtTheirOffsets : Prop :=
  ∀ s : State, s.engine = .idle →
    let rd := fun a : Addr => (transact ⟨a, .read, 0⟩ s).answer
    rd 0x000#26 = some ⟨.okay, 0x48554646#32⟩ ∧
    rd 0x004#26 = some ⟨.okay, BitVec.ofNat 32 s.cfg.inCap⟩ ∧ rd 0x008#26 = some ⟨.okay, BitVec.ofNat 32 s.cfg.outCap⟩ ∧
    rd 0x00C#26 = some ⟨.okay, 0⟩ ∧ rd 0x010#26 = some ⟨.okay, s.lastCmd⟩ ∧
    rd 0x014#26 = some ⟨.okay, 0#24 ++ BitVec.ofBool s.codesV ++ BitVec.ofBool (s.treeV && s.treeSrc) ++
      BitVec.ofBool s.treeV ++ BitVec.ofBool s.freqV ++ BitVec.ofBool s.wbusy ++ BitVec.ofBool s.err ++
      BitVec.ofBool s.done ++ 0#1⟩ ∧
    rd 0x018#26 = some ⟨.okay, 0#30 ++ BitVec.ofBool s.errIE ++ BitVec.ofBool s.doneIE⟩ ∧
    rd 0x01C#26 = some ⟨.okay, 0#24 ++ s.errCode⟩ ∧ rd 0x020#26 = some ⟨.okay, s.errInfo⟩ ∧
    rd 0x024#26 = some ⟨.okay, s.inLen⟩ ∧ rd 0x028#26 = some ⟨.okay, s.outLen⟩ ∧
    rd 0x02C#26 = some ⟨.okay, s.treeSize⟩ ∧ rd 0x030#26 = some ⟨.okay, s.leafCount⟩ ∧
    rd 0x034#26 = some ⟨.okay, s.bits⟩ ∧ rd 0x038#26 = some ⟨.okay, s.dataOff⟩ ∧ rd 0x03C#26 = some ⟨.okay, s.root⟩ ∧
    rd 0x040#26 = some ⟨.okay, s.statLeaf⟩ ∧ rd 0x044#26 = some ⟨.okay, s.statNodes⟩ ∧
    rd 0x048#26 = some ⟨.okay, s.statOrig⟩ ∧ rd 0x04C#26 = some ⟨.okay, s.statComp⟩ ∧
    rd 0x050#26 = some ⟨.okay, s.statRatio⟩ ∧ rd 0x054#26 = some ⟨.okay, 0⟩ ∧ rd 0xFFC#26 = some ⟨.okay, 0⟩

/-- R40, R41, R42, R64, R105, R106: the windows as read in IDLE: each entry while its table is valid, 0 otherwise, and the OUT
window only below OUT_LEN. -/
def Obligations.WindowsShowOnlyValidTables : Prop :=
  ∀ s : State, s.engine = .idle →
    let rd := fun a : Nat => (transact ⟨BitVec.ofNat 26 a, .read, 0⟩ s).answer
    (∀ b : Byte, rd (0x1000 + 4 * b.toNat) = some ⟨.okay, if s.freqV then entry s.freq b else 0⟩) ∧
    (∀ i, i < 512 → s.treeV = true → i < s.treeSize.toNat →
      rd (0x2000 + 16 * i) = some ⟨.okay, nodeFreq (node s i)⟩ ∧
      (∀ p f, node s i = .leaf p f → rd (0x2000 + 16 * i + 4) = some ⟨.okay, 0⟩ ∧
        rd (0x2000 + 16 * i + 8) = some ⟨.okay, BitVec.ofNat 32 (256 + p.toNat)⟩) ∧
      (∀ l r f, node s i = .internal l r f →
        rd (0x2000 + 16 * i + 4) = some ⟨.okay, BitVec.ofNat 32 (l.toNat + 65536 * r.toNat)⟩ ∧
        rd (0x2000 + 16 * i + 8) = some ⟨.okay, 0⟩) ∧
      rd (0x2000 + 16 * i + 12) = some ⟨.okay, 0⟩) ∧
    (∀ i w, i < 512 → w < 4 → s.treeV = false ∨ s.treeSize.toNat ≤ i →
      rd (0x2000 + 16 * i + 4 * w) = some ⟨.okay, 0⟩) ∧
    (∀ b : Byte, s.codesV = true →
      rd (0x4000 + 64 * b.toNat) = some ⟨.okay, BitVec.ofNat 32 ((entry s.codes b).length % 256)⟩ ∧
      (∀ m, m < 8 → ∃ d : Word, rd (0x4000 + 64 * b.toNat + 4 * (1 + m)) = some ⟨.okay, d⟩ ∧
        ∀ j, j < 32 → d.getLsbD j = (entry s.codes b).getD (32 * m + j) false) ∧
      (∀ w, 9 ≤ w → w < 16 → rd (0x4000 + 64 * b.toNat + 4 * w) = some ⟨.okay, 0⟩)) ∧
    (∀ (b : Byte) w, w < 16 → s.codesV = false → rd (0x4000 + 64 * b.toNat + 4 * w) = some ⟨.okay, 0⟩) ∧
    (∀ k, 4 * k < s.cfg.outCap → ∃ d : Word, rd (0x2000000 + 4 * k) = some ⟨.okay, d⟩ ∧
      ∀ j, j < 4 → d.extractLsb' (8 * j) 8 = if 4 * k + j < s.outLen.toNat then outByte s (4 * k + j) else 0)
end

