-- ==== Sys2Proof/Laws/Merge.lean ====
section
/-! SUPPORT. The merge algorithm (spec/41_tree_builder.md R142 to R145): what a pop takes, one induction principle for the
merge loop, and the shape of the arena it leaves. -/

namespace Sys2Proof.Machine

/-! ### Keys and pops -/

theorem keyLt_iff {a b : Key} : keyLt a b = true ↔ a.freq < b.freq ∨ (a.freq = b.freq ∧ a.idx < b.idx) := by
  simp [keyLt]

theorem keyLt_trans {a b c : Key} (h1 : keyLt a b = true) (h2 : keyLt b c = true) : keyLt a c = true := by
  rw [keyLt_iff] at *; omega

/-- Keys with different indices are comparable. -/
theorem keyLt_of_not {a b : Key} (h : keyLt a b = false) (hne : a.idx ≠ b.idx) : keyLt b a = true := by
  have h' : ¬ keyLt a b = true := by simp [h]
  rw [keyLt_iff] at *
  omega

theorem leastKey_mem (k : Key) (q : List Key) : leastKey k q ∈ k :: q := by
  induction q generalizing k with
  | nil => simp [leastKey]
  | cons k' q ih =>
    rw [leastKey]
    split
    · exact List.mem_cons_of_mem _ (ih k')
    · rcases List.mem_cons.1 (ih k) with h | h
      · rw [h]; exact List.mem_cons_self
      · exact List.mem_cons_of_mem _ (List.mem_cons_of_mem _ h)

theorem leastKey_least (k : Key) (q : List Key) : ∀ j ∈ k :: q, keyLt j (leastKey k q) = false := by
  induction q generalizing k with
  | nil => intro j hj; simp only [List.mem_singleton] at hj; subst hj; simp [leastKey, keyLt]
  | cons k' q ih =>
    intro j hj
    rw [leastKey]
    split
    · rename_i hlt
      rcases List.mem_cons.1 hj with rfl | hj
      · have h1 := ih k' k' List.mem_cons_self
        by_contra hc
        have hc : keyLt j (leastKey k' q) = true := by simpa using hc
        have := keyLt_trans hlt hc
        simp [this] at h1
      · exact ih k' j hj
    · rename_i hlt
      rcases List.mem_cons.1 hj with rfl | hj
      · exact ih j j List.mem_cons_self
      · rcases List.mem_cons.1 hj with rfl | hj
        · have h1 := ih k k List.mem_cons_self
          by_contra hc
          have hc : keyLt j (leastKey k q) = true := by simpa using hc
          rw [keyLt_iff] at hlt hc
          have h1' : ¬ keyLt k (leastKey k q) = true := by simp [h1]
          rw [keyLt_iff] at h1'
          omega
        · exact ih k j (List.mem_cons_of_mem _ hj)

@[simp] theorem popLeast_eq_none {q : List Key} : popLeast q = none ↔ q = [] := by
  cases q <;> simp [popLeast]

/-- A pop removes one key, and none of those it leaves is less. -/
theorem popLeast_some {q q' : List Key} {k : Key} (h : popLeast q = some (k, q')) :
    q.Perm (k :: q') ∧ ∀ j ∈ q', keyLt j k = false := by
  cases q with
  | nil => simp [popLeast] at h
  | cons k0 q =>
    simp only [popLeast, Option.some.injEq, Prod.mk.injEq] at h
    obtain ⟨rfl, rfl⟩ := h
    exact ⟨List.perm_cons_erase (leastKey_mem k0 q), fun j hj => leastKey_least k0 q j (List.mem_of_mem_erase hj)⟩

/-! ### The loop -/

/-- The node a merge of `a` and `b` appends. -/
def mergedNode (a b : Key) : Node :=
  .internal (BitVec.ofNat 16 a.idx) (BitVec.ofNat 16 b.idx) (BitVec.ofNat 32 (a.freq + b.freq))

/-- What each round does: from a queue that is `a, b` and `q2` in some order, `a` no greater than `b`, and `b` no greater
than the rest. -/
def MergeStep (P : List Node → List Key → Prop) : Prop :=
  ∀ nodes q a b q2, P nodes q → q.Perm (a :: b :: q2) → keyLt b a = false → (∀ j ∈ q2, keyLt j a = false) →
    (∀ j ∈ q2, keyLt j b = false) → P (nodes ++ [mergedNode a b]) (⟨a.freq + b.freq, nodes.length⟩ :: q2)

/-- Whatever holds before the loop and is kept by each round holds after it, with at most one key left. -/
theorem mergeLoop_induct {P : List Node → List Key → Prop} (hP : MergeStep P) (fuel : Nat) {nodes : List Node}
    {q : List Key} (h : P nodes q) (hf : q.length ≤ fuel + 1) :
    ∃ q', P (mergeLoop fuel nodes q) q' ∧ q'.length ≤ 1 := by
  induction fuel generalizing nodes q with
  | zero => exact ⟨q, h, hf⟩
  | succ n ih =>
    rw [mergeLoop]
    split
    · rename_i hn
      exact ⟨q, h, by simp [popLeast_eq_none.1 hn]⟩
    · rename_i a q1 ha
      obtain ⟨p1, l1⟩ := popLeast_some ha
      split
      · rename_i hn
        refine ⟨q, h, ?_⟩
        have := p1.length_eq
        simp [popLeast_eq_none.1 hn] at this
        omega
      · rename_i b q2 hb
        obtain ⟨p2, l2⟩ := popLeast_some hb
        have hperm : q.Perm (a :: b :: q2) := p1.trans (p2.cons a)
        refine ih (hP nodes q a b q2 h hperm (l1 b (p2.mem_iff.2 List.mem_cons_self))
          (fun j hj => l1 j (p2.mem_iff.2 (List.mem_cons_of_mem _ hj))) l2) ?_
        have := hperm.length_eq
        simp only [List.length_cons] at this ⊢
        omega

/-! ### The shape of the arena -/

@[simp] theorem childRefs_append (a b : List Node) : childRefs (a ++ b) = childRefs a ++ childRefs b := by
  simp [childRefs]

@[simp] theorem childRefs_nil : childRefs [] = [] := rfl

@[simp] theorem childRefs_singleton (n : Node) : childRefs [n] = children n := by simp [childRefs]

theorem childRefs_of_leaves {ns : List Node} (h : ∀ n ∈ ns, nodeIsLeaf n = true) : childRefs ns = [] := by
  simp only [childRefs, List.flatMap_eq_nil_iff]
  intro n hn
  cases n with
  | leaf => rfl
  | internal => exact absurd (h _ hn) (by simp [nodeIsLeaf])

/-- What the merge loop keeps of an arena that begins with `l` leaves: every node is the child of one node or waits in the
queue, exactly once. -/
structure Merging (leaves : List Node) (nodes : List Node) (q : List Key) : Prop where
  small : leaves.length ≤ 256
  total : nodes.length + q.length = 2 * leaves.length
  live : q ≠ []
  front : nodes.take leaves.length = leaves
  kinds : ∀ i, (h : i < nodes.length) → (nodeIsLeaf nodes[i] = true ↔ i < leaves.length)
  below : ∀ i, (h : i < nodes.length) → ∀ c ∈ children nodes[i], c < i
  once : ∀ c, c < nodes.length → (childRefs nodes).count c + (q.map Key.idx).count c = 1
  inside : ∀ k ∈ q, k.idx < nodes.length
  newest : nodes.length = leaves.length ∨ (q.head?.map Key.idx) = some (nodes.length - 1)

theorem children_mergedNode {a b : Key} (ha : a.idx < 2 ^ 16) (hb : b.idx < 2 ^ 16) :
    children (mergedNode a b) = [a.idx, b.idx] := by
  simp only [children, mergedNode, BitVec.toNat_ofNat, Nat.mod_eq_of_lt ha, Nat.mod_eq_of_lt hb]

theorem merging_step (leaves : List Node) : MergeStep (Merging leaves) := by
  intro nodes q a b q2 h hp _ _ _
  have hlen := hp.length_eq
  have ha : a.idx < nodes.length := h.inside a (hp.mem_iff.2 (by simp))
  have hb : b.idx < nodes.length := h.inside b (hp.mem_iff.2 (by simp))
  have hsmall := h.small
  have htotal := h.total
  have hfront : leaves.length ≤ nodes.length := by
    have := congrArg List.length h.front
    simp only [List.length_take] at this
    omega
  have hn : nodes.length < 2 ^ 16 := by omega
  have hch := children_mergedNode (Nat.lt_trans ha hn) (Nat.lt_trans hb hn)
  simp only [List.length_cons] at hlen
  refine ⟨h.small, ?_, by simp, ?_, ?_, ?_, ?_, ?_, ?_⟩
  · simp only [List.length_append, List.length_cons, List.length_nil]; omega
  · rw [List.take_append_of_le_length hfront, h.front]
  · intro i hi
    by_cases hc : i < nodes.length
    · rw [List.getElem_append_left hc]; exact h.kinds i hc
    · have : i = nodes.length := by simp at hi; omega
      subst this
      simp [mergedNode, nodeIsLeaf, hfront]
  · intro i hi c hc
    by_cases hl : i < nodes.length
    · rw [List.getElem_append_left hl] at hc; exact h.below i hl c hc
    · have : i = nodes.length := by simp at hi; omega
      subst this
      simp [hch] at hc
      omega
  · intro c hc
    have hcount := (hp.map Key.idx).count_eq c
    simp only [List.map_cons, List.count_cons, childRefs_append, childRefs_singleton, hch, List.count_append,
      List.count_nil] at hcount ⊢
    by_cases hl : c < nodes.length
    · have := h.once c hl
      have hne : ¬ nodes.length = c := by omega
      simp only [beq_iff_eq, hne, if_false] at *
      omega
    · have hcn : c = nodes.length := by simp at hc; omega
      subst hcn
      have h1 : (childRefs nodes).count nodes.length = 0 := by
        refine List.count_eq_zero.2 fun hm => ?_
        obtain ⟨n, hn1, hn2⟩ := List.mem_flatMap.1 hm
        obtain ⟨i, hi, rfl⟩ := List.getElem_of_mem hn1
        have := h.below i hi _ hn2
        omega
      have h2 : (q2.map Key.idx).count nodes.length = 0 := by
        refine List.count_eq_zero.2 fun hm => ?_
        obtain ⟨k, hk1, hk2⟩ := List.mem_map.1 hm
        have := h.inside k (hp.mem_iff.2 (by simp [hk1]))
        omega
      have e1 : ¬ a.idx = nodes.length := by omega
      have e2 : ¬ b.idx = nodes.length := by omega
      simp [h1, h2, e1, e2]
  · intro k hk
    simp only [List.length_append, List.length_cons, List.length_nil]
    rcases List.mem_cons.1 hk with rfl | hk
    · simp
    · have := h.inside k (hp.mem_iff.2 (by simp [hk]))
      omega
  · exact .inr (by simp)

/-! ### Leaves -/

theorem leavesOf_length_le (f : Vector Word 256) : (leavesOf f).length ≤ 256 := by
  simp only [leavesOf, List.length_map]
  exact (List.length_filter_le _ _).trans (by simp)

theorem leavesOf_isLeaf (f : Vector Word 256) : ∀ n ∈ leavesOf f, nodeIsLeaf n = true := by
  intro n hn
  simp only [leavesOf, List.mem_map] at hn
  obtain ⟨b, _, rfl⟩ := hn
  rfl

theorem leavesOf_payloads (f : Vector Word 256) :
    (leavesOf f).map nodePayload = allSymbols.filter fun b => entry f b != 0#32 := by
  simp only [leavesOf, List.map_map]
  rw [show nodePayload ∘ (fun b => Node.leaf b (entry f b)) = id from rfl, List.map_id]

theorem leavesOf_payloads_nodup (f : Vector Word 256) : ((leavesOf f).map nodePayload).Nodup := by
  rw [leavesOf_payloads]
  exact nodup_allSymbols.filter _

@[simp] theorem queueOf_length (ns : List Node) : (queueOf ns).length = ns.length := by simp [queueOf]

theorem queueOf_idx (ns : List Node) : (queueOf ns).map Key.idx = List.range ns.length := by
  refine List.ext_getElem (by simp) fun i h1 h2 => ?_
  simp [queueOf]

theorem mem_queueOf {ns : List Node} {k : Key} (h : k ∈ queueOf ns) :
    ∃ h : k.idx < ns.length, k.freq = (nodeFreq ns[k.idx]).toNat := by
  obtain ⟨i, hi, rfl⟩ := List.getElem_of_mem h
  simp only [queueOf_length] at hi
  simp [queueOf, hi]

theorem merging_start {leaves : List Node} (h0 : leaves ≠ []) (hs : leaves.length ≤ 256)
    (hl : ∀ n ∈ leaves, nodeIsLeaf n = true) : Merging leaves leaves (queueOf leaves) := by
  have hr := childRefs_of_leaves hl
  have hpos := List.length_pos_iff.2 h0
  refine ⟨hs, by simp; omega, fun h => ?_, by simp, ?_, ?_, ?_, ?_, .inl rfl⟩
  · have := congrArg List.length h
    simp at this
    exact h0 this
  · intro i hi
    simp [hi, hl _ (List.getElem_mem hi)]
  · intro i hi c hc
    have := hl _ (List.getElem_mem hi)
    cases hn : leaves[i] with
    | leaf => simp [hn, children] at hc
    | internal => simp [hn, nodeIsLeaf] at this
  · intro c hc
    rw [hr, queueOf_idx]
    simp [List.count_eq_one_of_mem List.nodup_range (List.mem_range.2 hc)]
  · intro k hk
    exact (mem_queueOf hk).1

/-- The arena of two or more leaves after the merge loop. -/
theorem mergeLoop_merging {leaves : List Node} (h2 : 2 ≤ leaves.length) (hs : leaves.length ≤ 256)
    (hl : ∀ n ∈ leaves, nodeIsLeaf n = true) :
    ∃ k, Merging leaves (mergeLoop leaves.length leaves (queueOf leaves)) [k] := by
  have hne : leaves ≠ [] := by rintro rfl; simp at h2
  obtain ⟨q, hq, hlen⟩ := mergeLoop_induct (merging_step leaves) leaves.length (merging_start hne hs hl) (by simp)
  have hlive := hq.live
  match q, hlen, hlive with
  | [k], _, _ => exact ⟨k, hq⟩

theorem treeOk_of_merging {leaves nodes : List Node} {k : Key} (h2 : 2 ≤ leaves.length)
    (hp : (leaves.map nodePayload).Nodup) (h : Merging leaves nodes [k]) : TreeOk nodes leaves.length := by
  have htotal := h.total
  have hs := h.small
  simp only [List.length_cons, List.length_nil] at htotal
  have hlast : k.idx = nodes.length - 1 := by
    rcases h.newest with hn | hn
    · omega
    · simpa using hn
  refine ⟨.inr (.inr ⟨h2, hs, by omega⟩), h.kinds, h.below, fun c hc => ?_, by rw [h.front]; exact hp⟩
  have hone := h.once c (by omega)
  have hne : ¬ k.idx = c := by omega
  simpa [List.count_cons, hne] using hone

/-- BuildFromFrequencies builds a tree (R148), whatever the frequencies. -/
theorem buildFromFrequencies_treeOk (f : Vector Word 256) :
    TreeOk (buildFromFrequencies f).1 (buildFromFrequencies f).2 := by
  have hs := leavesOf_length_le f
  have hl := leavesOf_isLeaf f
  have hp := leavesOf_payloads_nodup f
  by_cases h : (leavesOf f).length ≤ 1
  · simp only [buildFromFrequencies, h, if_true]
    have hr := childRefs_of_leaves hl
    refine ⟨by omega, ?_, ?_, fun c hc => by omega, by simpa using hp⟩
    · intro i hi
      simp [hi, hl _ (List.getElem_mem hi)]
    · intro i hi c hc
      have hm : c ∈ childRefs (leavesOf f) := List.mem_flatMap.2 ⟨_, List.getElem_mem hi, hc⟩
      simp [hr] at hm
  · simp only [buildFromFrequencies, h, if_false]
    obtain ⟨k, hk⟩ := mergeLoop_merging (by omega) hs hl
    exact treeOk_of_merging (by omega) hp hk

/-- The first nodes of the arena are the leaves. -/
theorem buildFromFrequencies_front (f : Vector Word 256) :
    (buildFromFrequencies f).1.take (buildFromFrequencies f).2 = leavesOf f := by
  by_cases h : (leavesOf f).length ≤ 1
  · simp [buildFromFrequencies, h]
  · simp only [buildFromFrequencies, h, if_false]
    obtain ⟨k, hk⟩ := mergeLoop_merging (by omega) (leavesOf_length_le f) (leavesOf_isLeaf f)
    exact hk.front

@[simp] theorem buildFromFrequencies_snd (f : Vector Word 256) :
    (buildFromFrequencies f).2 = (leavesOf f).length := by
  simp only [buildFromFrequencies]; split <;> rfl

end Sys2Proof.Machine
end

