-- ==== Sys2Proof/Laws/Paths.lean ====
section
/-! SUPPORT. Paths in a tree (spec/42_code_generator.md R171 to R174): descending, climbing, and the code table. -/

namespace Sys2Proof.Machine

/-! ### Descending -/

@[simp] theorem descend_nil (nodes : List Node) (i : Nat) : descend nodes i [] = some i := rfl

theorem descend_append (nodes : List Node) (i : Nat) (p q : Path) :
    descend nodes i (p ++ q) = (descend nodes i p).bind fun j => descend nodes j q := by
  induction p generalizing i with
  | nil => rfl
  | cons b p ih =>
    simp only [List.cons_append, descend]
    split <;> simp [ih]

/-- A descent goes through internal nodes only. -/
theorem descend_cons {nodes : List Node} {i j : Nat} {b : Bool} {p : Path} (h : descend nodes i (b :: p) = some j) :
    ∃ (hi : i < nodes.length), nodeIsLeaf nodes[i] = false ∧ descend nodes (walkChild b nodes[i]) p = some j := by
  simp only [descend] at h
  split at h
  · rename_i l r f hn
    obtain ⟨hi, hn⟩ := List.getElem?_eq_some_iff.1 hn
    refine ⟨hi, by simp [hn, nodeIsLeaf], ?_⟩
    rw [hn]
    cases b <;> simpa [walkChild, nodeLeft, nodeRight] using h
  · simp at h

theorem descend_step {nodes : List Node} {i : Nat} (hi : i < nodes.length) (hl : nodeIsLeaf nodes[i] = false) (b : Bool)
    (p : Path) : descend nodes i (b :: p) = descend nodes (walkChild b nodes[i]) p := by
  simp only [descend, List.getElem?_eq_getElem hi]
  cases hn : nodes[i] with
  | leaf => simp [hn, nodeIsLeaf] at hl
  | internal l r f => cases b <;> simp [walkChild, nodeLeft, nodeRight]

/-- A child reached by a bit is a child. -/
theorem walkChild_mem {n : Node} (h : nodeIsLeaf n = false) (b : Bool) : walkChild b n ∈ children n := by
  cases n with
  | leaf => simp [nodeIsLeaf] at h
  | internal l r f => cases b <;> simp [walkChild, nodeLeft, nodeRight, children]

/-! ### Trees -/

namespace TreeOk

variable {nodes : List Node} {l : Nat}

theorem le_length (h : TreeOk nodes l) : l ≤ nodes.length := by have := h.size; omega

theorem l_le (h : TreeOk nodes l) : l ≤ 256 := by have := h.size; omega

theorem length_le (h : TreeOk nodes l) : nodes.length ≤ 511 := by have := h.size; omega

theorem isLeaf_of_lt (h : TreeOk nodes l) {i : Nat} (hi : i < l) :
    nodeIsLeaf (nodes[i]'(Nat.lt_of_lt_of_le hi h.le_length)) = true := (h.kinds i _).2 hi

theorem notLeaf_of_le (h : TreeOk nodes l) {i : Nat} (hi : l ≤ i) (hn : i < nodes.length) : nodeIsLeaf nodes[i] = false := by
  have := h.kinds i hn
  cases hb : nodeIsLeaf nodes[i]
  · rfl
  · have := this.1 hb; omega

/-- A descent goes down: indices fall along it. -/
theorem descend_le (h : TreeOk nodes l) {i j : Nat} {p : Path} (hd : descend nodes i p = some j) : j + p.length ≤ i := by
  induction p generalizing i with
  | nil => simp at hd; simp [hd]
  | cons b p ih =>
    obtain ⟨hi, hl, hd⟩ := descend_cons hd
    have := ih hd
    have := h.below i hi _ (walkChild_mem hl b)
    simp only [List.length_cons]
    omega

/-- Nothing is below a leaf. -/
theorem descend_leaf (h : TreeOk nodes l) {i j : Nat} {p : Path} (hi : i < l) (hd : descend nodes i p = some j) : p = [] := by
  cases p with
  | nil => rfl
  | cons b p =>
    obtain ⟨hn, hl, _⟩ := descend_cons hd
    rw [h.isLeaf_of_lt hi] at hl
    simp at hl

/-- Two paths to leaves, one the beginning of the other, are equal and end at one leaf. -/
theorem descend_prefix (h : TreeOk nodes l) {r i j : Nat} {p q : Path} (hi : i < l)
    (hp : descend nodes r p = some i) (hq : descend nodes r q = some j) (hpq : p <+: q) : p = q ∧ i = j := by
  obtain ⟨t, rfl⟩ := hpq
  rw [descend_append, hp] at hq
  have := h.descend_leaf hi hq
  subst this
  simpa using hq

/-- The root of a tree with two or more leaves is internal. -/
theorem root_internal (h : TreeOk nodes l) (h2 : 2 ≤ nodes.length) : l ≤ nodes.length - 1 := by
  have := h.size; omega

end TreeOk

/-! ### Climbing -/

theorem hasChild_iff {c : Nat} {n : Node} : hasChild c n = true ↔ c ∈ children n := by
  cases n with
  | leaf => simp [hasChild, children]
  | internal l r f =>
    simp only [hasChild, children, Bool.or_eq_true, beq_iff_eq, List.mem_cons, List.not_mem_nil, or_false]
    omega

theorem count_childRefs_pos {nodes : List Node} {c : Nat} (h : (childRefs nodes).count c = 1) :
    ∃ p, nodes.zipIdx.filter (fun p => hasChild c p.1) = [p] := by
  suffices H : ∀ (nodes : List Node) (k : Nat),
      ((childRefs nodes).count c = 0 → (nodes.zipIdx k).filter (fun p => hasChild c p.1) = []) ∧
      ((childRefs nodes).count c = 1 → ∃ p, (nodes.zipIdx k).filter (fun p => hasChild c p.1) = [p]) from
    (H nodes 0).2 h
  intro nodes
  induction nodes with
  | nil => intro k; simp
  | cons n ns ih =>
    intro k
    have hc : (childRefs (n :: ns)).count c = (children n).count c + (childRefs ns).count c := by
      simp [childRefs]
    obtain ⟨h0, h1⟩ := ih (k + 1)
    simp only [hc, List.zipIdx_cons]
    constructor
    · intro h
      have hn : hasChild c n = false := by
        by_contra hx
        have hx : hasChild c n = true := by simpa using hx
        have := List.count_pos_iff.2 (hasChild_iff.1 hx)
        omega
      simp only [List.filter_cons, hn, Bool.false_eq_true, if_false]
      exact h0 (by omega)
    · intro h
      by_cases hx : hasChild c n = true
      · have := List.count_pos_iff.2 (hasChild_iff.1 hx)
        simp only [List.filter_cons, hx, if_true, h0 (by omega)]
        exact ⟨_, rfl⟩
      · simp only [List.filter_cons, hx]
        refine h1 ?_
        have : (children n).count c = 0 := List.count_eq_zero.2 fun hm => hx (hasChild_iff.2 hm)
        omega

/-- In a tree every node but the root has a parent above it, and the edge taken up is the edge down. -/
theorem parentOf_tree {nodes : List Node} {l c : Nat} (h : TreeOk nodes l) (hc : c < nodes.length - 1) :
    ∃ q, ∃ hq : q < nodes.length, parentOf nodes c = some (q, nodes[q]) ∧ c < q ∧ l ≤ q ∧
      walkChild (!((nodeLeft nodes[q]).toNat == c)) nodes[q] = c := by
  obtain ⟨p, hp⟩ := count_childRefs_pos (h.parents c hc)
  obtain ⟨n, q⟩ := p
  have hm : (n, q) ∈ nodes.zipIdx.filter (fun p => hasChild c p.1) := by rw [hp]; simp
  obtain ⟨hz, hchild⟩ := List.mem_filter.1 hm
  obtain ⟨hq, hn⟩ := List.mem_zipIdx' hz
  have hn : nodes[q] = n := hn.symm
  simp only at hchild
  have hcm := hasChild_iff.1 hchild
  refine ⟨q, hq, by simp [parentOf, hp, hn], h.below q hq c (hn ▸ hcm), ?_, ?_⟩
  · by_contra hlt
    have := h.isLeaf_of_lt (i := q) (by omega)
    rw [hn] at this
    cases n with
    | leaf => simp [children] at hcm
    | internal => simp [nodeIsLeaf] at this
  · rw [hn]
    cases n with
    | leaf => simp [children] at hcm
    | internal lc rc f =>
      simp only [children, List.mem_cons, List.not_mem_nil, or_false] at hcm
      by_cases hlc : lc.toNat = c
      · simp [walkChild, nodeLeft, hlc]
      · have hrc : rc.toNat = c := by omega
        simp [walkChild, nodeLeft, nodeRight, hlc, hrc]

/-- The climb from any node of a tree reaches the root, and gives the path down; from an internal node it is no longer than
the number of nodes above. -/
theorem climb_tree {nodes : List Node} {l : Nat} (h : TreeOk nodes l) (fuel : Nat) {c : Nat} (p : Path)
    (hc : c < nodes.length) (hf : nodes.length - 1 - c ≤ fuel) :
    ∃ p', climb nodes fuel c p = some (p' ++ p) ∧ descend nodes (nodes.length - 1) p' = some c ∧
      (l ≤ c → p'.length ≤ nodes.length - 1 - c) := by
  induction fuel generalizing c p with
  | zero =>
    have : c = nodes.length - 1 := by omega
    exact ⟨[], by simp [climb, this], by simp [this], by simp⟩
  | succ n ih =>
    rw [climb]
    by_cases hr : c = nodes.length - 1
    · exact ⟨[], by simp [hr], by simp [hr], by simp⟩
    · obtain ⟨q, hq, hpar, hcq, hlq, hw⟩ := parentOf_tree h (by omega : c < nodes.length - 1)
      simp only [if_neg hr, hpar]
      obtain ⟨p', h1, h2, h3⟩ := ih ((!((nodeLeft nodes[q]).toNat == c)) :: p) hq (by omega)
      refine ⟨p' ++ [!((nodeLeft nodes[q]).toNat == c)], by simp [h1], ?_, fun hl => ?_⟩
      · rw [descend_append, h2, Option.bind_some, descend_step hq (h.notLeaf_of_le hlq hq), hw, descend_nil]
      · have := h3 hlq
        simp only [List.length_append, List.length_cons, List.length_nil]
        omega

/-- The code path of a leaf leads from the root to it, in 1 to `l - 1` bits. -/
theorem pathOf_tree {nodes : List Node} {l i : Nat} (h : TreeOk nodes l) (h2 : 2 ≤ nodes.length) (hi : i < l) :
    descend nodes (nodes.length - 1) (pathOf nodes i) = some i ∧ 1 ≤ (pathOf nodes i).length ∧
      (pathOf nodes i).length ≤ l - 1 := by
  have hl := h.le_length
  have hroot := h.root_internal h2
  obtain ⟨p', h1, hd, _⟩ := climb_tree h nodes.length [] (by omega : i < nodes.length) (by omega)
  have hp : pathOf nodes i = p' := by simp [pathOf, h1]
  rw [hp]
  refine ⟨hd, ?_, ?_⟩
  · cases p' with
    | nil => simp at hd; omega
    | cons => simp
  · -- the last edge comes from an internal node
    rcases List.eq_nil_or_concat p' with rfl | ⟨p'', b, rfl⟩
    · simp
    · rw [List.concat_eq_append, descend_append] at hd
      cases hq : descend nodes (nodes.length - 1) p'' with
      | none => simp [hq] at hd
      | some q =>
        rw [hq, Option.bind_some] at hd
        obtain ⟨hqn, hql, _⟩ := descend_cons hd
        have hlq : l ≤ q := by
          by_contra hlt
          rw [h.isLeaf_of_lt (by omega)] at hql
          simp at hql
        have := h.descend_le hq
        have := h.size
        simp only [List.concat_eq_append, List.length_append, List.length_cons, List.length_nil]
        omega

/-! ### The code table -/

theorem lookup_of_mem {α β : Type} [BEq α] [LawfulBEq α] {ps : List (α × β)} (hn : (ps.map Prod.fst).Nodup) {a : α} {b : β}
    (h : (a, b) ∈ ps) : ps.lookup a = some b := by
  induction ps with
  | nil => simp at h
  | cons p ps ih =>
    obtain ⟨k, v⟩ := p
    simp only [List.map_cons, List.nodup_cons] at hn
    rw [List.lookup_cons]
    by_cases hk : a = k
    · subst hk
      rcases List.mem_cons.1 h with h | h
      · simp only [Prod.mk.injEq] at h; simp [h.2]
      · exact absurd (List.mem_map_of_mem (f := Prod.fst) h) hn.1
    · rcases List.mem_cons.1 h with h | h
      · simp only [Prod.mk.injEq] at h; exact absurd h.1 hk
      · simp [beq_eq_false_iff_ne.2 hk, ih hn.2 h]

theorem lookup_of_not_mem {α β : Type} [BEq α] [LawfulBEq α] {ps : List (α × β)} {a : α}
    (h : ∀ p ∈ ps, p.1 ≠ a) : ps.lookup a = none := by
  rw [List.lookup_eq_none_iff]
  intro p hp
  exact bne_iff_ne.2 fun he => h p hp he.symm

/-- The assignments of a tree: one for each leaf, its symbol and its code. -/
theorem codeAssignments_tree {nodes : List Node} {l : Nat} (h : TreeOk nodes l) :
    codeAssignments nodes l = (List.range l).map fun i =>
      (nodePayload (nodes.getD i (Config.strayNode i)), if nodes.length = 1 then [false] else pathOf nodes i) := by
  have hs := h.size
  by_cases h1 : nodes.length = 1
  · have hl : l = 1 := by omega
    subst hl
    obtain ⟨n, rfl⟩ := List.length_eq_one_iff.1 h1
    simp [codeAssignments]
  · by_cases h2 : 2 ≤ nodes.length
    · simp [codeAssignments, h1, h2]
    · have : l = 0 := by omega
      simp [codeAssignments, h1, h2, this]

theorem codeTable_keys_nodup {nodes : List Node} {l : Nat} (h : TreeOk nodes l) :
    ((codeAssignments nodes l).map Prod.fst).Nodup := by
  rw [codeAssignments_tree h, List.map_map]
  have : (List.range l).map (Prod.fst ∘ fun i => (nodePayload (nodes.getD i (Config.strayNode i)),
      if nodes.length = 1 then [false] else pathOf nodes i)) = (nodes.take l).map nodePayload := by
    refine List.ext_getElem (by simp [h.le_length]) fun i h1 h2 => ?_
    have hi : i < nodes.length := by simp at h2; omega
    simp [hi]
  rw [this]
  exact h.payloads

/-- The code of a leaf's symbol. -/
theorem codeTable_leaf {nodes : List Node} {l i : Nat} (h : TreeOk nodes l) (hi : i < l) :
    entry (codeTable nodes l) (nodePayload (nodes[i]'(Nat.lt_of_lt_of_le hi h.le_length))) =
      if nodes.length = 1 then [false] else pathOf nodes i := by
  have hn : i < nodes.length := Nat.lt_of_lt_of_le hi h.le_length
  simp only [codeTable, entry_tableOf]
  rw [lookup_of_mem (b := if nodes.length = 1 then [false] else pathOf nodes i)]
  · rfl
  · rw [List.map_reverse]
    exact List.pairwise_reverse.2 ((codeTable_keys_nodup h).imp Ne.symm)
  · rw [List.mem_reverse, codeAssignments_tree h, List.mem_map]
    exact ⟨i, List.mem_range.2 hi, by simp [hn]⟩

/-- A symbol of no leaf has no code. -/
theorem codeTable_absent {nodes : List Node} {l : Nat} (h : TreeOk nodes l) {b : Byte}
    (hb : ∀ i, (hi : i < l) → nodePayload (nodes[i]'(Nat.lt_of_lt_of_le hi h.le_length)) ≠ b) :
    entry (codeTable nodes l) b = [] := by
  simp only [codeTable, entry_tableOf]
  rw [lookup_of_not_mem]
  · rfl
  · intro p hp
    rw [List.mem_reverse, codeAssignments_tree h, List.mem_map] at hp
    obtain ⟨i, hi, rfl⟩ := hp
    have hi := List.mem_range.1 hi
    have hn : i < nodes.length := Nat.lt_of_lt_of_le hi h.le_length
    simpa [hn] using hb i hi

/-- A symbol with a code is a leaf's. -/
theorem leaf_of_code {nodes : List Node} {l : Nat} (h : TreeOk nodes l) {b : Byte} (hb : entry (codeTable nodes l) b ≠ []) :
    ∃ i, ∃ hi : i < l, nodePayload (nodes[i]'(Nat.lt_of_lt_of_le hi h.le_length)) = b := by
  by_contra hc
  exact hb (codeTable_absent h fun i hi he => hc ⟨i, hi, he⟩)

end Sys2Proof.Machine
end

