-- ==== Sys2Proof/Laws/Envelope.lean ====
section
/-! SUPPORT. The envelope (spec/30_encoding.md R100 to R104): little-endian fields, node records, packed bits. -/

namespace Sys2Proof.Machine

/-! ### Little-endian fields -/

@[simp] theorem le32_length (v : Word) : (le32 v).length = 4 := rfl
@[simp] theorem le16_length (v : Half) : (le16 v).length = 2 := rfl

theorem rdLE32_of_le32 {buf : Nat → Byte} {o : Nat} {v : Word} (h : ∀ j, j < 4 → buf (o + j) = (le32 v).getD j 0) :
    rdLE32 buf o = v.toNat := by
  have h0 := h 0 (by omega)
  have h1 := h 1 (by omega)
  have h2 := h 2 (by omega)
  have h3 := h 3 (by omega)
  simp only [Nat.add_zero] at h0
  have := v.isLt
  simp only [rdLE32, h0, h1, h2, h3, le32, List.getD_cons_zero, List.getD_cons_succ, BitVec.extractLsb'_toNat,
    Nat.shiftRight_eq_div_pow]
  omega

theorem rdLE16_of_le16 {buf : Nat → Byte} {o : Nat} {v : Half} (h0 : buf o = (le16 v).getD 0 0)
    (h1 : buf (o + 1) = (le16 v).getD 1 0) : rdLE16 buf o = v.toNat := by
  have := v.isLt
  simp only [rdLE16, h0, h1, le16, List.getD_cons_zero, List.getD_cons_succ, BitVec.extractLsb'_toNat,
    Nat.shiftRight_eq_div_pow]
  omega

theorem rdLE16_lt (buf : Nat → Byte) (o : Nat) : rdLE16 buf o < 2 ^ 16 := by
  have h0 := (buf o).isLt
  have h1 := (buf (o + 1)).isLt
  simp only [rdLE16]
  omega

theorem rdLE32_lt (buf : Nat → Byte) (o : Nat) : rdLE32 buf o < 2 ^ 32 := by
  have h0 := (buf o).isLt
  have h1 := (buf (o + 1)).isLt
  have h2 := (buf (o + 2)).isLt
  have h3 := (buf (o + 3)).isLt
  simp only [rdLE32]
  omega

/-- A window word read back from its four bytes (spec/20_memory.md R63). -/
theorem wordOfBytes_le32 (v : Word) :
    wordOfBytes (v.extractLsb' 0 8) (v.extractLsb' 8 8) (v.extractLsb' 16 8) (v.extractLsb' 24 8) = v := by
  apply BitVec.eq_of_toNat_eq
  have := v.isLt
  simp only [wordOfBytes, BitVec.toNat_append, BitVec.extractLsb'_toNat, Nat.shiftRight_eq_div_pow, Nat.shiftLeft_eq]
  rw [← Nat.shiftLeft_eq, ← Nat.shiftLeft_eq, ← Nat.shiftLeft_eq]
  rw [← Nat.shiftLeft_add_eq_or_of_lt (by omega), ← Nat.shiftLeft_add_eq_or_of_lt (by omega),
    ← Nat.shiftLeft_add_eq_or_of_lt (by omega)]
  simp only [Nat.shiftLeft_eq]
  omega

/-! ### Packed bits (spec/43_encoder.md R181) -/

@[simp] theorem pack_length (b : List Bool) : (pack b).length = ceil8 b.length := by simp [pack]

theorem packByte_getLsbD (b : List Bool) (m j : Nat) (hj : j < 8) :
    (packByte b m).getLsbD j = b.getD (8 * m + j) false := by
  have hr : List.range 8 = [0, 1, 2, 3, 4, 5, 6, 7] := by decide
  have hb : ∀ (c : Bool) (k i : Nat), (if c then (1#8 <<< k) else 0#8).getLsbD i = (c && decide (i < 8) && decide (i = k)) := by
    intro c k i
    cases c
    · simp
    · simp only [if_true, BitVec.getLsbD_shiftLeft, BitVec.getLsbD_one, Bool.true_and]
      by_cases h8 : i < 8 <;> by_cases hk : i = k <;> (simp [h8, hk]; try omega)
  simp only [packByte, hr, List.foldl_cons, List.foldl_nil, BitVec.getLsbD_or, hb]
  interval_cases j <;> simp

theorem pack_getElem? {b : List Bool} {m : Nat} (h : m < ceil8 b.length) : (pack b)[m]? = some (packByte b m) := by
  simp [pack, h]

/-- Bit `k` of a packed sequence. -/
theorem pack_bit {b : List Bool} {k : Nat} (hk : k < b.length) :
    ((pack b).getD (k / 8) 0).getLsbD (k % 8) = b[k] := by
  have hm : k / 8 < ceil8 b.length := by simp only [ceil8]; omega
  rw [List.getD_eq_getElem?_getD, pack_getElem? hm, Option.getD_some, packByte_getLsbD _ _ _ (by omega),
    show 8 * (k / 8) + k % 8 = k by omega]
  simp [hk]

/-! ### Node records (spec/30_encoding.md R101) -/

@[simp] theorem serializeNode_length (l i : Nat) (n : Node) :
    (serializeNode l i n).length = if i < l then 1 else 4 := by
  simp only [serializeNode]; split <;> rfl

theorem serialize_concat (nodes : List Node) (n : Node) (l : Nat) :
    serialize (nodes ++ [n]) l = serialize nodes l ++ serializeNode l nodes.length n := by
  simp [serialize, List.mapIdx_append]

theorem serialize_length (nodes : List Node) (l : Nat) :
    (serialize nodes l).length = min nodes.length l + 4 * (nodes.length - l) := by
  induction nodes using List.reverseRecOn with
  | nil => simp [serialize]
  | append_singleton ns n ih =>
    rw [serialize_concat, List.length_append, ih, serializeNode_length, List.length_append]
    simp only [List.length_cons, List.length_nil]
    split <;> omega

theorem serialize_split {nodes : List Node} (l : Nat) {i : Nat} (hi : i < nodes.length) :
    ∃ rest, serialize nodes l = serialize (nodes.take i) l ++ (serializeNode l i nodes[i] ++ rest) := by
  induction nodes using List.reverseRecOn with
  | nil => simp at hi
  | append_singleton ns n ih =>
    rw [serialize_concat]
    by_cases h : i < ns.length
    · obtain ⟨rest, hr⟩ := ih h
      refine ⟨rest ++ serializeNode l ns.length n, ?_⟩
      rw [List.getElem_append_left h, List.take_append_of_le_length (by omega), hr]
      simp
    · have : i = ns.length := by simp at hi; omega
      subst this
      exact ⟨[], by simp⟩

/-- Byte `j` of the record of node `i`, in the tree region. -/
theorem serialize_record {nodes : List Node} (l : Nat) {i j : Nat} (hi : i < nodes.length)
    (hj : j < (serializeNode l i nodes[i]).length) :
    (serialize nodes l).getD (min i l + 4 * (i - l) + j) 0 = (serializeNode l i nodes[i]).getD j 0 := by
  obtain ⟨rest, hr⟩ := serialize_split l hi
  have hlen : (serialize (nodes.take i) l).length = min i l + 4 * (i - l) := by
    rw [serialize_length, List.length_take, Nat.min_eq_left (Nat.le_of_lt hi)]
  rw [hr, List.getD_append_right _ _ _ _ (by omega), hlen, Nat.add_sub_cancel_left, List.getD_append _ _ _ _ hj]

/-! ### Reconstruct (spec/41_tree_builder.md R147) -/

/-- Where the record of node `i` starts (R101). -/
def recordOff (l i : Nat) : Nat := 12 + min i l + 4 * (i - l)

theorem recordAt_leaf {buf : Nat → Byte} {l i : Nat} (h : i < l) : recordAt buf l i = .leaf (buf (recordOff l i)) 0 := by
  have : recordOff l i = 12 + i := by simp only [recordOff]; omega
  simp [recordAt, h, this]

theorem recordAt_internal {buf : Nat → Byte} {l i : Nat} (h : l ≤ i) :
    recordAt buf l i = .internal (BitVec.ofNat 16 (rdLE16 buf (recordOff l i)))
      (BitVec.ofNat 16 (rdLE16 buf (recordOff l i + 2))) 0 := by
  have : recordOff l i = 12 + l + 4 * (i - l) := by simp only [recordOff]; omega
  simp [recordAt, Nat.not_lt.2 h, this]

theorem children_recordAt {buf : Nat → Byte} {l i : Nat} (h : l ≤ i) :
    children (recordAt buf l i) = [rdLE16 buf (recordOff l i), rdLE16 buf (recordOff l i + 2)] := by
  simp only [recordAt_internal h, children, BitVec.toNat_ofNat, Nat.mod_eq_of_lt (rdLE16_lt _ _)]

theorem recordsOf_succ (buf : Nat → Byte) (i l : Nat) : recordsOf buf (i + 1) l = recordsOf buf i l ++ [recordAt buf l i] := by
  simp [recordsOf, List.range_succ]

@[simp] theorem recordsOf_length (buf : Nat → Byte) (i l : Nat) : (recordsOf buf i l).length = i := by simp [recordsOf]

@[simp] theorem recordsOf_getElem (buf : Nat → Byte) (n l i : Nat) (h : i < (recordsOf buf n l).length) :
    (recordsOf buf n l)[i] = recordAt buf l i := by simp [recordsOf]

theorem recordsOf_take {buf : Nat → Byte} {n i l : Nat} (h : i ≤ n) : (recordsOf buf n l).take i = recordsOf buf i l := by
  simp [recordsOf, ← List.map_take, List.take_range, Nat.min_eq_left h]

/-- What Reconstruct has after `i` records that passed. -/
structure ReconOk (buf : Nat → Byte) (l i : Nat) (r : Recon) : Prop where
  off : r.off = recordOff l i
  nodes : r.nodes = recordsOf buf i l
  seen : r.seen.Perm ((r.nodes.take l).map nodePayload)
  seenNodup : r.seen.Nodup
  refd : r.refd.Perm (childRefs r.nodes)
  refdNodup : r.refd.Nodup
  below : ∀ j, (h : j < r.nodes.length) → ∀ c ∈ children r.nodes[j], c < j

theorem checkChild_ok_iff {size i side c : Nat} {refd q : List Nat} (hi : i < size) :
    checkChild size i side c refd = .ok q ↔ c < i ∧ c ∉ refd ∧ q = c :: refd := by
  simp only [checkChild]
  by_cases h1 : size ≤ c
  · simp only [if_pos h1, reduceCtorEq, false_iff]
    omega
  · by_cases h2 : i ≤ c ∨ c ∈ refd
    · simp only [if_neg h1, if_pos h2, reduceCtorEq, false_iff]
      rintro ⟨h3, h4, _⟩
      rcases h2 with h2 | h2
      · omega
      · exact h4 h2
    · simp only [if_neg h1, if_neg h2, Except.ok.injEq]
      rw [not_or] at h2
      constructor
      · rintro rfl; exact ⟨by omega, h2.2, rfl⟩
      · rintro ⟨_, _, rfl⟩; rfl

/-- When the record of node `i` passes, and what is then recorded. -/
theorem reconNode_ok_iff {buf : Nat → Byte} {size l i : Nat} {r r' : Recon} (hi : i < size) :
    reconNode buf size l i r = .ok r' ↔
      (i < l ∧ buf r.off ∉ r.seen ∧
        r' = { r with off := r.off + 1, seen := buf r.off :: r.seen, nodes := r.nodes ++ [.leaf (buf r.off) 0#32] }) ∨
      (l ≤ i ∧ rdLE16 buf r.off < i ∧ rdLE16 buf r.off ∉ r.refd ∧ rdLE16 buf (r.off + 2) < i ∧
        rdLE16 buf (r.off + 2) ∉ rdLE16 buf r.off :: r.refd ∧
        r' = { r with
          off := r.off + 4
          refd := rdLE16 buf (r.off + 2) :: rdLE16 buf r.off :: r.refd
          nodes := r.nodes ++
            [.internal (BitVec.ofNat 16 (rdLE16 buf r.off)) (BitVec.ofNat 16 (rdLE16 buf (r.off + 2))) 0#32] }) := by
  by_cases hl : i < l
  · rw [reconNode, if_pos hl]
    simp only [hl, true_and, Nat.not_le.2 hl, false_and, or_false]
    by_cases hs : buf r.off ∈ r.seen
    · simp [hs]
    · rw [if_neg hs, Except.ok.injEq]
      simp only [hs, not_false_eq_true, true_and]
      exact eq_comm
  · have hle : l ≤ i := by omega
    rw [reconNode, if_neg hl]
    simp only [hl, false_and, false_or, hle, true_and]
    constructor
    · intro h
      cases h1 : checkChild size i 0 (rdLE16 buf r.off) r.refd with
      | error e => simp [h1, Bind.bind, Except.bind] at h
      | ok q1 =>
        cases h2 : checkChild size i 1 (rdLE16 buf (r.off + 2)) q1 with
        | error e => simp [h1, h2, Bind.bind, Except.bind] at h
        | ok q2 =>
          obtain ⟨a1, a2, rfl⟩ := (checkChild_ok_iff hi).1 h1
          obtain ⟨b1, b2, rfl⟩ := (checkChild_ok_iff hi).1 h2
          simp only [h1, h2, Bind.bind, Except.bind, Except.ok.injEq] at h
          exact ⟨a1, a2, b1, b2, h.symm⟩
    · rintro ⟨a1, a2, b1, b2, rfl⟩
      have h1 := (checkChild_ok_iff (side := 0) hi).2 ⟨a1, a2, rfl⟩
      have h2 := (checkChild_ok_iff (side := 1) hi).2 ⟨b1, b2, rfl⟩
      simp [h1, h2, Bind.bind, Except.bind]

theorem reconOk_zero (buf : Nat → Byte) (l : Nat) : ReconOk buf l 0 ⟨12, [], [], []⟩ := by
  refine ⟨by simp [recordOff], by simp [recordsOf], by simp, by simp, by simp, by simp, by simp⟩

/-- A record that passes extends what holds. -/
theorem reconOk_step {buf : Nat → Byte} {size l i : Nat} {r r' : Recon} (hi : i < size) (h : ReconOk buf l i r)
    (hr : reconNode buf size l i r = .ok r') : ReconOk buf l (i + 1) r' := by
  have hlen : r.nodes.length = i := by rw [h.nodes]; simp
  rcases (reconNode_ok_iff hi).1 hr with ⟨hl, hs, rfl⟩ | ⟨hl, h1, h2, h3, h4, rfl⟩
  · have hnew : recordsOf buf (i + 1) l = r.nodes ++ [.leaf (buf r.off) 0#32] := by
      rw [recordsOf_succ, ← h.nodes, recordAt_leaf hl, h.off]; rfl
    refine ⟨?_, hnew.symm, ?_, ?_, ?_, h.refdNodup, ?_⟩
    · show r.off + 1 = _
      rw [h.off]; simp only [recordOff]; omega
    · show (buf r.off :: r.seen).Perm (((r.nodes ++ [Node.leaf (buf r.off) 0#32]).take l).map nodePayload)
      rw [List.take_of_length_le (by simp; omega)]
      have hp := h.seen
      rw [List.take_of_length_le (by omega)] at hp
      simp only [List.map_append, List.map_cons, List.map_nil, nodePayload]
      exact (hp.cons _).trans (List.perm_append_comm (l₁ := [buf r.off]))
    · exact List.nodup_cons.2 ⟨hs, h.seenNodup⟩
    · show r.refd.Perm (childRefs (r.nodes ++ [Node.leaf (buf r.off) 0#32]))
      simpa [children] using h.refd
    · intro j hj c hc
      by_cases hjl : j < r.nodes.length
      · simp only [List.getElem_append_left hjl] at hc; exact h.below j hjl c hc
      · have : j = r.nodes.length := by simp at hj; omega
        subst this
        simp [children] at hc
  · have hrec := children_recordAt (buf := buf) hl
    have hnew : recordsOf buf (i + 1) l = r.nodes ++
        [.internal (BitVec.ofNat 16 (rdLE16 buf r.off)) (BitVec.ofNat 16 (rdLE16 buf (r.off + 2))) 0#32] := by
      rw [recordsOf_succ, ← h.nodes, recordAt_internal hl, h.off]; rfl
    have hch : children (Node.internal (BitVec.ofNat 16 (rdLE16 buf r.off)) (BitVec.ofNat 16 (rdLE16 buf (r.off + 2))) 0#32) =
        [rdLE16 buf r.off, rdLE16 buf (r.off + 2)] := by
      simp only [children, BitVec.toNat_ofNat, Nat.mod_eq_of_lt (rdLE16_lt _ _)]
    refine ⟨?_, hnew.symm, ?_, h.seenNodup, ?_, ?_, ?_⟩
    · show r.off + 4 = _
      rw [h.off]; simp only [recordOff]; omega
    · show r.seen.Perm (((r.nodes ++ [_]).take l).map nodePayload)
      rw [List.take_append_of_le_length (by omega)]
      exact h.seen
    · show (_ :: _ :: r.refd).Perm (childRefs (r.nodes ++ [_]))
      rw [childRefs_append, childRefs_singleton, hch]
      refine ((List.Perm.swap _ _ _).trans ((h.refd.cons _).cons _)).trans ?_
      exact List.perm_append_comm (l₁ := [rdLE16 buf r.off, rdLE16 buf (r.off + 2)])
    · exact List.nodup_cons.2 ⟨h4, List.nodup_cons.2 ⟨h2, h.refdNodup⟩⟩
    · intro j hj c hc
      by_cases hjl : j < r.nodes.length
      · simp only [List.getElem_append_left hjl] at hc; exact h.below j hjl c hc
      · have : j = r.nodes.length := by simp at hj; omega
        subst this
        simp only [List.getElem_concat_length, hch, List.mem_cons, List.not_mem_nil, or_false] at hc
        omega

/-- The loop, split after its first `i` records. -/
theorem reconLoop_add {buf : Nat → Byte} {size l : Nat} (m n i : Nat) (r : Recon) :
    reconLoop buf size l (m + n) i r =
      (match reconLoop buf size l m i r with
        | .error e => .error e
        | .ok r' => reconLoop buf size l n (i + m) r') := by
  induction m generalizing i r with
  | zero => simp [reconLoop]
  | succ m ih =>
    rw [show m + 1 + n = (m + n) + 1 by omega, reconLoop, reconLoop]
    cases reconNode buf size l i r with
    | error e => rfl
    | ok r' => simp only [ih]; rw [show i + 1 + m = i + (m + 1) by omega]

theorem reconLoop_reconOk {buf : Nat → Byte} {size l : Nat} {n i : Nat} {r r' : Recon} (hn : i + n ≤ size)
    (h : ReconOk buf l i r) (hr : reconLoop buf size l n i r = .ok r') : ReconOk buf l (i + n) r' := by
  induction n generalizing i r with
  | zero => simp only [reconLoop, Except.ok.injEq] at hr; exact hr ▸ h
  | succ n ih =>
    rw [reconLoop] at hr
    cases h1 : reconNode buf size l i r with
    | error e => simp [h1] at hr
    | ok r1 =>
      rw [h1] at hr
      have := ih (by omega) (reconOk_step (by omega) h h1) hr
      rwa [show i + 1 + n = i + (n + 1) by omega] at this

theorem reconstruct_ok {buf : Nat → Byte} {size l : Nat} {ns : List Node} (h : reconstruct buf size l = .ok ns) :
    ∃ r, reconLoop buf size l size 0 ⟨12, [], [], []⟩ = .ok r ∧ r.nodes = ns ∧ ReconOk buf l size r := by
  simp only [reconstruct] at h
  cases hr : reconLoop buf size l size 0 ⟨12, [], [], []⟩ with
  | error e => simp [hr] at h
  | ok r =>
    rw [hr] at h
    injection h with h
    exact ⟨r, rfl, h, by simpa using reconLoop_reconOk (by omega) (reconOk_zero buf l) hr⟩

/-- What Reconstruct returns is the records. -/
theorem reconstruct_eq_records {buf : Nat → Byte} {size l : Nat} {ns : List Node} (h : reconstruct buf size l = .ok ns) :
    ns = recordsOf buf size l := by
  obtain ⟨r, _, rfl, hr⟩ := reconstruct_ok h
  exact hr.nodes

theorem headerOk_iff {size l : Nat} :
    headerOk size l = true ↔ (l = 0 ∧ size = 0) ∨ (l = 1 ∧ size = 1) ∨ (2 ≤ l ∧ l ≤ 256 ∧ size = 2 * l - 1) := by
  simp [headerOk, and_assoc, or_assoc]

theorem length_childRefs_recordsOf (buf : Nat → Byte) (n l : Nat) : (childRefs (recordsOf buf n l)).length = 2 * (n - l) := by
  induction n with
  | zero => simp [recordsOf]
  | succ n ih =>
    rw [recordsOf_succ, childRefs_append, childRefs_singleton, List.length_append, ih]
    by_cases h : n < l
    · rw [recordAt_leaf h]; simp [children]; omega
    · rw [children_recordAt (by omega)]; simp; omega

theorem isLeaf_recordAt (buf : Nat → Byte) (l i : Nat) : nodeIsLeaf (recordAt buf l i) = true ↔ i < l := by
  by_cases h : i < l
  · simp [recordAt_leaf h, nodeIsLeaf, h]
  · simp [recordAt_internal (Nat.not_lt.1 h), nodeIsLeaf, h]

/-- As many distinct numbers below `n` as `n`: each occurs once. -/
theorem count_eq_one_of_nodup_length {xs : List Nat} {n : Nat} (hn : xs.Nodup) (hl : xs.length = n) (hb : ∀ x ∈ xs, x < n)
    {c : Nat} (hc : c < n) : xs.count c = 1 := by
  refine List.count_eq_one_of_mem hn ?_
  have hsub : xs ⊆ List.range n := fun x hx => List.mem_range.2 (hb x hx)
  have hperm := (List.subperm_of_subset hn hsub).perm_of_length_le (by simp [hl])
  exact hperm.mem_iff.2 (List.mem_range.2 hc)

/-- After a good header, what Reconstruct accepts is a tree. -/
theorem treeOk_of_reconOk {buf : Nat → Byte} {size l : Nat} {r : Recon} (hh : headerOk size l = true)
    (h : ReconOk buf l size r) : TreeOk r.nodes l := by
  rw [headerOk_iff] at hh
  have hlen : r.nodes.length = size := by rw [h.nodes]; simp
  refine ⟨by omega, ?_, h.below, fun c hc => ?_, h.seen.nodup_iff.1 h.seenNodup⟩
  · intro i hi
    simp only [h.nodes, recordsOf_getElem, isLeaf_recordAt]
  · have hrl : (childRefs r.nodes).length = 2 * (size - l) := by rw [h.nodes]; exact length_childRefs_recordsOf buf size l
    refine count_eq_one_of_nodup_length (n := size - 1) (h.refd.nodup_iff.1 h.refdNodup) (by omega) (fun x hx => ?_)
      (by omega)
    obtain ⟨m, hm, hx⟩ := List.mem_flatMap.1 hx
    obtain ⟨j, hj, rfl⟩ := List.getElem_of_mem hm
    have := h.below j hj x hx
    omega

/-- Every child reference of the first nodes of an arena is one of the whole. -/
theorem childRefs_take_sublist (nodes : List Node) (i : Nat) : (childRefs (nodes.take i)).Sublist (childRefs nodes) := by
  conv_rhs => rw [← List.take_append_drop i nodes, childRefs_append]
  exact List.sublist_append_left _ _

/-- In a tree no node is referenced twice. -/
theorem TreeOk.refs_nodup {nodes : List Node} {l : Nat} (h : TreeOk nodes l) : (childRefs nodes).Nodup := by
  rw [List.nodup_iff_count_le_one]
  intro c
  by_cases hc : c < nodes.length - 1
  · rw [h.parents c hc]
  · rw [List.count_eq_zero.2]
    · omega
    · intro hm
      obtain ⟨m, hm, hx⟩ := List.mem_flatMap.1 hm
      obtain ⟨j, hj, rfl⟩ := List.getElem_of_mem hm
      have := h.below j hj c hx
      omega

/-- Records that form a tree pass, one after another. -/
theorem reconLoop_of_treeOk {buf : Nat → Byte} {size l : Nat} (h : TreeOk (recordsOf buf size l) l) (n : Nat) (hn : n ≤ size) :
    ∃ r, reconLoop buf size l n 0 ⟨12, [], [], []⟩ = .ok r ∧ ReconOk buf l n r := by
  induction n with
  | zero => exact ⟨_, rfl, reconOk_zero buf l⟩
  | succ n ih =>
    obtain ⟨r, hr, hok⟩ := ih (by omega)
    have hlen : (recordsOf buf size l).length = size := recordsOf_length ..
    have hpass : ∃ r', reconNode buf size l n r = .ok r' := by
      by_cases hl : n < l
      · refine ⟨_, (reconNode_ok_iff (by omega)).2 (.inl ⟨hl, fun hm => ?_, rfl⟩)⟩
        have hm := hok.seen.mem_iff.1 hm
        rw [hok.nodes, List.take_of_length_le (by simp; omega), hok.off] at hm
        have hnd := h.payloads
        have htake : (recordsOf buf size l).take l = recordsOf buf l l := recordsOf_take (by have := h.le_length; omega)
        rw [htake] at hnd
        have hsub : ((recordsOf buf (n + 1) l).map nodePayload).Sublist ((recordsOf buf l l).map nodePayload) := by
          rw [← recordsOf_take (show n + 1 ≤ l from hl)]
          exact (List.take_sublist _ _).map _
        have hnd := hnd.sublist hsub
        rw [recordsOf_succ, List.map_append, recordAt_leaf hl, List.nodup_append] at hnd
        exact hnd.2.2 _ hm _ (by simp [nodePayload]) rfl
      · have hle : l ≤ n := Nat.not_lt.1 hl
        have hnd : (childRefs (recordsOf buf (n + 1) l)).Nodup := by
          rw [← recordsOf_take (show n + 1 ≤ size from hn)]
          exact h.refs_nodup.sublist (childRefs_take_sublist _ _)
        rw [recordsOf_succ, childRefs_append, childRefs_singleton, children_recordAt hle, ← hok.off] at hnd
        have hbelow := h.below n (by omega)
        rw [recordsOf_getElem, children_recordAt hle, ← hok.off] at hbelow
        obtain ⟨_, h2, h3⟩ := List.nodup_append.1 hnd
        have hmem : ∀ c, c ∈ r.refd → c ∈ childRefs (recordsOf buf n l) := fun c hc => by
          have := hok.refd.mem_iff.1 hc
          rwa [hok.nodes] at this
        refine ⟨_, (reconNode_ok_iff (by omega)).2 (.inr ⟨hle, hbelow _ (by simp), fun hm => ?_, hbelow _ (by simp),
          fun hm => ?_, rfl⟩)⟩
        · exact h3 _ (hmem _ hm) _ (by simp) rfl
        · rcases List.mem_cons.1 hm with he | hm
          · simp [he] at h2
          · exact h3 _ (hmem _ hm) _ (by simp) rfl
    obtain ⟨r', hr'⟩ := hpass
    refine ⟨r', ?_, reconOk_step (by omega) hok hr'⟩
    rw [reconLoop_add n 1, hr]
    simp [reconLoop, hr']

theorem reconstruct_of_treeOk {buf : Nat → Byte} {size l : Nat} (h : TreeOk (recordsOf buf size l) l) :
    reconstruct buf size l = .ok (recordsOf buf size l) := by
  obtain ⟨r, hr, hok⟩ := reconLoop_of_treeOk h size (Nat.le_refl _)
  simp [reconstruct, hr, hok.nodes]

/-! ### Serialize, then read back -/

@[simp] theorem nodePayload_withoutFreq_leaf (p : Byte) (f : Word) : nodePayload (withoutFreq (.leaf p f)) = p := rfl

@[simp] theorem children_withoutFreq (n : Node) : children (withoutFreq n) = children n := by cases n <;> rfl

@[simp] theorem nodeIsLeaf_withoutFreq (n : Node) : nodeIsLeaf (withoutFreq n) = nodeIsLeaf n := by cases n <;> rfl

@[simp] theorem childRefs_withoutFreq (ns : List Node) : childRefs (ns.map withoutFreq) = childRefs ns := by
  simp [childRefs, List.flatMap_map]

/-- The frequencies do not matter to the shape. -/
theorem TreeOk.withoutFreq {nodes : List Node} {l : Nat} (h : TreeOk nodes l) : TreeOk (nodes.map withoutFreq) l := by
  refine ⟨by simpa using h.size, fun i hi => by simpa using h.kinds i (by simpa using hi), fun i hi c hc => ?_,
    fun c hc => by simpa using h.parents c (by simpa using hc), ?_⟩
  · exact h.below i (by simpa using hi) c (by simpa using hc)
  · have : ((nodes.map Machine.withoutFreq).take l).map nodePayload = (nodes.take l).map nodePayload := by
      refine List.ext_getElem (by simp) fun i h1 h2 => ?_
      simp only [List.length_map, List.length_take] at h2
      have hl := h.isLeaf_of_lt (show i < l by omega)
      simp only [List.getElem_map, List.getElem_take]
      cases hn : nodes[i] with
      | leaf => rfl
      | internal => simp [hn, nodeIsLeaf] at hl
    rw [this]
    exact h.payloads

/-- The records of the serialised tree are its nodes, frequencies apart. -/
theorem recordsOf_serialize {buf : Nat → Byte} {nodes : List Node} {l : Nat} (h : TreeOk nodes l)
    (hb : ∀ k, k < (serialize nodes l).length → buf (12 + k) = (serialize nodes l).getD k 0) :
    recordsOf buf nodes.length l = nodes.map withoutFreq := by
  refine List.ext_getElem (by simp) fun i h1 h2 => ?_
  have hi : i < nodes.length := by simpa using h1
  rw [recordsOf_getElem, List.getElem_map]
  have hslen := serialize_length nodes l
  have hll := h.le_length
  have byte : ∀ j, j < (serializeNode l i nodes[i]).length →
      buf (recordOff l i + j) = (serializeNode l i nodes[i]).getD j 0 := by
    intro j hj
    have hj' := hj
    rw [serializeNode_length] at hj'
    rw [← serialize_record l hi hj, ← hb _ (by split at hj' <;> omega)]
    congr 1
    simp only [recordOff]
    omega
  by_cases hl : i < l
  · have hk := h.isLeaf_of_lt hl
    rw [recordAt_leaf hl]
    have := byte 0 (by simp [hl])
    simp only [Nat.add_zero, serializeNode, if_pos hl, List.getD_cons_zero] at this
    rw [this]
    cases hn : nodes[i] with
    | leaf => rfl
    | internal => simp [hn, nodeIsLeaf] at hk
  · have hle := Nat.not_lt.1 hl
    have hk := h.notLeaf_of_le hle hi
    rw [recordAt_internal hle]
    have hlen : (serializeNode l i nodes[i]).length = 4 := by simp [hl]
    have b0 := byte 0 (by omega)
    have b1 := byte 1 (by omega)
    have b2 := byte 2 (by omega)
    have b3 := byte 3 (by omega)
    have e : serializeNode l i nodes[i] = le16 (nodeLeft nodes[i]) ++ le16 (nodeRight nodes[i]) := by
      rw [serializeNode, if_neg hl]
    generalize recordOff l i = o at *
    rw [e] at b0 b1 b2 b3
    rw [Nat.add_zero, List.getD_append _ _ _ _ (by simp)] at b0
    rw [List.getD_append _ _ _ _ (by simp)] at b1
    rw [List.getD_append_right _ _ _ _ (by simp)] at b2 b3
    rw [rdLE16_of_le16 (v := nodeLeft nodes[i]) b0 b1, rdLE16_of_le16 (v := nodeRight nodes[i]) b2 b3]
    cases hn : nodes[i] with
    | leaf => simp [hn, nodeIsLeaf] at hk
    | internal lc rc f => simp [nodeLeft, nodeRight, Machine.withoutFreq]

end Sys2Proof.Machine
end

