-- ==== Sys2Proof/Laws/State.lean ====
section
/-! SUPPORT. What each shared update of State leaves in each field: one lemma per field and update, true by `rfl`. -/

namespace Sys2Proof.Machine

/-! ### invTree -/

@[simp] theorem invTree_cfg (s : State) : (invTree s).cfg = s.cfg := rfl
@[simp] theorem invTree_engine (s : State) : (invTree s).engine = s.engine := rfl
@[simp] theorem invTree_lastCmd (s : State) : (invTree s).lastCmd = s.lastCmd := rfl
@[simp] theorem invTree_done (s : State) : (invTree s).done = s.done := rfl
@[simp] theorem invTree_err (s : State) : (invTree s).err = s.err := rfl
@[simp] theorem invTree_wbusy (s : State) : (invTree s).wbusy = s.wbusy := rfl
@[simp] theorem invTree_freqV (s : State) : (invTree s).freqV = s.freqV := rfl
@[simp] theorem invTree_treeV (s : State) : (invTree s).treeV = false := rfl
@[simp] theorem invTree_treeSrc (s : State) : (invTree s).treeSrc = false := rfl
@[simp] theorem invTree_codesV (s : State) : (invTree s).codesV = false := rfl
@[simp] theorem invTree_doneIE (s : State) : (invTree s).doneIE = s.doneIE := rfl
@[simp] theorem invTree_errIE (s : State) : (invTree s).errIE = s.errIE := rfl
@[simp] theorem invTree_errCode (s : State) : (invTree s).errCode = s.errCode := rfl
@[simp] theorem invTree_errInfo (s : State) : (invTree s).errInfo = s.errInfo := rfl
@[simp] theorem invTree_inLen (s : State) : (invTree s).inLen = s.inLen := rfl
@[simp] theorem invTree_outLen (s : State) : (invTree s).outLen = s.outLen := rfl
@[simp] theorem invTree_treeSize (s : State) : (invTree s).treeSize = 0 := rfl
@[simp] theorem invTree_leafCount (s : State) : (invTree s).leafCount = 0 := rfl
@[simp] theorem invTree_bits (s : State) : (invTree s).bits = 0 := rfl
@[simp] theorem invTree_dataOff (s : State) : (invTree s).dataOff = 0 := rfl
@[simp] theorem invTree_root (s : State) : (invTree s).root = 0 := rfl
@[simp] theorem invTree_statLeaf (s : State) : (invTree s).statLeaf = s.statLeaf := rfl
@[simp] theorem invTree_statNodes (s : State) : (invTree s).statNodes = s.statNodes := rfl
@[simp] theorem invTree_statOrig (s : State) : (invTree s).statOrig = s.statOrig := rfl
@[simp] theorem invTree_statComp (s : State) : (invTree s).statComp = s.statComp := rfl
@[simp] theorem invTree_statRatio (s : State) : (invTree s).statRatio = s.statRatio := rfl
@[simp] theorem invTree_freq (s : State) : (invTree s).freq = s.freq := rfl
@[simp] theorem invTree_nodes (s : State) : (invTree s).nodes = s.nodes := rfl
@[simp] theorem invTree_codes (s : State) : (invTree s).codes = s.codes := rfl
@[simp] theorem invTree_inBuf (s : State) : (invTree s).inBuf = s.inBuf := rfl
@[simp] theorem invTree_outBuf (s : State) : (invTree s).outBuf = s.outBuf := rfl
@[simp] theorem invTree_schedule (s : State) : (invTree s).schedule = s.schedule := rfl
@[simp] theorem invTree_answer (s : State) : (invTree s).answer = s.answer := rfl
@[simp] theorem invTree_draws (s : State) : (invTree s).draws = s.draws := rfl
@[simp] theorem invTree_epoch (s : State) : (invTree s).epoch = s.epoch := rfl

/-! ### invInput -/

@[simp] theorem invInput_cfg (s : State) : (invInput s).cfg = s.cfg := rfl
@[simp] theorem invInput_engine (s : State) : (invInput s).engine = s.engine := rfl
@[simp] theorem invInput_lastCmd (s : State) : (invInput s).lastCmd = s.lastCmd := rfl
@[simp] theorem invInput_done (s : State) : (invInput s).done = s.done := rfl
@[simp] theorem invInput_err (s : State) : (invInput s).err = s.err := rfl
@[simp] theorem invInput_wbusy (s : State) : (invInput s).wbusy = s.wbusy := rfl
@[simp] theorem invInput_freqV (s : State) : (invInput s).freqV = false := rfl
@[simp] theorem invInput_treeV (s : State) : (invInput s).treeV = false := rfl
@[simp] theorem invInput_treeSrc (s : State) : (invInput s).treeSrc = false := rfl
@[simp] theorem invInput_codesV (s : State) : (invInput s).codesV = false := rfl
@[simp] theorem invInput_doneIE (s : State) : (invInput s).doneIE = s.doneIE := rfl
@[simp] theorem invInput_errIE (s : State) : (invInput s).errIE = s.errIE := rfl
@[simp] theorem invInput_errCode (s : State) : (invInput s).errCode = s.errCode := rfl
@[simp] theorem invInput_errInfo (s : State) : (invInput s).errInfo = s.errInfo := rfl
@[simp] theorem invInput_inLen (s : State) : (invInput s).inLen = s.inLen := rfl
@[simp] theorem invInput_outLen (s : State) : (invInput s).outLen = s.outLen := rfl
@[simp] theorem invInput_treeSize (s : State) : (invInput s).treeSize = 0 := rfl
@[simp] theorem invInput_leafCount (s : State) : (invInput s).leafCount = 0 := rfl
@[simp] theorem invInput_bits (s : State) : (invInput s).bits = 0 := rfl
@[simp] theorem invInput_dataOff (s : State) : (invInput s).dataOff = 0 := rfl
@[simp] theorem invInput_root (s : State) : (invInput s).root = 0 := rfl
@[simp] theorem invInput_statLeaf (s : State) : (invInput s).statLeaf = s.statLeaf := rfl
@[simp] theorem invInput_statNodes (s : State) : (invInput s).statNodes = s.statNodes := rfl
@[simp] theorem invInput_statOrig (s : State) : (invInput s).statOrig = s.statOrig := rfl
@[simp] theorem invInput_statComp (s : State) : (invInput s).statComp = s.statComp := rfl
@[simp] theorem invInput_statRatio (s : State) : (invInput s).statRatio = s.statRatio := rfl
@[simp] theorem invInput_freq (s : State) : (invInput s).freq = s.freq := rfl
@[simp] theorem invInput_nodes (s : State) : (invInput s).nodes = s.nodes := rfl
@[simp] theorem invInput_codes (s : State) : (invInput s).codes = s.codes := rfl
@[simp] theorem invInput_inBuf (s : State) : (invInput s).inBuf = s.inBuf := rfl
@[simp] theorem invInput_outBuf (s : State) : (invInput s).outBuf = s.outBuf := rfl
@[simp] theorem invInput_schedule (s : State) : (invInput s).schedule = s.schedule := rfl
@[simp] theorem invInput_answer (s : State) : (invInput s).answer = s.answer := rfl
@[simp] theorem invInput_draws (s : State) : (invInput s).draws = s.draws := rfl
@[simp] theorem invInput_epoch (s : State) : (invInput s).epoch = s.epoch := rfl

/-! ### clearDerived -/

@[simp] theorem clearDerived_cfg (s : State) : (clearDerived s).cfg = s.cfg := rfl
@[simp] theorem clearDerived_engine (s : State) : (clearDerived s).engine = s.engine := rfl
@[simp] theorem clearDerived_lastCmd (s : State) : (clearDerived s).lastCmd = s.lastCmd := rfl
@[simp] theorem clearDerived_done (s : State) : (clearDerived s).done = s.done := rfl
@[simp] theorem clearDerived_err (s : State) : (clearDerived s).err = s.err := rfl
@[simp] theorem clearDerived_wbusy (s : State) : (clearDerived s).wbusy = s.wbusy := rfl
@[simp] theorem clearDerived_freqV (s : State) : (clearDerived s).freqV = false := rfl
@[simp] theorem clearDerived_treeV (s : State) : (clearDerived s).treeV = false := rfl
@[simp] theorem clearDerived_treeSrc (s : State) : (clearDerived s).treeSrc = false := rfl
@[simp] theorem clearDerived_codesV (s : State) : (clearDerived s).codesV = false := rfl
@[simp] theorem clearDerived_doneIE (s : State) : (clearDerived s).doneIE = s.doneIE := rfl
@[simp] theorem clearDerived_errIE (s : State) : (clearDerived s).errIE = s.errIE := rfl
@[simp] theorem clearDerived_errCode (s : State) : (clearDerived s).errCode = s.errCode := rfl
@[simp] theorem clearDerived_errInfo (s : State) : (clearDerived s).errInfo = s.errInfo := rfl
@[simp] theorem clearDerived_inLen (s : State) : (clearDerived s).inLen = s.inLen := rfl
@[simp] theorem clearDerived_outLen (s : State) : (clearDerived s).outLen = 0 := rfl
@[simp] theorem clearDerived_treeSize (s : State) : (clearDerived s).treeSize = 0 := rfl
@[simp] theorem clearDerived_leafCount (s : State) : (clearDerived s).leafCount = 0 := rfl
@[simp] theorem clearDerived_bits (s : State) : (clearDerived s).bits = 0 := rfl
@[simp] theorem clearDerived_dataOff (s : State) : (clearDerived s).dataOff = 0 := rfl
@[simp] theorem clearDerived_root (s : State) : (clearDerived s).root = 0 := rfl
@[simp] theorem clearDerived_statLeaf (s : State) : (clearDerived s).statLeaf = s.statLeaf := rfl
@[simp] theorem clearDerived_statNodes (s : State) : (clearDerived s).statNodes = s.statNodes := rfl
@[simp] theorem clearDerived_statOrig (s : State) : (clearDerived s).statOrig = s.statOrig := rfl
@[simp] theorem clearDerived_statComp (s : State) : (clearDerived s).statComp = s.statComp := rfl
@[simp] theorem clearDerived_statRatio (s : State) : (clearDerived s).statRatio = s.statRatio := rfl
@[simp] theorem clearDerived_freq (s : State) : (clearDerived s).freq = s.freq := rfl
@[simp] theorem clearDerived_nodes (s : State) : (clearDerived s).nodes = s.nodes := rfl
@[simp] theorem clearDerived_codes (s : State) : (clearDerived s).codes = s.codes := rfl
@[simp] theorem clearDerived_inBuf (s : State) : (clearDerived s).inBuf = s.inBuf := rfl
@[simp] theorem clearDerived_outBuf (s : State) : (clearDerived s).outBuf = s.outBuf := rfl
@[simp] theorem clearDerived_schedule (s : State) : (clearDerived s).schedule = s.schedule := rfl
@[simp] theorem clearDerived_answer (s : State) : (clearDerived s).answer = s.answer := rfl
@[simp] theorem clearDerived_draws (s : State) : (clearDerived s).draws = s.draws := rfl
@[simp] theorem clearDerived_epoch (s : State) : (clearDerived s).epoch = s.epoch := rfl

/-! ### takeError -/

@[simp] theorem takeError_cfg (r : Raise) (s : State) : (takeError r s).cfg = s.cfg := rfl
@[simp] theorem takeError_engine (r : Raise) (s : State) : (takeError r s).engine = .idle := rfl
@[simp] theorem takeError_lastCmd (r : Raise) (s : State) : (takeError r s).lastCmd = s.lastCmd := rfl
@[simp] theorem takeError_done (r : Raise) (s : State) : (takeError r s).done = true := rfl
@[simp] theorem takeError_err (r : Raise) (s : State) : (takeError r s).err = true := rfl
@[simp] theorem takeError_wbusy (r : Raise) (s : State) : (takeError r s).wbusy = s.wbusy := rfl
@[simp] theorem takeError_freqV (r : Raise) (s : State) : (takeError r s).freqV = false := rfl
@[simp] theorem takeError_treeV (r : Raise) (s : State) : (takeError r s).treeV = false := rfl
@[simp] theorem takeError_treeSrc (r : Raise) (s : State) : (takeError r s).treeSrc = false := rfl
@[simp] theorem takeError_codesV (r : Raise) (s : State) : (takeError r s).codesV = false := rfl
@[simp] theorem takeError_doneIE (r : Raise) (s : State) : (takeError r s).doneIE = s.doneIE := rfl
@[simp] theorem takeError_errIE (r : Raise) (s : State) : (takeError r s).errIE = s.errIE := rfl
@[simp] theorem takeError_errCode (r : Raise) (s : State) : (takeError r s).errCode = causeCode r.cause := rfl
@[simp] theorem takeError_errInfo (r : Raise) (s : State) : (takeError r s).errInfo = r.info := rfl
@[simp] theorem takeError_inLen (r : Raise) (s : State) : (takeError r s).inLen = s.inLen := rfl
@[simp] theorem takeError_outLen (r : Raise) (s : State) : (takeError r s).outLen = 0 := rfl
@[simp] theorem takeError_treeSize (r : Raise) (s : State) : (takeError r s).treeSize = 0 := rfl
@[simp] theorem takeError_leafCount (r : Raise) (s : State) : (takeError r s).leafCount = 0 := rfl
@[simp] theorem takeError_bits (r : Raise) (s : State) : (takeError r s).bits = 0 := rfl
@[simp] theorem takeError_dataOff (r : Raise) (s : State) : (takeError r s).dataOff = 0 := rfl
@[simp] theorem takeError_root (r : Raise) (s : State) : (takeError r s).root = 0 := rfl
@[simp] theorem takeError_statLeaf (r : Raise) (s : State) : (takeError r s).statLeaf = s.statLeaf := rfl
@[simp] theorem takeError_statNodes (r : Raise) (s : State) : (takeError r s).statNodes = s.statNodes := rfl
@[simp] theorem takeError_statOrig (r : Raise) (s : State) : (takeError r s).statOrig = s.statOrig := rfl
@[simp] theorem takeError_statComp (r : Raise) (s : State) : (takeError r s).statComp = s.statComp := rfl
@[simp] theorem takeError_statRatio (r : Raise) (s : State) : (takeError r s).statRatio = s.statRatio := rfl
@[simp] theorem takeError_freq (r : Raise) (s : State) : (takeError r s).freq = s.freq := rfl
@[simp] theorem takeError_nodes (r : Raise) (s : State) : (takeError r s).nodes = s.nodes := rfl
@[simp] theorem takeError_codes (r : Raise) (s : State) : (takeError r s).codes = s.codes := rfl
@[simp] theorem takeError_inBuf (r : Raise) (s : State) : (takeError r s).inBuf = s.inBuf := rfl
@[simp] theorem takeError_outBuf (r : Raise) (s : State) : (takeError r s).outBuf = s.outBuf := rfl
@[simp] theorem takeError_schedule (r : Raise) (s : State) : (takeError r s).schedule = s.schedule := rfl
@[simp] theorem takeError_answer (r : Raise) (s : State) : (takeError r s).answer = s.answer := rfl
@[simp] theorem takeError_draws (r : Raise) (s : State) : (takeError r s).draws = s.draws := rfl
@[simp] theorem takeError_epoch (r : Raise) (s : State) : (takeError r s).epoch = s.epoch := rfl

/-! ### completeOk -/

@[simp] theorem completeOk_cfg (s : State) : (completeOk s).cfg = s.cfg := rfl
@[simp] theorem completeOk_engine (s : State) : (completeOk s).engine = .idle := rfl
@[simp] theorem completeOk_lastCmd (s : State) : (completeOk s).lastCmd = s.lastCmd := rfl
@[simp] theorem completeOk_done (s : State) : (completeOk s).done = true := rfl
@[simp] theorem completeOk_err (s : State) : (completeOk s).err = s.err := rfl
@[simp] theorem completeOk_wbusy (s : State) : (completeOk s).wbusy = s.wbusy := rfl
@[simp] theorem completeOk_freqV (s : State) : (completeOk s).freqV = s.freqV := rfl
@[simp] theorem completeOk_treeV (s : State) : (completeOk s).treeV = s.treeV := rfl
@[simp] theorem completeOk_treeSrc (s : State) : (completeOk s).treeSrc = s.treeSrc := rfl
@[simp] theorem completeOk_codesV (s : State) : (completeOk s).codesV = s.codesV := rfl
@[simp] theorem completeOk_doneIE (s : State) : (completeOk s).doneIE = s.doneIE := rfl
@[simp] theorem completeOk_errIE (s : State) : (completeOk s).errIE = s.errIE := rfl
@[simp] theorem completeOk_errCode (s : State) : (completeOk s).errCode = 0 := rfl
@[simp] theorem completeOk_errInfo (s : State) : (completeOk s).errInfo = 0 := rfl
@[simp] theorem completeOk_inLen (s : State) : (completeOk s).inLen = s.inLen := rfl
@[simp] theorem completeOk_outLen (s : State) : (completeOk s).outLen = s.outLen := rfl
@[simp] theorem completeOk_treeSize (s : State) : (completeOk s).treeSize = s.treeSize := rfl
@[simp] theorem completeOk_leafCount (s : State) : (completeOk s).leafCount = s.leafCount := rfl
@[simp] theorem completeOk_bits (s : State) : (completeOk s).bits = s.bits := rfl
@[simp] theorem completeOk_dataOff (s : State) : (completeOk s).dataOff = s.dataOff := rfl
@[simp] theorem completeOk_root (s : State) : (completeOk s).root = s.root := rfl
@[simp] theorem completeOk_statLeaf (s : State) : (completeOk s).statLeaf = s.statLeaf := rfl
@[simp] theorem completeOk_statNodes (s : State) : (completeOk s).statNodes = s.statNodes := rfl
@[simp] theorem completeOk_statOrig (s : State) : (completeOk s).statOrig = s.statOrig := rfl
@[simp] theorem completeOk_statComp (s : State) : (completeOk s).statComp = s.statComp := rfl
@[simp] theorem completeOk_statRatio (s : State) : (completeOk s).statRatio = s.statRatio := rfl
@[simp] theorem completeOk_freq (s : State) : (completeOk s).freq = s.freq := rfl
@[simp] theorem completeOk_nodes (s : State) : (completeOk s).nodes = s.nodes := rfl
@[simp] theorem completeOk_codes (s : State) : (completeOk s).codes = s.codes := rfl
@[simp] theorem completeOk_inBuf (s : State) : (completeOk s).inBuf = s.inBuf := rfl
@[simp] theorem completeOk_outBuf (s : State) : (completeOk s).outBuf = s.outBuf := rfl
@[simp] theorem completeOk_schedule (s : State) : (completeOk s).schedule = s.schedule := rfl
@[simp] theorem completeOk_answer (s : State) : (completeOk s).answer = s.answer := rfl
@[simp] theorem completeOk_draws (s : State) : (completeOk s).draws = s.draws := rfl
@[simp] theorem completeOk_epoch (s : State) : (completeOk s).epoch = s.epoch := rfl

/-! ### acceptCommand -/

@[simp] theorem acceptCommand_cfg (w : Word) (s : State) : (acceptCommand w s).cfg = s.cfg := rfl
@[simp] theorem acceptCommand_engine (w : Word) (s : State) : (acceptCommand w s).engine = .busy w := rfl
@[simp] theorem acceptCommand_lastCmd (w : Word) (s : State) : (acceptCommand w s).lastCmd = w := rfl
@[simp] theorem acceptCommand_done (w : Word) (s : State) : (acceptCommand w s).done = false := rfl
@[simp] theorem acceptCommand_err (w : Word) (s : State) : (acceptCommand w s).err = false := rfl
@[simp] theorem acceptCommand_wbusy (w : Word) (s : State) : (acceptCommand w s).wbusy = s.wbusy := rfl
@[simp] theorem acceptCommand_freqV (w : Word) (s : State) : (acceptCommand w s).freqV = s.freqV := rfl
@[simp] theorem acceptCommand_treeV (w : Word) (s : State) : (acceptCommand w s).treeV = s.treeV := rfl
@[simp] theorem acceptCommand_treeSrc (w : Word) (s : State) : (acceptCommand w s).treeSrc = s.treeSrc := rfl
@[simp] theorem acceptCommand_codesV (w : Word) (s : State) : (acceptCommand w s).codesV = s.codesV := rfl
@[simp] theorem acceptCommand_doneIE (w : Word) (s : State) : (acceptCommand w s).doneIE = s.doneIE := rfl
@[simp] theorem acceptCommand_errIE (w : Word) (s : State) : (acceptCommand w s).errIE = s.errIE := rfl
@[simp] theorem acceptCommand_errCode (w : Word) (s : State) : (acceptCommand w s).errCode = s.errCode := rfl
@[simp] theorem acceptCommand_errInfo (w : Word) (s : State) : (acceptCommand w s).errInfo = s.errInfo := rfl
@[simp] theorem acceptCommand_inLen (w : Word) (s : State) : (acceptCommand w s).inLen = s.inLen := rfl
@[simp] theorem acceptCommand_outLen (w : Word) (s : State) : (acceptCommand w s).outLen = s.outLen := rfl
@[simp] theorem acceptCommand_treeSize (w : Word) (s : State) : (acceptCommand w s).treeSize = s.treeSize := rfl
@[simp] theorem acceptCommand_leafCount (w : Word) (s : State) : (acceptCommand w s).leafCount = s.leafCount := rfl
@[simp] theorem acceptCommand_bits (w : Word) (s : State) : (acceptCommand w s).bits = s.bits := rfl
@[simp] theorem acceptCommand_dataOff (w : Word) (s : State) : (acceptCommand w s).dataOff = s.dataOff := rfl
@[simp] theorem acceptCommand_root (w : Word) (s : State) : (acceptCommand w s).root = s.root := rfl
@[simp] theorem acceptCommand_statLeaf (w : Word) (s : State) : (acceptCommand w s).statLeaf = s.statLeaf := rfl
@[simp] theorem acceptCommand_statNodes (w : Word) (s : State) : (acceptCommand w s).statNodes = s.statNodes := rfl
@[simp] theorem acceptCommand_statOrig (w : Word) (s : State) : (acceptCommand w s).statOrig = s.statOrig := rfl
@[simp] theorem acceptCommand_statComp (w : Word) (s : State) : (acceptCommand w s).statComp = s.statComp := rfl
@[simp] theorem acceptCommand_statRatio (w : Word) (s : State) : (acceptCommand w s).statRatio = s.statRatio := rfl
@[simp] theorem acceptCommand_freq (w : Word) (s : State) : (acceptCommand w s).freq = s.freq := rfl
@[simp] theorem acceptCommand_nodes (w : Word) (s : State) : (acceptCommand w s).nodes = s.nodes := rfl
@[simp] theorem acceptCommand_codes (w : Word) (s : State) : (acceptCommand w s).codes = s.codes := rfl
@[simp] theorem acceptCommand_inBuf (w : Word) (s : State) : (acceptCommand w s).inBuf = s.inBuf := rfl
@[simp] theorem acceptCommand_outBuf (w : Word) (s : State) : (acceptCommand w s).outBuf = s.outBuf := rfl
@[simp] theorem acceptCommand_schedule (w : Word) (s : State) : (acceptCommand w s).schedule = s.schedule := rfl
@[simp] theorem acceptCommand_answer (w : Word) (s : State) : (acceptCommand w s).answer = s.answer := rfl
@[simp] theorem acceptCommand_draws (w : Word) (s : State) : (acceptCommand w s).draws = s.draws := rfl
@[simp] theorem acceptCommand_epoch (w : Word) (s : State) : (acceptCommand w s).epoch = s.epoch := rfl

/-! ### acknowledge -/

@[simp] theorem acknowledge_cfg (v : Word) (s : State) : (acknowledge v s).cfg = s.cfg := rfl
@[simp] theorem acknowledge_engine (v : Word) (s : State) : (acknowledge v s).engine = s.engine := rfl
@[simp] theorem acknowledge_lastCmd (v : Word) (s : State) : (acknowledge v s).lastCmd = s.lastCmd := rfl
@[simp] theorem acknowledge_done (v : Word) (s : State) : (acknowledge v s).done = (s.done && !v.getLsbD 1) := rfl
@[simp] theorem acknowledge_err (v : Word) (s : State) : (acknowledge v s).err = (s.err && !v.getLsbD 2) := rfl
@[simp] theorem acknowledge_wbusy (v : Word) (s : State) : (acknowledge v s).wbusy = (s.wbusy && !v.getLsbD 3) := rfl
@[simp] theorem acknowledge_freqV (v : Word) (s : State) : (acknowledge v s).freqV = s.freqV := rfl
@[simp] theorem acknowledge_treeV (v : Word) (s : State) : (acknowledge v s).treeV = s.treeV := rfl
@[simp] theorem acknowledge_treeSrc (v : Word) (s : State) : (acknowledge v s).treeSrc = s.treeSrc := rfl
@[simp] theorem acknowledge_codesV (v : Word) (s : State) : (acknowledge v s).codesV = s.codesV := rfl
@[simp] theorem acknowledge_doneIE (v : Word) (s : State) : (acknowledge v s).doneIE = s.doneIE := rfl
@[simp] theorem acknowledge_errIE (v : Word) (s : State) : (acknowledge v s).errIE = s.errIE := rfl
@[simp] theorem acknowledge_errCode (v : Word) (s : State) : (acknowledge v s).errCode = s.errCode := rfl
@[simp] theorem acknowledge_errInfo (v : Word) (s : State) : (acknowledge v s).errInfo = s.errInfo := rfl
@[simp] theorem acknowledge_inLen (v : Word) (s : State) : (acknowledge v s).inLen = s.inLen := rfl
@[simp] theorem acknowledge_outLen (v : Word) (s : State) : (acknowledge v s).outLen = s.outLen := rfl
@[simp] theorem acknowledge_treeSize (v : Word) (s : State) : (acknowledge v s).treeSize = s.treeSize := rfl
@[simp] theorem acknowledge_leafCount (v : Word) (s : State) : (acknowledge v s).leafCount = s.leafCount := rfl
@[simp] theorem acknowledge_bits (v : Word) (s : State) : (acknowledge v s).bits = s.bits := rfl
@[simp] theorem acknowledge_dataOff (v : Word) (s : State) : (acknowledge v s).dataOff = s.dataOff := rfl
@[simp] theorem acknowledge_root (v : Word) (s : State) : (acknowledge v s).root = s.root := rfl
@[simp] theorem acknowledge_statLeaf (v : Word) (s : State) : (acknowledge v s).statLeaf = s.statLeaf := rfl
@[simp] theorem acknowledge_statNodes (v : Word) (s : State) : (acknowledge v s).statNodes = s.statNodes := rfl
@[simp] theorem acknowledge_statOrig (v : Word) (s : State) : (acknowledge v s).statOrig = s.statOrig := rfl
@[simp] theorem acknowledge_statComp (v : Word) (s : State) : (acknowledge v s).statComp = s.statComp := rfl
@[simp] theorem acknowledge_statRatio (v : Word) (s : State) : (acknowledge v s).statRatio = s.statRatio := rfl
@[simp] theorem acknowledge_freq (v : Word) (s : State) : (acknowledge v s).freq = s.freq := rfl
@[simp] theorem acknowledge_nodes (v : Word) (s : State) : (acknowledge v s).nodes = s.nodes := rfl
@[simp] theorem acknowledge_codes (v : Word) (s : State) : (acknowledge v s).codes = s.codes := rfl
@[simp] theorem acknowledge_inBuf (v : Word) (s : State) : (acknowledge v s).inBuf = s.inBuf := rfl
@[simp] theorem acknowledge_outBuf (v : Word) (s : State) : (acknowledge v s).outBuf = s.outBuf := rfl
@[simp] theorem acknowledge_schedule (v : Word) (s : State) : (acknowledge v s).schedule = s.schedule := rfl
@[simp] theorem acknowledge_answer (v : Word) (s : State) : (acknowledge v s).answer = s.answer := rfl
@[simp] theorem acknowledge_draws (v : Word) (s : State) : (acknowledge v s).draws = s.draws := rfl
@[simp] theorem acknowledge_epoch (v : Word) (s : State) : (acknowledge v s).epoch = s.epoch := rfl

/-! ### loadArena -/

@[simp] theorem loadArena_cfg (ns : List Node) (s : State) : (loadArena ns s).cfg = s.cfg := rfl
@[simp] theorem loadArena_engine (ns : List Node) (s : State) : (loadArena ns s).engine = s.engine := rfl
@[simp] theorem loadArena_lastCmd (ns : List Node) (s : State) : (loadArena ns s).lastCmd = s.lastCmd := rfl
@[simp] theorem loadArena_done (ns : List Node) (s : State) : (loadArena ns s).done = s.done := rfl
@[simp] theorem loadArena_err (ns : List Node) (s : State) : (loadArena ns s).err = s.err := rfl
@[simp] theorem loadArena_wbusy (ns : List Node) (s : State) : (loadArena ns s).wbusy = s.wbusy := rfl
@[simp] theorem loadArena_freqV (ns : List Node) (s : State) : (loadArena ns s).freqV = s.freqV := rfl
@[simp] theorem loadArena_treeV (ns : List Node) (s : State) : (loadArena ns s).treeV = s.treeV := rfl
@[simp] theorem loadArena_treeSrc (ns : List Node) (s : State) : (loadArena ns s).treeSrc = s.treeSrc := rfl
@[simp] theorem loadArena_codesV (ns : List Node) (s : State) : (loadArena ns s).codesV = s.codesV := rfl
@[simp] theorem loadArena_doneIE (ns : List Node) (s : State) : (loadArena ns s).doneIE = s.doneIE := rfl
@[simp] theorem loadArena_errIE (ns : List Node) (s : State) : (loadArena ns s).errIE = s.errIE := rfl
@[simp] theorem loadArena_errCode (ns : List Node) (s : State) : (loadArena ns s).errCode = s.errCode := rfl
@[simp] theorem loadArena_errInfo (ns : List Node) (s : State) : (loadArena ns s).errInfo = s.errInfo := rfl
@[simp] theorem loadArena_inLen (ns : List Node) (s : State) : (loadArena ns s).inLen = s.inLen := rfl
@[simp] theorem loadArena_outLen (ns : List Node) (s : State) : (loadArena ns s).outLen = s.outLen := rfl
@[simp] theorem loadArena_treeSize (ns : List Node) (s : State) : (loadArena ns s).treeSize = s.treeSize := rfl
@[simp] theorem loadArena_leafCount (ns : List Node) (s : State) : (loadArena ns s).leafCount = s.leafCount := rfl
@[simp] theorem loadArena_bits (ns : List Node) (s : State) : (loadArena ns s).bits = s.bits := rfl
@[simp] theorem loadArena_dataOff (ns : List Node) (s : State) : (loadArena ns s).dataOff = s.dataOff := rfl
@[simp] theorem loadArena_root (ns : List Node) (s : State) : (loadArena ns s).root = s.root := rfl
@[simp] theorem loadArena_statLeaf (ns : List Node) (s : State) : (loadArena ns s).statLeaf = s.statLeaf := rfl
@[simp] theorem loadArena_statNodes (ns : List Node) (s : State) : (loadArena ns s).statNodes = s.statNodes := rfl
@[simp] theorem loadArena_statOrig (ns : List Node) (s : State) : (loadArena ns s).statOrig = s.statOrig := rfl
@[simp] theorem loadArena_statComp (ns : List Node) (s : State) : (loadArena ns s).statComp = s.statComp := rfl
@[simp] theorem loadArena_statRatio (ns : List Node) (s : State) : (loadArena ns s).statRatio = s.statRatio := rfl
@[simp] theorem loadArena_freq (ns : List Node) (s : State) : (loadArena ns s).freq = s.freq := rfl
@[simp] theorem loadArena_nodes (ns : List Node) (s : State) : (loadArena ns s).nodes = ns ++ s.nodes.drop ns.length := rfl
@[simp] theorem loadArena_codes (ns : List Node) (s : State) : (loadArena ns s).codes = s.codes := rfl
@[simp] theorem loadArena_inBuf (ns : List Node) (s : State) : (loadArena ns s).inBuf = s.inBuf := rfl
@[simp] theorem loadArena_outBuf (ns : List Node) (s : State) : (loadArena ns s).outBuf = s.outBuf := rfl
@[simp] theorem loadArena_schedule (ns : List Node) (s : State) : (loadArena ns s).schedule = s.schedule := rfl
@[simp] theorem loadArena_answer (ns : List Node) (s : State) : (loadArena ns s).answer = s.answer := rfl
@[simp] theorem loadArena_draws (ns : List Node) (s : State) : (loadArena ns s).draws = s.draws := rfl
@[simp] theorem loadArena_epoch (ns : List Node) (s : State) : (loadArena ns s).epoch = s.epoch := rfl

/-! ### writeOut -/

@[simp] theorem writeOut_cfg (e : List Byte) (s : State) : (writeOut e s).cfg = s.cfg := rfl
@[simp] theorem writeOut_engine (e : List Byte) (s : State) : (writeOut e s).engine = s.engine := rfl
@[simp] theorem writeOut_lastCmd (e : List Byte) (s : State) : (writeOut e s).lastCmd = s.lastCmd := rfl
@[simp] theorem writeOut_done (e : List Byte) (s : State) : (writeOut e s).done = s.done := rfl
@[simp] theorem writeOut_err (e : List Byte) (s : State) : (writeOut e s).err = s.err := rfl
@[simp] theorem writeOut_wbusy (e : List Byte) (s : State) : (writeOut e s).wbusy = s.wbusy := rfl
@[simp] theorem writeOut_freqV (e : List Byte) (s : State) : (writeOut e s).freqV = s.freqV := rfl
@[simp] theorem writeOut_treeV (e : List Byte) (s : State) : (writeOut e s).treeV = s.treeV := rfl
@[simp] theorem writeOut_treeSrc (e : List Byte) (s : State) : (writeOut e s).treeSrc = s.treeSrc := rfl
@[simp] theorem writeOut_codesV (e : List Byte) (s : State) : (writeOut e s).codesV = s.codesV := rfl
@[simp] theorem writeOut_doneIE (e : List Byte) (s : State) : (writeOut e s).doneIE = s.doneIE := rfl
@[simp] theorem writeOut_errIE (e : List Byte) (s : State) : (writeOut e s).errIE = s.errIE := rfl
@[simp] theorem writeOut_errCode (e : List Byte) (s : State) : (writeOut e s).errCode = s.errCode := rfl
@[simp] theorem writeOut_errInfo (e : List Byte) (s : State) : (writeOut e s).errInfo = s.errInfo := rfl
@[simp] theorem writeOut_inLen (e : List Byte) (s : State) : (writeOut e s).inLen = s.inLen := rfl
@[simp] theorem writeOut_outLen (e : List Byte) (s : State) : (writeOut e s).outLen = s.outLen := rfl
@[simp] theorem writeOut_treeSize (e : List Byte) (s : State) : (writeOut e s).treeSize = s.treeSize := rfl
@[simp] theorem writeOut_leafCount (e : List Byte) (s : State) : (writeOut e s).leafCount = s.leafCount := rfl
@[simp] theorem writeOut_bits (e : List Byte) (s : State) : (writeOut e s).bits = s.bits := rfl
@[simp] theorem writeOut_dataOff (e : List Byte) (s : State) : (writeOut e s).dataOff = s.dataOff := rfl
@[simp] theorem writeOut_root (e : List Byte) (s : State) : (writeOut e s).root = s.root := rfl
@[simp] theorem writeOut_statLeaf (e : List Byte) (s : State) : (writeOut e s).statLeaf = s.statLeaf := rfl
@[simp] theorem writeOut_statNodes (e : List Byte) (s : State) : (writeOut e s).statNodes = s.statNodes := rfl
@[simp] theorem writeOut_statOrig (e : List Byte) (s : State) : (writeOut e s).statOrig = s.statOrig := rfl
@[simp] theorem writeOut_statComp (e : List Byte) (s : State) : (writeOut e s).statComp = s.statComp := rfl
@[simp] theorem writeOut_statRatio (e : List Byte) (s : State) : (writeOut e s).statRatio = s.statRatio := rfl
@[simp] theorem writeOut_freq (e : List Byte) (s : State) : (writeOut e s).freq = s.freq := rfl
@[simp] theorem writeOut_nodes (e : List Byte) (s : State) : (writeOut e s).nodes = s.nodes := rfl
@[simp] theorem writeOut_codes (e : List Byte) (s : State) : (writeOut e s).codes = s.codes := rfl
@[simp] theorem writeOut_inBuf (e : List Byte) (s : State) : (writeOut e s).inBuf = s.inBuf := rfl
@[simp] theorem writeOut_outBuf (e : List Byte) (s : State) : (writeOut e s).outBuf = s.outBuf.writeBytes 0 e := rfl
@[simp] theorem writeOut_schedule (e : List Byte) (s : State) : (writeOut e s).schedule = s.schedule := rfl
@[simp] theorem writeOut_answer (e : List Byte) (s : State) : (writeOut e s).answer = s.answer := rfl
@[simp] theorem writeOut_draws (e : List Byte) (s : State) : (writeOut e s).draws = s.draws := rfl
@[simp] theorem writeOut_epoch (e : List Byte) (s : State) : (writeOut e s).epoch = s.epoch := rfl

/-! ### updateStats -/

@[simp] theorem updateStats_cfg (l z o : Word) (n : Nat) (s : State) : (updateStats l z o n s).cfg = s.cfg := rfl
@[simp] theorem updateStats_engine (l z o : Word) (n : Nat) (s : State) : (updateStats l z o n s).engine = s.engine := rfl
@[simp] theorem updateStats_lastCmd (l z o : Word) (n : Nat) (s : State) : (updateStats l z o n s).lastCmd = s.lastCmd := rfl
@[simp] theorem updateStats_done (l z o : Word) (n : Nat) (s : State) : (updateStats l z o n s).done = s.done := rfl
@[simp] theorem updateStats_err (l z o : Word) (n : Nat) (s : State) : (updateStats l z o n s).err = s.err := rfl
@[simp] theorem updateStats_wbusy (l z o : Word) (n : Nat) (s : State) : (updateStats l z o n s).wbusy = s.wbusy := rfl
@[simp] theorem updateStats_freqV (l z o : Word) (n : Nat) (s : State) : (updateStats l z o n s).freqV = s.freqV := rfl
@[simp] theorem updateStats_treeV (l z o : Word) (n : Nat) (s : State) : (updateStats l z o n s).treeV = s.treeV := rfl
@[simp] theorem updateStats_treeSrc (l z o : Word) (n : Nat) (s : State) : (updateStats l z o n s).treeSrc = s.treeSrc := rfl
@[simp] theorem updateStats_codesV (l z o : Word) (n : Nat) (s : State) : (updateStats l z o n s).codesV = s.codesV := rfl
@[simp] theorem updateStats_doneIE (l z o : Word) (n : Nat) (s : State) : (updateStats l z o n s).doneIE = s.doneIE := rfl
@[simp] theorem updateStats_errIE (l z o : Word) (n : Nat) (s : State) : (updateStats l z o n s).errIE = s.errIE := rfl
@[simp] theorem updateStats_errCode (l z o : Word) (n : Nat) (s : State) : (updateStats l z o n s).errCode = s.errCode := rfl
@[simp] theorem updateStats_errInfo (l z o : Word) (n : Nat) (s : State) : (updateStats l z o n s).errInfo = s.errInfo := rfl
@[simp] theorem updateStats_inLen (l z o : Word) (n : Nat) (s : State) : (updateStats l z o n s).inLen = s.inLen := rfl
@[simp] theorem updateStats_outLen (l z o : Word) (n : Nat) (s : State) : (updateStats l z o n s).outLen = s.outLen := rfl
@[simp] theorem updateStats_treeSize (l z o : Word) (n : Nat) (s : State) : (updateStats l z o n s).treeSize = s.treeSize := rfl
@[simp] theorem updateStats_leafCount (l z o : Word) (n : Nat) (s : State) : (updateStats l z o n s).leafCount = s.leafCount := rfl
@[simp] theorem updateStats_bits (l z o : Word) (n : Nat) (s : State) : (updateStats l z o n s).bits = s.bits := rfl
@[simp] theorem updateStats_dataOff (l z o : Word) (n : Nat) (s : State) : (updateStats l z o n s).dataOff = s.dataOff := rfl
@[simp] theorem updateStats_root (l z o : Word) (n : Nat) (s : State) : (updateStats l z o n s).root = s.root := rfl
@[simp] theorem updateStats_statLeaf (l z o : Word) (n : Nat) (s : State) : (updateStats l z o n s).statLeaf = l := rfl
@[simp] theorem updateStats_statNodes (l z o : Word) (n : Nat) (s : State) : (updateStats l z o n s).statNodes = z := rfl
@[simp] theorem updateStats_statOrig (l z o : Word) (n : Nat) (s : State) : (updateStats l z o n s).statOrig = o := rfl
@[simp] theorem updateStats_statComp (l z o : Word) (n : Nat) (s : State) : (updateStats l z o n s).statComp = BitVec.ofNat 32 n := rfl
@[simp] theorem updateStats_statRatio (l z o : Word) (n : Nat) (s : State) : (updateStats l z o n s).statRatio = ratioQ16 n o.toNat := rfl
@[simp] theorem updateStats_freq (l z o : Word) (n : Nat) (s : State) : (updateStats l z o n s).freq = s.freq := rfl
@[simp] theorem updateStats_nodes (l z o : Word) (n : Nat) (s : State) : (updateStats l z o n s).nodes = s.nodes := rfl
@[simp] theorem updateStats_codes (l z o : Word) (n : Nat) (s : State) : (updateStats l z o n s).codes = s.codes := rfl
@[simp] theorem updateStats_inBuf (l z o : Word) (n : Nat) (s : State) : (updateStats l z o n s).inBuf = s.inBuf := rfl
@[simp] theorem updateStats_outBuf (l z o : Word) (n : Nat) (s : State) : (updateStats l z o n s).outBuf = s.outBuf := rfl
@[simp] theorem updateStats_schedule (l z o : Word) (n : Nat) (s : State) : (updateStats l z o n s).schedule = s.schedule := rfl
@[simp] theorem updateStats_answer (l z o : Word) (n : Nat) (s : State) : (updateStats l z o n s).answer = s.answer := rfl
@[simp] theorem updateStats_draws (l z o : Word) (n : Nat) (s : State) : (updateStats l z o n s).draws = s.draws := rfl
@[simp] theorem updateStats_epoch (l z o : Word) (n : Nat) (s : State) : (updateStats l z o n s).epoch = s.epoch := rfl

/-! ### The states the bodies leave on success -/

/-- The state FREQ_COUNT's body leaves (spec/41_tree_builder.md R140). -/
def countedState (s : State) : State := { invTree s with freq := countBytes (inputBytes s), freqV := true }

/-- The state TREE_BUILD's body leaves (spec/41_tree_builder.md R141). -/
def builtState (s : State) : State :=
  { loadArena (buildFromFrequencies s.freq).1 (invTree s) with
    treeSize := BitVec.ofNat 32 (buildFromFrequencies s.freq).1.length
    leafCount := BitVec.ofNat 32 (buildFromFrequencies s.freq).2
    root := rootWord (buildFromFrequencies s.freq).1.length
    treeV := true
    treeSrc := false }

/-- The state CODE_GEN's body leaves (spec/42_code_generator.md R170). -/
def codedState (s : State) : State := { s with codes := codeTable (arena s) s.leafCount.toNat, codesV := true }

/-- The state ENV_PACK's body leaves (spec/43_encoder.md R182). -/
def packedState (s : State) : State :=
  updateStats s.leafCount s.treeSize s.inLen (stateEnvelope s).length
    { writeOut (stateEnvelope s) s with
      outLen := BitVec.ofNat 32 (stateEnvelope s).length
      bits := BitVec.ofNat 32 (stateBits s).length
      dataOff := BitVec.ofNat 32 (12 + (serialize (arena s) s.leafCount.toNat).length) }

/-- The state ENV_PARSE's body leaves for an accepted header and arena (spec/44_decoder.md R202). -/
def parsedState (s : State) (h : Header) (ns : List Node) : State :=
  { loadArena ns (invInput s) with
    treeSize := BitVec.ofNat 32 h.size
    leafCount := BitVec.ofNat 32 h.leaves
    bits := BitVec.ofNat 32 h.bits
    dataOff := BitVec.ofNat 32 h.doff
    root := rootWord h.size
    treeV := true
    treeSrc := true }

/-- The state BIT_DECODE's body leaves when it emits `out` (spec/44_decoder.md R204). -/
def decodedState (s : State) (out : List Byte) : State :=
  { writeOut out s with outLen := BitVec.ofNat 32 out.length }

/-! ### countedState -/

@[simp] theorem countedState_cfg (s : State) : (countedState s).cfg = s.cfg := rfl
@[simp] theorem countedState_engine (s : State) : (countedState s).engine = s.engine := rfl
@[simp] theorem countedState_lastCmd (s : State) : (countedState s).lastCmd = s.lastCmd := rfl
@[simp] theorem countedState_done (s : State) : (countedState s).done = s.done := rfl
@[simp] theorem countedState_err (s : State) : (countedState s).err = s.err := rfl
@[simp] theorem countedState_wbusy (s : State) : (countedState s).wbusy = s.wbusy := rfl
@[simp] theorem countedState_freqV (s : State) : (countedState s).freqV = true := rfl
@[simp] theorem countedState_treeV (s : State) : (countedState s).treeV = false := rfl
@[simp] theorem countedState_treeSrc (s : State) : (countedState s).treeSrc = false := rfl
@[simp] theorem countedState_codesV (s : State) : (countedState s).codesV = false := rfl
@[simp] theorem countedState_doneIE (s : State) : (countedState s).doneIE = s.doneIE := rfl
@[simp] theorem countedState_errIE (s : State) : (countedState s).errIE = s.errIE := rfl
@[simp] theorem countedState_errCode (s : State) : (countedState s).errCode = s.errCode := rfl
@[simp] theorem countedState_errInfo (s : State) : (countedState s).errInfo = s.errInfo := rfl
@[simp] theorem countedState_inLen (s : State) : (countedState s).inLen = s.inLen := rfl
@[simp] theorem countedState_outLen (s : State) : (countedState s).outLen = s.outLen := rfl
@[simp] theorem countedState_treeSize (s : State) : (countedState s).treeSize = 0 := rfl
@[simp] theorem countedState_leafCount (s : State) : (countedState s).leafCount = 0 := rfl
@[simp] theorem countedState_bits (s : State) : (countedState s).bits = 0 := rfl
@[simp] theorem countedState_dataOff (s : State) : (countedState s).dataOff = 0 := rfl
@[simp] theorem countedState_root (s : State) : (countedState s).root = 0 := rfl
@[simp] theorem countedState_statLeaf (s : State) : (countedState s).statLeaf = s.statLeaf := rfl
@[simp] theorem countedState_statNodes (s : State) : (countedState s).statNodes = s.statNodes := rfl
@[simp] theorem countedState_statOrig (s : State) : (countedState s).statOrig = s.statOrig := rfl
@[simp] theorem countedState_statComp (s : State) : (countedState s).statComp = s.statComp := rfl
@[simp] theorem countedState_statRatio (s : State) : (countedState s).statRatio = s.statRatio := rfl
@[simp] theorem countedState_freq (s : State) : (countedState s).freq = countBytes (inputBytes s) := rfl
@[simp] theorem countedState_nodes (s : State) : (countedState s).nodes = s.nodes := rfl
@[simp] theorem countedState_codes (s : State) : (countedState s).codes = s.codes := rfl
@[simp] theorem countedState_inBuf (s : State) : (countedState s).inBuf = s.inBuf := rfl
@[simp] theorem countedState_outBuf (s : State) : (countedState s).outBuf = s.outBuf := rfl
@[simp] theorem countedState_schedule (s : State) : (countedState s).schedule = s.schedule := rfl
@[simp] theorem countedState_answer (s : State) : (countedState s).answer = s.answer := rfl
@[simp] theorem countedState_draws (s : State) : (countedState s).draws = s.draws := rfl
@[simp] theorem countedState_epoch (s : State) : (countedState s).epoch = s.epoch := rfl

/-! ### builtState -/

@[simp] theorem builtState_cfg (s : State) : (builtState s).cfg = s.cfg := rfl
@[simp] theorem builtState_engine (s : State) : (builtState s).engine = s.engine := rfl
@[simp] theorem builtState_lastCmd (s : State) : (builtState s).lastCmd = s.lastCmd := rfl
@[simp] theorem builtState_done (s : State) : (builtState s).done = s.done := rfl
@[simp] theorem builtState_err (s : State) : (builtState s).err = s.err := rfl
@[simp] theorem builtState_wbusy (s : State) : (builtState s).wbusy = s.wbusy := rfl
@[simp] theorem builtState_freqV (s : State) : (builtState s).freqV = s.freqV := rfl
@[simp] theorem builtState_treeV (s : State) : (builtState s).treeV = true := rfl
@[simp] theorem builtState_treeSrc (s : State) : (builtState s).treeSrc = false := rfl
@[simp] theorem builtState_codesV (s : State) : (builtState s).codesV = false := rfl
@[simp] theorem builtState_doneIE (s : State) : (builtState s).doneIE = s.doneIE := rfl
@[simp] theorem builtState_errIE (s : State) : (builtState s).errIE = s.errIE := rfl
@[simp] theorem builtState_errCode (s : State) : (builtState s).errCode = s.errCode := rfl
@[simp] theorem builtState_errInfo (s : State) : (builtState s).errInfo = s.errInfo := rfl
@[simp] theorem builtState_inLen (s : State) : (builtState s).inLen = s.inLen := rfl
@[simp] theorem builtState_outLen (s : State) : (builtState s).outLen = s.outLen := rfl
@[simp] theorem builtState_treeSize (s : State) :
    (builtState s).treeSize = BitVec.ofNat 32 (buildFromFrequencies s.freq).1.length := rfl
@[simp] theorem builtState_leafCount (s : State) :
    (builtState s).leafCount = BitVec.ofNat 32 (buildFromFrequencies s.freq).2 := rfl
@[simp] theorem builtState_bits (s : State) : (builtState s).bits = 0 := rfl
@[simp] theorem builtState_dataOff (s : State) : (builtState s).dataOff = 0 := rfl
@[simp] theorem builtState_root (s : State) : (builtState s).root = rootWord (buildFromFrequencies s.freq).1.length := rfl
@[simp] theorem builtState_statLeaf (s : State) : (builtState s).statLeaf = s.statLeaf := rfl
@[simp] theorem builtState_statNodes (s : State) : (builtState s).statNodes = s.statNodes := rfl
@[simp] theorem builtState_statOrig (s : State) : (builtState s).statOrig = s.statOrig := rfl
@[simp] theorem builtState_statComp (s : State) : (builtState s).statComp = s.statComp := rfl
@[simp] theorem builtState_statRatio (s : State) : (builtState s).statRatio = s.statRatio := rfl
@[simp] theorem builtState_freq (s : State) : (builtState s).freq = s.freq := rfl
@[simp] theorem builtState_nodes (s : State) :
    (builtState s).nodes = (buildFromFrequencies s.freq).1 ++ s.nodes.drop (buildFromFrequencies s.freq).1.length := rfl
@[simp] theorem builtState_codes (s : State) : (builtState s).codes = s.codes := rfl
@[simp] theorem builtState_inBuf (s : State) : (builtState s).inBuf = s.inBuf := rfl
@[simp] theorem builtState_outBuf (s : State) : (builtState s).outBuf = s.outBuf := rfl
@[simp] theorem builtState_schedule (s : State) : (builtState s).schedule = s.schedule := rfl
@[simp] theorem builtState_answer (s : State) : (builtState s).answer = s.answer := rfl
@[simp] theorem builtState_draws (s : State) : (builtState s).draws = s.draws := rfl
@[simp] theorem builtState_epoch (s : State) : (builtState s).epoch = s.epoch := rfl

/-! ### codedState -/

@[simp] theorem codedState_cfg (s : State) : (codedState s).cfg = s.cfg := rfl
@[simp] theorem codedState_engine (s : State) : (codedState s).engine = s.engine := rfl
@[simp] theorem codedState_lastCmd (s : State) : (codedState s).lastCmd = s.lastCmd := rfl
@[simp] theorem codedState_done (s : State) : (codedState s).done = s.done := rfl
@[simp] theorem codedState_err (s : State) : (codedState s).err = s.err := rfl
@[simp] theorem codedState_wbusy (s : State) : (codedState s).wbusy = s.wbusy := rfl
@[simp] theorem codedState_freqV (s : State) : (codedState s).freqV = s.freqV := rfl
@[simp] theorem codedState_treeV (s : State) : (codedState s).treeV = s.treeV := rfl
@[simp] theorem codedState_treeSrc (s : State) : (codedState s).treeSrc = s.treeSrc := rfl
@[simp] theorem codedState_codesV (s : State) : (codedState s).codesV = true := rfl
@[simp] theorem codedState_doneIE (s : State) : (codedState s).doneIE = s.doneIE := rfl
@[simp] theorem codedState_errIE (s : State) : (codedState s).errIE = s.errIE := rfl
@[simp] theorem codedState_errCode (s : State) : (codedState s).errCode = s.errCode := rfl
@[simp] theorem codedState_errInfo (s : State) : (codedState s).errInfo = s.errInfo := rfl
@[simp] theorem codedState_inLen (s : State) : (codedState s).inLen = s.inLen := rfl
@[simp] theorem codedState_outLen (s : State) : (codedState s).outLen = s.outLen := rfl
@[simp] theorem codedState_treeSize (s : State) : (codedState s).treeSize = s.treeSize := rfl
@[simp] theorem codedState_leafCount (s : State) : (codedState s).leafCount = s.leafCount := rfl
@[simp] theorem codedState_bits (s : State) : (codedState s).bits = s.bits := rfl
@[simp] theorem codedState_dataOff (s : State) : (codedState s).dataOff = s.dataOff := rfl
@[simp] theorem codedState_root (s : State) : (codedState s).root = s.root := rfl
@[simp] theorem codedState_statLeaf (s : State) : (codedState s).statLeaf = s.statLeaf := rfl
@[simp] theorem codedState_statNodes (s : State) : (codedState s).statNodes = s.statNodes := rfl
@[simp] theorem codedState_statOrig (s : State) : (codedState s).statOrig = s.statOrig := rfl
@[simp] theorem codedState_statComp (s : State) : (codedState s).statComp = s.statComp := rfl
@[simp] theorem codedState_statRatio (s : State) : (codedState s).statRatio = s.statRatio := rfl
@[simp] theorem codedState_freq (s : State) : (codedState s).freq = s.freq := rfl
@[simp] theorem codedState_nodes (s : State) : (codedState s).nodes = s.nodes := rfl
@[simp] theorem codedState_codes (s : State) : (codedState s).codes = codeTable (arena s) s.leafCount.toNat := rfl
@[simp] theorem codedState_inBuf (s : State) : (codedState s).inBuf = s.inBuf := rfl
@[simp] theorem codedState_outBuf (s : State) : (codedState s).outBuf = s.outBuf := rfl
@[simp] theorem codedState_schedule (s : State) : (codedState s).schedule = s.schedule := rfl
@[simp] theorem codedState_answer (s : State) : (codedState s).answer = s.answer := rfl
@[simp] theorem codedState_draws (s : State) : (codedState s).draws = s.draws := rfl
@[simp] theorem codedState_epoch (s : State) : (codedState s).epoch = s.epoch := rfl

/-! ### packedState -/

@[simp] theorem packedState_cfg (s : State) : (packedState s).cfg = s.cfg := rfl
@[simp] theorem packedState_engine (s : State) : (packedState s).engine = s.engine := rfl
@[simp] theorem packedState_lastCmd (s : State) : (packedState s).lastCmd = s.lastCmd := rfl
@[simp] theorem packedState_done (s : State) : (packedState s).done = s.done := rfl
@[simp] theorem packedState_err (s : State) : (packedState s).err = s.err := rfl
@[simp] theorem packedState_wbusy (s : State) : (packedState s).wbusy = s.wbusy := rfl
@[simp] theorem packedState_freqV (s : State) : (packedState s).freqV = s.freqV := rfl
@[simp] theorem packedState_treeV (s : State) : (packedState s).treeV = s.treeV := rfl
@[simp] theorem packedState_treeSrc (s : State) : (packedState s).treeSrc = s.treeSrc := rfl
@[simp] theorem packedState_codesV (s : State) : (packedState s).codesV = s.codesV := rfl
@[simp] theorem packedState_doneIE (s : State) : (packedState s).doneIE = s.doneIE := rfl
@[simp] theorem packedState_errIE (s : State) : (packedState s).errIE = s.errIE := rfl
@[simp] theorem packedState_errCode (s : State) : (packedState s).errCode = s.errCode := rfl
@[simp] theorem packedState_errInfo (s : State) : (packedState s).errInfo = s.errInfo := rfl
@[simp] theorem packedState_inLen (s : State) : (packedState s).inLen = s.inLen := rfl
@[simp] theorem packedState_outLen (s : State) : (packedState s).outLen = BitVec.ofNat 32 (stateEnvelope s).length := rfl
@[simp] theorem packedState_treeSize (s : State) : (packedState s).treeSize = s.treeSize := rfl
@[simp] theorem packedState_leafCount (s : State) : (packedState s).leafCount = s.leafCount := rfl
@[simp] theorem packedState_bits (s : State) : (packedState s).bits = BitVec.ofNat 32 (stateBits s).length := rfl
@[simp] theorem packedState_dataOff (s : State) :
    (packedState s).dataOff = BitVec.ofNat 32 (12 + (serialize (arena s) s.leafCount.toNat).length) := rfl
@[simp] theorem packedState_root (s : State) : (packedState s).root = s.root := rfl
@[simp] theorem packedState_statLeaf (s : State) : (packedState s).statLeaf = s.leafCount := rfl
@[simp] theorem packedState_statNodes (s : State) : (packedState s).statNodes = s.treeSize := rfl
@[simp] theorem packedState_statOrig (s : State) : (packedState s).statOrig = s.inLen := rfl
@[simp] theorem packedState_statComp (s : State) : (packedState s).statComp = BitVec.ofNat 32 (stateEnvelope s).length := rfl
@[simp] theorem packedState_statRatio (s : State) :
    (packedState s).statRatio = ratioQ16 (stateEnvelope s).length s.inLen.toNat := rfl
@[simp] theorem packedState_freq (s : State) : (packedState s).freq = s.freq := rfl
@[simp] theorem packedState_nodes (s : State) : (packedState s).nodes = s.nodes := rfl
@[simp] theorem packedState_codes (s : State) : (packedState s).codes = s.codes := rfl
@[simp] theorem packedState_inBuf (s : State) : (packedState s).inBuf = s.inBuf := rfl
@[simp] theorem packedState_outBuf (s : State) : (packedState s).outBuf = s.outBuf.writeBytes 0 (stateEnvelope s) := rfl
@[simp] theorem packedState_schedule (s : State) : (packedState s).schedule = s.schedule := rfl
@[simp] theorem packedState_answer (s : State) : (packedState s).answer = s.answer := rfl
@[simp] theorem packedState_draws (s : State) : (packedState s).draws = s.draws := rfl
@[simp] theorem packedState_epoch (s : State) : (packedState s).epoch = s.epoch := rfl

/-! ### parsedState -/

@[simp] theorem parsedState_cfg (s : State) (h : Header) (ns : List Node) : (parsedState s h ns).cfg = s.cfg := rfl
@[simp] theorem parsedState_engine (s : State) (h : Header) (ns : List Node) : (parsedState s h ns).engine = s.engine := rfl
@[simp] theorem parsedState_lastCmd (s : State) (h : Header) (ns : List Node) :
    (parsedState s h ns).lastCmd = s.lastCmd := rfl
@[simp] theorem parsedState_done (s : State) (h : Header) (ns : List Node) : (parsedState s h ns).done = s.done := rfl
@[simp] theorem parsedState_err (s : State) (h : Header) (ns : List Node) : (parsedState s h ns).err = s.err := rfl
@[simp] theorem parsedState_wbusy (s : State) (h : Header) (ns : List Node) : (parsedState s h ns).wbusy = s.wbusy := rfl
@[simp] theorem parsedState_freqV (s : State) (h : Header) (ns : List Node) : (parsedState s h ns).freqV = false := rfl
@[simp] theorem parsedState_treeV (s : State) (h : Header) (ns : List Node) : (parsedState s h ns).treeV = true := rfl
@[simp] theorem parsedState_treeSrc (s : State) (h : Header) (ns : List Node) : (parsedState s h ns).treeSrc = true := rfl
@[simp] theorem parsedState_codesV (s : State) (h : Header) (ns : List Node) : (parsedState s h ns).codesV = false := rfl
@[simp] theorem parsedState_doneIE (s : State) (h : Header) (ns : List Node) : (parsedState s h ns).doneIE = s.doneIE := rfl
@[simp] theorem parsedState_errIE (s : State) (h : Header) (ns : List Node) : (parsedState s h ns).errIE = s.errIE := rfl
@[simp] theorem parsedState_errCode (s : State) (h : Header) (ns : List Node) :
    (parsedState s h ns).errCode = s.errCode := rfl
@[simp] theorem parsedState_errInfo (s : State) (h : Header) (ns : List Node) :
    (parsedState s h ns).errInfo = s.errInfo := rfl
@[simp] theorem parsedState_inLen (s : State) (h : Header) (ns : List Node) : (parsedState s h ns).inLen = s.inLen := rfl
@[simp] theorem parsedState_outLen (s : State) (h : Header) (ns : List Node) : (parsedState s h ns).outLen = s.outLen := rfl
@[simp] theorem parsedState_treeSize (s : State) (h : Header) (ns : List Node) :
    (parsedState s h ns).treeSize = BitVec.ofNat 32 h.size := rfl
@[simp] theorem parsedState_leafCount (s : State) (h : Header) (ns : List Node) :
    (parsedState s h ns).leafCount = BitVec.ofNat 32 h.leaves := rfl
@[simp] theorem parsedState_bits (s : State) (h : Header) (ns : List Node) :
    (parsedState s h ns).bits = BitVec.ofNat 32 h.bits := rfl
@[simp] theorem parsedState_dataOff (s : State) (h : Header) (ns : List Node) :
    (parsedState s h ns).dataOff = BitVec.ofNat 32 h.doff := rfl
@[simp] theorem parsedState_root (s : State) (h : Header) (ns : List Node) :
    (parsedState s h ns).root = rootWord h.size := rfl
@[simp] theorem parsedState_statLeaf (s : State) (h : Header) (ns : List Node) :
    (parsedState s h ns).statLeaf = s.statLeaf := rfl
@[simp] theorem parsedState_statNodes (s : State) (h : Header) (ns : List Node) :
    (parsedState s h ns).statNodes = s.statNodes := rfl
@[simp] theorem parsedState_statOrig (s : State) (h : Header) (ns : List Node) :
    (parsedState s h ns).statOrig = s.statOrig := rfl
@[simp] theorem parsedState_statComp (s : State) (h : Header) (ns : List Node) :
    (parsedState s h ns).statComp = s.statComp := rfl
@[simp] theorem parsedState_statRatio (s : State) (h : Header) (ns : List Node) :
    (parsedState s h ns).statRatio = s.statRatio := rfl
@[simp] theorem parsedState_freq (s : State) (h : Header) (ns : List Node) : (parsedState s h ns).freq = s.freq := rfl
@[simp] theorem parsedState_nodes (s : State) (h : Header) (ns : List Node) :
    (parsedState s h ns).nodes = ns ++ s.nodes.drop ns.length := rfl
@[simp] theorem parsedState_codes (s : State) (h : Header) (ns : List Node) : (parsedState s h ns).codes = s.codes := rfl
@[simp] theorem parsedState_inBuf (s : State) (h : Header) (ns : List Node) : (parsedState s h ns).inBuf = s.inBuf := rfl
@[simp] theorem parsedState_outBuf (s : State) (h : Header) (ns : List Node) : (parsedState s h ns).outBuf = s.outBuf := rfl
@[simp] theorem parsedState_schedule (s : State) (h : Header) (ns : List Node) :
    (parsedState s h ns).schedule = s.schedule := rfl
@[simp] theorem parsedState_answer (s : State) (h : Header) (ns : List Node) : (parsedState s h ns).answer = s.answer := rfl
@[simp] theorem parsedState_draws (s : State) (h : Header) (ns : List Node) : (parsedState s h ns).draws = s.draws := rfl
@[simp] theorem parsedState_epoch (s : State) (h : Header) (ns : List Node) : (parsedState s h ns).epoch = s.epoch := rfl

/-! ### decodedState -/

@[simp] theorem decodedState_cfg (s : State) (out : List Byte) : (decodedState s out).cfg = s.cfg := rfl
@[simp] theorem decodedState_engine (s : State) (out : List Byte) : (decodedState s out).engine = s.engine := rfl
@[simp] theorem decodedState_lastCmd (s : State) (out : List Byte) : (decodedState s out).lastCmd = s.lastCmd := rfl
@[simp] theorem decodedState_done (s : State) (out : List Byte) : (decodedState s out).done = s.done := rfl
@[simp] theorem decodedState_err (s : State) (out : List Byte) : (decodedState s out).err = s.err := rfl
@[simp] theorem decodedState_wbusy (s : State) (out : List Byte) : (decodedState s out).wbusy = s.wbusy := rfl
@[simp] theorem decodedState_freqV (s : State) (out : List Byte) : (decodedState s out).freqV = s.freqV := rfl
@[simp] theorem decodedState_treeV (s : State) (out : List Byte) : (decodedState s out).treeV = s.treeV := rfl
@[simp] theorem decodedState_treeSrc (s : State) (out : List Byte) : (decodedState s out).treeSrc = s.treeSrc := rfl
@[simp] theorem decodedState_codesV (s : State) (out : List Byte) : (decodedState s out).codesV = s.codesV := rfl
@[simp] theorem decodedState_doneIE (s : State) (out : List Byte) : (decodedState s out).doneIE = s.doneIE := rfl
@[simp] theorem decodedState_errIE (s : State) (out : List Byte) : (decodedState s out).errIE = s.errIE := rfl
@[simp] theorem decodedState_errCode (s : State) (out : List Byte) : (decodedState s out).errCode = s.errCode := rfl
@[simp] theorem decodedState_errInfo (s : State) (out : List Byte) : (decodedState s out).errInfo = s.errInfo := rfl
@[simp] theorem decodedState_inLen (s : State) (out : List Byte) : (decodedState s out).inLen = s.inLen := rfl
@[simp] theorem decodedState_outLen (s : State) (out : List Byte) :
    (decodedState s out).outLen = BitVec.ofNat 32 out.length := rfl
@[simp] theorem decodedState_treeSize (s : State) (out : List Byte) : (decodedState s out).treeSize = s.treeSize := rfl
@[simp] theorem decodedState_leafCount (s : State) (out : List Byte) : (decodedState s out).leafCount = s.leafCount := rfl
@[simp] theorem decodedState_bits (s : State) (out : List Byte) : (decodedState s out).bits = s.bits := rfl
@[simp] theorem decodedState_dataOff (s : State) (out : List Byte) : (decodedState s out).dataOff = s.dataOff := rfl
@[simp] theorem decodedState_root (s : State) (out : List Byte) : (decodedState s out).root = s.root := rfl
@[simp] theorem decodedState_statLeaf (s : State) (out : List Byte) : (decodedState s out).statLeaf = s.statLeaf := rfl
@[simp] theorem decodedState_statNodes (s : State) (out : List Byte) : (decodedState s out).statNodes = s.statNodes := rfl
@[simp] theorem decodedState_statOrig (s : State) (out : List Byte) : (decodedState s out).statOrig = s.statOrig := rfl
@[simp] theorem decodedState_statComp (s : State) (out : List Byte) : (decodedState s out).statComp = s.statComp := rfl
@[simp] theorem decodedState_statRatio (s : State) (out : List Byte) : (decodedState s out).statRatio = s.statRatio := rfl
@[simp] theorem decodedState_freq (s : State) (out : List Byte) : (decodedState s out).freq = s.freq := rfl
@[simp] theorem decodedState_nodes (s : State) (out : List Byte) : (decodedState s out).nodes = s.nodes := rfl
@[simp] theorem decodedState_codes (s : State) (out : List Byte) : (decodedState s out).codes = s.codes := rfl
@[simp] theorem decodedState_inBuf (s : State) (out : List Byte) : (decodedState s out).inBuf = s.inBuf := rfl
@[simp] theorem decodedState_outBuf (s : State) (out : List Byte) :
    (decodedState s out).outBuf = s.outBuf.writeBytes 0 out := rfl
@[simp] theorem decodedState_schedule (s : State) (out : List Byte) : (decodedState s out).schedule = s.schedule := rfl
@[simp] theorem decodedState_answer (s : State) (out : List Byte) : (decodedState s out).answer = s.answer := rfl
@[simp] theorem decodedState_draws (s : State) (out : List Byte) : (decodedState s out).draws = s.draws := rfl
@[simp] theorem decodedState_epoch (s : State) (out : List Byte) : (decodedState s out).epoch = s.epoch := rfl

end Sys2Proof.Machine
end

