-- ==== Sys2Proof/Laws/Exec.lean ====
section
/-! SUPPORT. What a command can do, said once: `exec` is the completion step around a body, and each body succeeds
exactly under its checks, with exactly its writes, or raises exactly its errors in their order. -/

namespace Sys2Proof.Machine

/-! ### Checks -/

theorem bind_ok_iff {α β : Type} {x : Except Raise α} {f : α → Except Raise β} {b : β} :
    (x >>= f) = .ok b ↔ ∃ a, x = .ok a ∧ f a = .ok b := by
  cases x <;> simp [Bind.bind, Except.bind]

theorem bind_error_iff {α β : Type} {x : Except Raise α} {f : α → Except Raise β} {e : Raise} :
    (x >>= f) = .error e ↔ x = .error e ∨ ∃ a, x = .ok a ∧ f a = .error e := by
  cases x <;> simp [Bind.bind, Except.bind]

theorem ok_iff {a t : State} : (Except.ok a : Body) = .ok t ↔ t = a :=
  ⟨fun h => by injection h with h; exact h.symm, fun h => by rw [h]⟩

@[simp] theorem raiseUnless_ok_iff {c : Bool} {r : Raise} {u : Unit} : raiseUnless c r = .ok u ↔ c = true := by
  cases c <;> simp [raiseUnless]

@[simp] theorem raiseUnless_error_iff {c : Bool} {r e : Raise} :
    raiseUnless c r = .error e ↔ c = false ∧ e = r := by
  cases c <;> simp [raiseUnless, eq_comm]

@[simp] theorem checkInLen_ok_iff {s : State} {u : Unit} : checkInLen s = .ok u ↔ s.inLen.toNat ≤ s.cfg.inCap := by
  simp [checkInLen]

@[simp] theorem checkInLen_error_iff {s : State} {e : Raise} :
    checkInLen s = .error e ↔ s.cfg.inCap < s.inLen.toNat ∧ e = ⟨.lenRange, s.inLen⟩ := by
  simp [checkInLen]

@[simp] theorem require_ok_iff {c : Bool} {o : Byte} {u : Unit} : require c o = .ok u ↔ c = true := by
  simp [require]

@[simp] theorem require_error_iff {c : Bool} {o : Byte} {e : Raise} :
    require c o = .error e ↔ c = false ∧ e = ⟨.sequence, o.setWidth 32⟩ := by
  simp [require]

/-! ### The completion step around a body -/

/-- `Exec_<MNEMONIC>` of a command on its own (spec/40_control.md R123). -/
def bodyOf : Instr → State → Body
  | .nop => nopBody
  | .clear => clearBody
  | .encode => encodeBody (Instr.opcode .encode)
  | .decode => decodeBody (Instr.opcode .decode)
  | .freqCount => freqCountBody
  | .treeBuild => treeBuildBody (Instr.opcode .treeBuild)
  | .codeGen => codeGenBody (Instr.opcode .codeGen)
  | .envPack => envPackBody (Instr.opcode .envPack)
  | .envParse => envParseBody
  | .bitDecode => bitDecodeBody (Instr.opcode .bitDecode)

theorem exec_eq (i : Instr) (s : State) : exec i s = .next (complete s (bodyOf i s)) := by
  cases i <;> rfl

@[simp] theorem complete_ok (s0 s1 : State) : complete s0 (.ok s1) = completeOk s1 := rfl
@[simp] theorem complete_error (s0 : State) (r : Raise) : complete s0 (.error r) = takeError r s0 := rfl

/-- A command's next state is the completion of its body: on success of the body's state, on a raise the error taken
from the state before. -/
theorem exec_next_cases {i : Instr} {s t : State} (h : exec i s = .next t) :
    (∃ s1, bodyOf i s = .ok s1 ∧ t = completeOk s1) ∨ (∃ r, bodyOf i s = .error r ∧ t = takeError r s) := by
  rw [exec_eq] at h
  injection h with h
  subst h
  cases hb : bodyOf i s with
  | ok s1 => exact .inl ⟨s1, rfl, rfl⟩
  | error r => exact .inr ⟨r, rfl, rfl⟩

theorem exec_of_body_ok {i : Instr} {s s1 : State} (h : bodyOf i s = .ok s1) : exec i s = .next (completeOk s1) := by
  rw [exec_eq, h]; rfl

theorem exec_of_body_error {i : Instr} {s : State} {r : Raise} (h : bodyOf i s = .error r) :
    exec i s = .next (takeError r s) := by
  rw [exec_eq, h]; rfl

/-! ### What the operand readers depend on -/

theorem inByte_congr {s t : State} (hb : t.inBuf = s.inBuf) (he : t.epoch = s.epoch) : inByte t = inByte s := by
  funext k; simp [inByte, hb, he]

theorem outByte_congr {s t : State} (hb : t.outBuf = s.outBuf) (he : t.epoch = s.epoch) : outByte t = outByte s := by
  funext k; simp [outByte, hb, he]

theorem inputBytes_congr {s t : State} (hb : t.inBuf = s.inBuf) (he : t.epoch = s.epoch) (hl : t.inLen = s.inLen) :
    inputBytes t = inputBytes s := by
  simp [inputBytes, hl, inByte_congr hb he]

theorem arena_congr {s t : State} (hn : t.nodes = s.nodes) (hz : t.treeSize = s.treeSize) : arena t = arena s := by
  have : node t = node s := by funext i; simp [node, hn]
  simp [arena, hz, this]

/-- After `NODE[0..n-1]` and TREE_SIZE are written, `NODE[0..TREE_SIZE-1]` is what was written. -/
theorem arena_of_loaded {t : State} {ns rest : List Node} (hn : t.nodes = ns ++ rest)
    (hz : t.treeSize.toNat = ns.length) : arena t = ns := by
  refine List.ext_getElem (by simp [arena, hz]) fun i h1 h2 => ?_
  simp [arena, node, hn, List.getElem?_append_left h2, h2]

/-! ### The bodies -/

theorem freqCountBody_ok_iff {s t : State} :
    freqCountBody s = .ok t ↔ s.inLen.toNat ≤ s.cfg.inCap ∧ t = countedState s := by
  have : inputBytes (invTree s) = inputBytes s := rfl
  simp only [freqCountBody, bind_ok_iff, checkInLen_ok_iff, ok_iff, this, exists_const, countedState]

theorem freqCountBody_error_iff {s : State} {e : Raise} :
    freqCountBody s = .error e ↔ s.cfg.inCap < s.inLen.toNat ∧ e = ⟨.lenRange, s.inLen⟩ := by
  simp [freqCountBody, bind_error_iff]

theorem treeBuildBody_ok_iff {o : Byte} {s t : State} :
    treeBuildBody o s = .ok t ↔ s.freqV = true ∧ t = builtState s := by
  simp only [treeBuildBody, bind_ok_iff, require_ok_iff, ok_iff, invTree_freq, exists_const, builtState]

theorem treeBuildBody_error_iff {o : Byte} {s : State} {e : Raise} :
    treeBuildBody o s = .error e ↔ s.freqV = false ∧ e = ⟨.sequence, o.setWidth 32⟩ := by
  simp [treeBuildBody, bind_error_iff]

theorem codeGenBody_ok_iff {o : Byte} {s t : State} :
    codeGenBody o s = .ok t ↔ s.treeV = true ∧ t = codedState s := by
  simp only [codeGenBody, bind_ok_iff, require_ok_iff, ok_iff, exists_const, codedState]

theorem codeGenBody_error_iff {o : Byte} {s : State} {e : Raise} :
    codeGenBody o s = .error e ↔ s.treeV = false ∧ e = ⟨.sequence, o.setWidth 32⟩ := by
  simp [codeGenBody, bind_error_iff]

theorem envPackBody_ok_iff {o : Byte} {s t : State} :
    envPackBody o s = .ok t ↔ (s.codesV = true ∧ s.treeSrc = false) ∧ (stateEnvelope s).length ≤ s.cfg.outCap ∧
      t = packedState s := by
  simp only [envPackBody, bind_ok_iff, require_ok_iff, raiseUnless_ok_iff, ok_iff, packedState, exists_const]
  simp

theorem envPackBody_error_iff {o : Byte} {s : State} {e : Raise} :
    envPackBody o s = .error e ↔
      ((s.codesV && !s.treeSrc) = false ∧ e = ⟨.sequence, o.setWidth 32⟩) ∨
      ((s.codesV && !s.treeSrc) = true ∧ s.cfg.outCap < (stateEnvelope s).length ∧
        e = ⟨.outOverflow, BitVec.ofNat 32 (stateEnvelope s).length⟩) := by
  simp only [envPackBody, bind_error_iff, require_error_iff, require_ok_iff, raiseUnless_error_iff]
  simp

theorem encodeBody_ok_iff {o : Byte} {s t : State} :
    encodeBody o s = .ok t ↔ s.inLen.toNat ≤ s.cfg.inCap ∧
      ∃ s1 s2 s3, freqCountBody (clearDerived s) = .ok s1 ∧ treeBuildBody o s1 = .ok s2 ∧
        codeGenBody o s2 = .ok s3 ∧ envPackBody o s3 = .ok t := by
  simp [encodeBody, bind_ok_iff]

theorem encodeBody_error_iff {o : Byte} {s : State} {e : Raise} :
    encodeBody o s = .error e ↔
      (s.cfg.inCap < s.inLen.toNat ∧ e = ⟨.lenRange, s.inLen⟩) ∨
      (s.inLen.toNat ≤ s.cfg.inCap ∧ ∃ s1 s2 s3, freqCountBody (clearDerived s) = .ok s1 ∧
        treeBuildBody o s1 = .ok s2 ∧ codeGenBody o s2 = .ok s3 ∧ envPackBody o s3 = .error e) := by
  unfold encodeBody
  simp only [bind_error_iff, checkInLen_error_iff, checkInLen_ok_iff, freqCountBody_error_iff,
    treeBuildBody_error_iff, codeGenBody_error_iff]
  constructor
  · rintro (h | ⟨_, h1, h | ⟨s1, hs1, h | ⟨s2, hs2, h | ⟨s3, hs3, h⟩⟩⟩⟩)
    · exact .inl h
    · exact absurd h.1 (Nat.not_lt.2 h1)
    · obtain ⟨_, rfl⟩ := freqCountBody_ok_iff.1 hs1
      simp [countedState] at h
    · obtain ⟨_, rfl⟩ := treeBuildBody_ok_iff.1 hs2
      simp [builtState] at h
    · exact .inr ⟨h1, s1, s2, s3, hs1, hs2, hs3, h⟩
  · rintro (h | ⟨h1, s1, s2, s3, hs1, hs2, hs3, h⟩)
    · exact .inl h
    · exact .inr ⟨(), h1, .inr ⟨s1, hs1, .inr ⟨s2, hs2, .inr ⟨s3, hs3, h⟩⟩⟩⟩

theorem envParseBody_ok_iff {s t : State} :
    envParseBody s = .ok t ↔ s.inLen.toNat ≤ s.cfg.inCap ∧
      ∃ h ns, parseHeader (inByte s) s.inLen.toNat = .ok h ∧ reconstruct (inByte s) h.size h.leaves = .ok ns ∧
        t = parsedState s h ns := by
  have : inByte (invInput s) = inByte s := rfl
  simp only [envParseBody, bind_ok_iff, checkInLen_ok_iff, invInput_inLen, this, parsedState]
  constructor
  · rintro ⟨_, h1, h, h2, ns, h3, h4⟩
    exact ⟨h1, h, ns, h2, h3, by injection h4 with h4; exact h4.symm⟩
  · rintro ⟨h1, h, ns, h2, h3, rfl⟩
    exact ⟨(), h1, h, h2, ns, h3, rfl⟩

theorem envParseBody_error_iff {s : State} {e : Raise} :
    envParseBody s = .error e ↔
      (s.cfg.inCap < s.inLen.toNat ∧ e = ⟨.lenRange, s.inLen⟩) ∨
      (s.inLen.toNat ≤ s.cfg.inCap ∧ (parseHeader (inByte s) s.inLen.toNat = .error e ∨
        ∃ h, parseHeader (inByte s) s.inLen.toNat = .ok h ∧ reconstruct (inByte s) h.size h.leaves = .error e)) := by
  have : inByte (invInput s) = inByte s := rfl
  simp only [envParseBody, bind_error_iff, checkInLen_error_iff, checkInLen_ok_iff, invInput_inLen, this]
  simp

/-- The bytes ENV_PARSE-d bits walk to, or the error of the walk or of its end (spec/44_decoder.md R204). -/
def walkAll (s : State) : Except Raise Walk := walkBits s 0 (packedBits s) ⟨s.treeSize.toNat - 1, []⟩

theorem bitDecodeBody_ok_iff {o : Byte} {s t : State} :
    bitDecodeBody o s = .ok t ↔ (s.treeV = true ∧ s.treeSrc = true) ∧
      s.dataOff.toNat + ceil8 s.bits.toNat ≤ s.inLen.toNat ∧ (s.treeSize = 0 → s.bits.toNat = 0) ∧
      ∃ w, walkAll s = .ok w ∧ (2 ≤ s.treeSize.toNat → w.ptr = s.treeSize.toNat - 1) ∧
        t = decodedState s w.out := by
  simp only [bitDecodeBody, bind_ok_iff, require_ok_iff, raiseUnless_ok_iff, ok_iff, walkAll, exists_const, decodedState]
  simp [imp_iff_not_or]

theorem bitDecodeBody_error_iff {o : Byte} {s : State} {e : Raise} :
    bitDecodeBody o s = .error e ↔
      ((s.treeV && s.treeSrc) = false ∧ e = ⟨.sequence, o.setWidth 32⟩) ∨
      ((s.treeV && s.treeSrc) = true ∧ (
        (s.inLen.toNat < s.dataOff.toNat + ceil8 s.bits.toNat ∧
          e = ⟨.fmtShort, BitVec.ofNat 32 (s.dataOff.toNat + ceil8 s.bits.toNat)⟩) ∨
        (s.dataOff.toNat + ceil8 s.bits.toNat ≤ s.inLen.toNat ∧ (
          ((s.treeSize = 0 ∧ 0 < s.bits.toNat) ∧ e = ⟨.fmtBadCode, 0⟩) ∨
          ((s.treeSize = 0 → s.bits.toNat = 0) ∧ (walkAll s = .error e ∨
            ∃ w, walkAll s = .ok w ∧ (2 ≤ s.treeSize.toNat ∧ w.ptr ≠ s.treeSize.toNat - 1) ∧
              e = ⟨.fmtTruncated, s.bits⟩)))))) := by
  simp only [bitDecodeBody, bind_error_iff, require_ok_iff, require_error_iff, raiseUnless_ok_iff,
    raiseUnless_error_iff, walkAll]
  simp [imp_iff_not_or]

theorem decodeBody_ok_iff {o : Byte} {s t : State} :
    decodeBody o s = .ok t ↔ s.inLen.toNat ≤ s.cfg.inCap ∧
      ∃ s1, envParseBody (clearDerived s) = .ok s1 ∧ bitDecodeBody o s1 = .ok t := by
  simp [decodeBody, bind_ok_iff]

theorem decodeBody_error_iff {o : Byte} {s : State} {e : Raise} :
    decodeBody o s = .error e ↔
      (s.cfg.inCap < s.inLen.toNat ∧ e = ⟨.lenRange, s.inLen⟩) ∨
      (s.inLen.toNat ≤ s.cfg.inCap ∧ (envParseBody (clearDerived s) = .error e ∨
        ∃ s1, envParseBody (clearDerived s) = .ok s1 ∧ bitDecodeBody o s1 = .error e)) := by
  simp only [decodeBody, bind_error_iff, checkInLen_error_iff, checkInLen_ok_iff]
  simp

/-! ### The step -/

/-- What one step can be: the engine's completion, a transaction, or a reset (spec/20_memory.md R72). -/
theorem step_cases (s : State) :
    (∃ i, step s = exec i { s with schedule := s.schedule.tail } ∧ ∃ w, s.engine = .busy w ∧ Sys2Proof.decode w = .ok i) ∨
    (∃ w, step s = .next (illegalCommand w { s with schedule := s.schedule.tail }) ∧ s.engine = .busy w) ∨
    (step s = .next { s with schedule := s.schedule.tail } ∧ s.engine = .idle) ∨
    (∃ r, step s = .next (transact r { s with schedule := s.schedule.tail })) ∨
    step s = .next (resetBlock { s with schedule := s.schedule.tail }) := by
  have engine : ∀ u : State, (∃ i, engineStep u = exec i u ∧ ∃ w, u.engine = .busy w ∧ Sys2Proof.decode w = .ok i) ∨
      (∃ w, engineStep u = .next (illegalCommand w u) ∧ u.engine = .busy w) ∨
      (engineStep u = .next u ∧ u.engine = .idle) := by
    intro u
    unfold engineStep
    cases hu : u.engine with
    | idle => simp
    | busy w => cases hd : Sys2Proof.decode w <;> simp [hd]
  cases hs : s.schedule with
  | nil =>
    have hsame : { s with schedule := ([] : List Event) } = s := by cases s; simp_all
    have : step s = engineStep s := by simp [step, hs]
    rw [this, List.tail_nil, hsame]
    rcases engine s with h | h | h
    · exact .inl h
    · exact .inr (.inl h)
    · exact .inr (.inr (.inl h))
  | cons ev rest =>
    cases ev with
    | engine =>
      have : step s = engineStep { s with schedule := rest } := by simp [step, hs]
      rw [this, List.tail_cons]
      rcases engine { s with schedule := rest } with h | h | h
      · exact .inl h
      · exact .inr (.inl h)
      · exact .inr (.inr (.inl h))
    | host r => exact .inr (.inr (.inr (.inl ⟨r, by simp [step, hs]⟩)))
    | reset => exact .inr (.inr (.inr (.inr (by simp [step, hs]))))

/-- Reset memory has the canonical form. -/
theorem reset_memory_wf : State.reset.inBuf.wf ∧ State.reset.outBuf.wf := by
  simp [State.reset, State.resetOf, Memory.wf]

end Sys2Proof.Machine
end

