-- ==== Sys2Proof/Laws/Walk.lean ====
section
/-! SUPPORT. The decode walk (spec/44_decoder.md R204, R206, R207): what it does with a whole path, with a part of one, with a
sequence of them, and on a single leaf. -/

namespace Sys2Proof.Machine

@[simp] theorem arena_length (s : State) : (arena s).length = s.treeSize.toNat := by simp [arena]

@[simp] theorem arena_getElem (s : State) (i : Nat) (h : i < (arena s).length) : (arena s)[i] = node s i := by simp [arena]

theorem walkBits_append (s : State) (k : Nat) (xs ys : List Bool) (w : Walk) :
    walkBits s k (xs ++ ys) w =
      (match walkBits s k xs w with
        | .error e => .error e
        | .ok w' => walkBits s (k + xs.length) ys w') := by
  induction xs generalizing k w with
  | nil => simp [walkBits]
  | cons b xs ih =>
    rw [List.cons_append, walkBits, walkBits]
    cases walkBit s k b w with
    | error e => rfl
    | ok w' => simp only [ih, List.length_cons]; rw [show k + 1 + xs.length = k + (xs.length + 1) by omega]

section Tree

variable {s : State} (h2 : 2 ≤ s.treeSize.toNat) (ht : TreeOk (arena s) s.leafCount.toNat)
include h2 ht

/-- A step from an internal node to an internal node moves the pointer. -/
theorem walkBit_internal {j : Nat} {b : Bool} (k : Nat) (out : List Byte)
    (hc : s.leafCount.toNat ≤ walkChild b (node s j)) (hcs : walkChild b (node s j) < s.treeSize.toNat) :
    walkBit s k b ⟨j, out⟩ = .ok ⟨walkChild b (node s j), out⟩ := by
  have hl := ht.notLeaf_of_le hc (by simpa using hcs)
  rw [arena_getElem] at hl
  simp only [walkBit]
  rw [if_neg (by omega), if_neg (by simp [hl])]

/-- A step onto a leaf emits its symbol and returns to the root. -/
theorem walkBit_leaf {j : Nat} {b : Bool} (k : Nat) (out : List Byte) (hc : walkChild b (node s j) < s.leafCount.toNat) :
    walkBit s k b ⟨j, out⟩ =
      emit s.cfg.outCap (nodePayload (node s (walkChild b (node s j)))) k ⟨s.treeSize.toNat - 1, out⟩ := by
  have hl := ht.isLeaf_of_lt hc
  rw [arena_getElem] at hl
  simp only [walkBit]
  rw [if_neg (by omega), if_pos hl]

/-- A part of a path that ends at an internal node leaves the pointer there. -/
theorem walkBits_partial {j i : Nat} {p : Path} (k : Nat) (out : List Byte) (hd : descend (arena s) j p = some i)
    (hi : s.leafCount.toNat ≤ i) : walkBits s k p ⟨j, out⟩ = .ok ⟨i, out⟩ := by
  induction p generalizing j k with
  | nil => simp at hd; simp [walkBits, hd]
  | cons b p ih =>
    obtain ⟨hj, hl, hd⟩ := descend_cons hd
    rw [arena_getElem] at hd hl
    have hbelow := ht.below j hj (walkChild b (node s j)) (by rw [arena_getElem]; exact walkChild_mem hl b)
    rw [arena_length] at hj
    have hge : s.leafCount.toNat ≤ walkChild b (node s j) := by
      have := ht.descend_le hd
      omega
    rw [walkBits, walkBit_internal h2 ht k out hge (by omega)]
    exact ih (k + 1) hd

/-- A path to a leaf emits its symbol at its last bit, or overflows there. -/
theorem walkBits_path {j i : Nat} {p : Path} (k : Nat) (out : List Byte) (hd : descend (arena s) j p = some i)
    (hi : i < s.leafCount.toNat) (hp : p ≠ []) :
    walkBits s k p ⟨j, out⟩ =
      emit s.cfg.outCap (nodePayload (node s i)) (k + p.length - 1) ⟨s.treeSize.toNat - 1, out⟩ := by
  induction p generalizing j k with
  | nil => exact absurd rfl hp
  | cons b p ih =>
    obtain ⟨hj, hl, hd⟩ := descend_cons hd
    rw [arena_getElem] at hd hl
    have hbelow := ht.below j hj (walkChild b (node s j)) (by rw [arena_getElem]; exact walkChild_mem hl b)
    rw [arena_length] at hj
    rw [walkBits]
    cases p with
    | nil =>
      simp only [descend_nil, Option.some.injEq] at hd
      rw [walkBit_leaf h2 ht k out (by omega), hd]
      simp only [List.length_cons, List.length_nil, Nat.zero_add, Nat.add_sub_cancel]
      cases emit s.cfg.outCap (nodePayload (node s i)) k ⟨s.treeSize.toNat - 1, out⟩ <;> rfl
    | cons b' p' =>
      have hge : s.leafCount.toNat ≤ walkChild b (node s j) := by
        by_contra hlt
        exact absurd (ht.descend_leaf (Nat.not_le.1 hlt) hd) (by simp)
      rw [walkBit_internal h2 ht k out hge (by omega)]
      simp only
      rw [ih (k + 1) hd (by simp)]
      congr 1
      simp only [List.length_cons]
      omega

/-- The root of a tree of two or more nodes is no leaf, so a path to a leaf is not empty. -/
theorem path_ne_nil {i : Nat} {p : Path} (hd : descend (arena s) (s.treeSize.toNat - 1) p = some i)
    (hi : i < s.leafCount.toNat) : p ≠ [] := by
  rintro rfl
  have := ht.root_internal (by simpa using h2)
  simp at hd this
  omega

/-- A sequence of paths to leaves emits their symbols in order, as long as they fit. -/
theorem walkBits_paths (ps : List (Path × Nat)) (k : Nat) (out : List Byte)
    (hps : ∀ p ∈ ps, p.2 < s.leafCount.toNat ∧ descend (arena s) (s.treeSize.toNat - 1) p.1 = some p.2)
    (hfit : out.length + ps.length ≤ s.cfg.outCap) :
    walkBits s k (ps.map Prod.fst).flatten ⟨s.treeSize.toNat - 1, out⟩ =
      .ok ⟨s.treeSize.toNat - 1, out ++ ps.map fun p => nodePayload (node s p.2)⟩ := by
  induction ps generalizing k out with
  | nil => simp [walkBits]
  | cons p ps ih =>
    obtain ⟨hi, hd⟩ := hps p List.mem_cons_self
    simp only [List.length_cons] at hfit
    rw [List.map_cons, List.flatten_cons, walkBits_append, walkBits_path h2 ht k out hd hi (path_ne_nil h2 ht hd hi)]
    simp only [emit]
    rw [if_neg (by omega)]
    simp only
    rw [ih _ _ (fun q hq => hps q (List.mem_cons_of_mem _ hq)) (by simp; omega)]
    simp

end Tree

/-- Zeros on a single leaf emit its symbol, each once. -/
theorem walkBits_zeros {s : State} (h1 : s.treeSize.toNat = 1) (n k : Nat) (w : Walk)
    (hfit : w.out.length + n ≤ s.cfg.outCap) :
    walkBits s k (List.replicate n false) w =
      .ok ⟨w.ptr, w.out ++ List.replicate n (nodePayload (node s 0))⟩ := by
  induction n generalizing k w with
  | zero => simp [walkBits]
  | succ n ih =>
    rw [List.replicate_succ, walkBits]
    simp only [walkBit, h1, if_true, Bool.false_eq_true, if_false, emit]
    rw [if_neg (by omega)]
    simp only
    rw [ih (k + 1) _ (by simp; omega)]
    simp [List.replicate_succ]

/-- What the walk can raise. -/
theorem walkBits_error_cause {s : State} {bs : List Bool} {k : Nat} {w : Walk} {e : Raise} (h : walkBits s k bs w = .error e) :
    (e.cause = .fmtBadCode ∧ s.treeSize.toNat = 1) ∨ e.cause = .outOverflow := by
  induction bs generalizing k w with
  | nil => simp [walkBits] at h
  | cons b bs ih =>
    rw [walkBits] at h
    cases hw : walkBit s k b w with
    | ok w' => rw [hw] at h; exact ih h
    | error e' =>
      rw [hw] at h
      injection h with h
      subst h
      simp only [walkBit, emit] at hw
      split at hw
      · rename_i h1
        split at hw
        · injection hw with hw; exact .inl ⟨by rw [← hw], h1⟩
        · split at hw
          · injection hw with hw; exact .inr (by rw [← hw])
          · simp at hw
      · split at hw
        · split at hw
          · injection hw with hw; exact .inr (by rw [← hw])
          · simp at hw
        · simp at hw

/-- The walk never emits more than OUT_CAP bytes. -/
theorem walkBits_out_le {s : State} {bs : List Bool} {k : Nat} {w w' : Walk} (h : walkBits s k bs w = .ok w')
    (hw : w.out.length ≤ s.cfg.outCap) : w'.out.length ≤ s.cfg.outCap := by
  induction bs generalizing k w with
  | nil => simp only [walkBits, Except.ok.injEq] at h; exact h ▸ hw
  | cons b bs ih =>
    rw [walkBits] at h
    cases h1 : walkBit s k b w with
    | error e => simp [h1] at h
    | ok w1 =>
      rw [h1] at h
      refine ih h ?_
      simp only [walkBit, emit] at h1
      split at h1
      · split at h1
        · simp at h1
        · split at h1
          · simp at h1
          · injection h1 with h1; rw [← h1]; simp; omega
      · split at h1
        · split at h1
          · simp at h1
          · injection h1 with h1; rw [← h1]; simp only at *; simp; omega
        · injection h1 with h1; rw [← h1]; exact hw

end Sys2Proof.Machine
end

