-- ==== Sys2Proof/Laws/Commands.lean ====
section
/-! SUPPORT. What the outcome of a command says: success or an error, what no body touches, how the output and the tree
registers read after the writes of a body, and the state ENCODE packs. -/

namespace Sys2Proof.Machine

/-! ### Numbers -/

theorem toNat_ofNat_of_lt {n : Nat} (h : n < 2 ^ 32) : (BitVec.ofNat 32 n).toNat = n := by
  rw [BitVec.toNat_ofNat, Nat.mod_eq_of_lt h]

theorem toNat_eq_zero_iff {w : Word} : w.toNat = 0 ↔ w = 0 :=
  ⟨fun h => BitVec.eq_of_toNat_eq h, fun h => by rw [h]; rfl⟩

theorem inCap_bounds (c : Config) : c.inCap % 4 = 0 ∧ 16 ≤ c.inCap ∧ c.inCap ≤ 2 ^ 24 := by
  have := c.inCap_ok
  simp only [capOk, Bool.and_eq_true, beq_iff_eq, decide_eq_true_eq] at this
  omega

theorem outCap_bounds (c : Config) : c.outCap % 4 = 0 ∧ 16 ≤ c.outCap ∧ c.outCap ≤ 2 ^ 24 := by
  have := c.outCap_ok
  simp only [capOk, Bool.and_eq_true, beq_iff_eq, decide_eq_true_eq] at this
  omega

theorem rootWord_toNat {n : Nat} (h : n ≤ 2 ^ 31) : (rootWord n).toNat = if 1 ≤ n then 2 ^ 31 + (n - 1) else 0 := by
  simp only [rootWord]
  split
  · exact toNat_ofNat_of_lt (by omega)
  · rfl

theorem ratioQ16_toNat (c o : Nat) :
    (ratioQ16 c o).toNat = if o = 0 then 0xFFFFFFFF else min (c * 65536 / o) 0xFFFFFFFF := by
  simp only [ratioQ16]
  split
  · rfl
  · rw [toNat_ofNat_of_lt (by omega)]; rfl

/-! ### Success and error -/

theorem causeCode_ne_zero (c : ErrorCause) : causeCode c ≠ 0 := by cases c <;> decide

theorem takeError_eq (r : Raise) (s : State) : takeError r s = afterError (causeCode r.cause) r.info s := rfl

theorem body_of_success {i : Instr} {s t : State} (h : exec i s = .next t) (he : t.errCode = 0) :
    ∃ s1, bodyOf i s = .ok s1 ∧ t = completeOk s1 := by
  rcases exec_next_cases h with h | ⟨r, _, rfl⟩
  · exact h
  · exact absurd he (causeCode_ne_zero r.cause)

theorem body_of_failure {i : Instr} {s t : State} (h : exec i s = .next t) (he : t.errCode ≠ 0) :
    ∃ r, bodyOf i s = .error r ∧ t = takeError r s := by
  rcases exec_next_cases h with ⟨s1, _, rfl⟩ | h
  · exact absurd rfl he
  · exact h

/-- What no body touches (spec/60_exceptions.md R236, spec/10_state.md R47). -/
theorem body_frame {i : Instr} {s s1 : State} (h : bodyOf i s = .ok s1) :
    s1.err = s.err ∧ s1.cfg = s.cfg ∧ s1.lastCmd = s.lastCmd ∧ s1.wbusy = s.wbusy ∧ s1.doneIE = s.doneIE ∧
    s1.errIE = s.errIE ∧ s1.inLen = s.inLen ∧ s1.inBuf = s.inBuf ∧ s1.schedule = s.schedule ∧ s1.answer = s.answer ∧
    s1.draws = s.draws ∧ s1.epoch = s.epoch := by
  cases i <;> simp only [bodyOf] at h
  · injection h with h; subst h; simp
  · injection h with h; subst h; simp
  · obtain ⟨_, a, b, c, h1, h2, h3, h4⟩ := encodeBody_ok_iff.1 h
    obtain ⟨_, rfl⟩ := freqCountBody_ok_iff.1 h1
    obtain ⟨_, rfl⟩ := treeBuildBody_ok_iff.1 h2
    obtain ⟨_, rfl⟩ := codeGenBody_ok_iff.1 h3
    obtain ⟨_, _, rfl⟩ := envPackBody_ok_iff.1 h4
    simp
  · obtain ⟨_, a, h1, h2⟩ := decodeBody_ok_iff.1 h
    obtain ⟨_, hh, ns, _, _, rfl⟩ := envParseBody_ok_iff.1 h1
    obtain ⟨_, _, _, w, _, _, rfl⟩ := bitDecodeBody_ok_iff.1 h2
    simp
  · obtain ⟨_, rfl⟩ := freqCountBody_ok_iff.1 h; simp
  · obtain ⟨_, rfl⟩ := treeBuildBody_ok_iff.1 h; simp
  · obtain ⟨_, rfl⟩ := codeGenBody_ok_iff.1 h; simp
  · obtain ⟨_, _, rfl⟩ := envPackBody_ok_iff.1 h; simp
  · obtain ⟨_, hh, ns, _, _, rfl⟩ := envParseBody_ok_iff.1 h; simp
  · obtain ⟨_, _, _, w, _, _, rfl⟩ := bitDecodeBody_ok_iff.1 h; simp

/-! ### Output -/

theorem outByte_of_written {s t : State} {e : List Byte} (h : t.outBuf = s.outBuf.writeBytes 0 e) (he : t.epoch = s.epoch)
    (k : Nat) : outByte t k = if h : k < e.length then e[k] else outByte s k := by
  simp only [outByte, h, he, Memory.read?_writeBytes]
  by_cases hk : k < e.length <;> simp [hk]

theorem outputBytes_of_written {s t : State} {e : List Byte} (h : t.outBuf = s.outBuf.writeBytes 0 e)
    (he : t.epoch = s.epoch) (hl : t.outLen.toNat = e.length) : outputBytes t = e := by
  refine List.ext_getElem (by simp [outputBytes, hl]) fun i h1 h2 => ?_
  simp [outputBytes, outByte_of_written h he, h2]

/-- How the output reads after BIT_DECODE's writes. -/
theorem output_of_decoded {s : State} {out : List Byte} (h : out.length ≤ s.cfg.outCap) :
    outputBytes (completeOk (decodedState s out)) = out ∧
    (completeOk (decodedState s out)).outLen.toNat = out.length ∧
    (∀ k, out.length ≤ k → outByte (completeOk (decodedState s out)) k = outByte s k) := by
  have hc := outCap_bounds s.cfg
  have ho : (completeOk (decodedState s out)).outBuf = s.outBuf.writeBytes 0 out := by simp
  have he : (completeOk (decodedState s out)).epoch = s.epoch := by simp
  have hol : (completeOk (decodedState s out)).outLen.toNat = out.length := by
    rw [completeOk_outLen, decodedState_outLen, toNat_ofNat_of_lt (by omega)]
  exact ⟨outputBytes_of_written ho he hol, hol, fun k hk => by rw [outByte_of_written ho he, dif_neg (by omega)]⟩

theorem stateEnvelope_length (s : State) :
    (stateEnvelope s).length = 12 + (serialize (arena s) s.leafCount.toNat).length + ceil8 (stateBits s).length := by
  simp [stateEnvelope, envelope]
  omega

/-- How the output and the registers read after ENV_PACK's writes. -/
theorem output_of_packed {s : State} (hfit : (stateEnvelope s).length ≤ s.cfg.outCap) :
    outputBytes (completeOk (packedState s)) = stateEnvelope s ∧
    (completeOk (packedState s)).outLen.toNat = (stateEnvelope s).length ∧
    (∀ k, (stateEnvelope s).length ≤ k → outByte (completeOk (packedState s)) k = outByte s k) ∧
    (completeOk (packedState s)).bits.toNat = (stateBits s).length ∧
    (completeOk (packedState s)).dataOff.toNat = 12 + (serialize (arena s) s.leafCount.toNat).length := by
  have hc := outCap_bounds s.cfg
  have hl := stateEnvelope_length s
  have hb : (stateBits s).length ≤ 8 * ceil8 (stateBits s).length := by simp only [ceil8]; omega
  have ho : (completeOk (packedState s)).outBuf = s.outBuf.writeBytes 0 (stateEnvelope s) := by simp
  have he : (completeOk (packedState s)).epoch = s.epoch := by simp
  have hol : (completeOk (packedState s)).outLen.toNat = (stateEnvelope s).length := by
    rw [completeOk_outLen, packedState_outLen, toNat_ofNat_of_lt (by omega)]
  refine ⟨outputBytes_of_written ho he hol, hol, fun k hk => ?_, ?_, ?_⟩
  · rw [outByte_of_written ho he, dif_neg (by omega)]
  · rw [completeOk_bits, packedState_bits, toNat_ofNat_of_lt (by omega)]
  · rw [completeOk_dataOff, packedState_dataOff, toNat_ofNat_of_lt (by omega)]

/-! ### The tree registers -/

theorem arena_builtState (s : State) : arena (builtState s) = (buildFromFrequencies s.freq).1 := by
  have := (buildFromFrequencies_treeOk s.freq).length_le
  exact arena_of_loaded rfl (toNat_ofNat_of_lt (by omega))

theorem leafCount_builtState (s : State) : (builtState s).leafCount.toNat = (buildFromFrequencies s.freq).2 := by
  have := (buildFromFrequencies_treeOk s.freq).l_le
  exact toNat_ofNat_of_lt (by omega)

/-- The bounds of an accepted header (spec/44_decoder.md R200, R201). -/
theorem parseHeader_ok {buf : Nat → Byte} {len : Nat} {h : Header} (hp : parseHeader buf len = .ok h) :
    headerOk h.size h.leaves = true ∧ h.size ≤ 511 ∧ h.leaves ≤ 256 ∧ h.bits < 2 ^ 32 ∧
    h.doff = 12 + h.leaves + 4 * (h.size - h.leaves) ∧ h.doff ≤ len ∧ 12 ≤ len := by
  simp only [parseHeader] at hp
  split at hp
  · simp at hp
  · split at hp
    · rename_i hk
      split at hp
      · simp at hp
      · injection hp with hp
        subst hp
        have := headerOk_iff.1 hk
        exact ⟨hk, by simp only; omega, by simp only; omega, rdLE32_lt buf 8, rfl, by simp only at *; omega, by omega⟩
    · simp at hp

/-- How the tree registers read after ENV_PARSE's writes. -/
theorem registers_of_parsed {s : State} {h : Header} {ns : List Node}
    (hp : parseHeader (inByte s) s.inLen.toNat = .ok h) (hr : reconstruct (inByte s) h.size h.leaves = .ok ns) :
    arena (parsedState s h ns) = ns ∧ TreeOk ns h.leaves ∧ (parsedState s h ns).treeSize.toNat = h.size ∧
    (parsedState s h ns).leafCount.toNat = h.leaves ∧ (parsedState s h ns).bits.toNat = h.bits ∧
    (parsedState s h ns).dataOff.toNat = h.doff := by
  obtain ⟨hk, h1, h2, h3, h4, _⟩ := parseHeader_ok hp
  have hns := reconstruct_eq_records hr
  obtain ⟨r, _, rfl, hok⟩ := reconstruct_ok hr
  have hz : (parsedState s h r.nodes).treeSize.toNat = h.size := toNat_ofNat_of_lt (by omega)
  exact ⟨arena_of_loaded rfl (by rw [hz, hns, recordsOf_length]), treeOk_of_reconOk hk hok, hz,
    toNat_ofNat_of_lt (by omega), toNat_ofNat_of_lt (by omega), toNat_ofNat_of_lt (by omega)⟩

/-! ### ENCODE up to ENV_PACK -/

/-- The state ENCODE's ENV_PACK starts from (spec/43_encoder.md R185). -/
def encodedState (s : State) : State := codedState (builtState (countedState (clearDerived s)))

theorem inputBytes_encodedState (s : State) : inputBytes (encodedState s) = inputBytes s :=
  inputBytes_congr (by simp [encodedState]) (by simp [encodedState]) (by simp [encodedState])

theorem inputBytes_clearDerived (s : State) : inputBytes (clearDerived s) = inputBytes s :=
  inputBytes_congr (by simp) (by simp) (by simp)

theorem arena_encodedState (s : State) : arena (encodedState s) = (inputTree (inputBytes s)).1 := by
  have : arena (encodedState s) = arena (builtState (countedState (clearDerived s))) :=
    arena_congr (by simp [encodedState]) (by simp [encodedState])
  rw [this, arena_builtState, countedState_freq, inputBytes_clearDerived, inputTree]

theorem leafCount_encodedState (s : State) : (encodedState s).leafCount.toNat = (inputTree (inputBytes s)).2 := by
  rw [encodedState, codedState_leafCount, leafCount_builtState, countedState_freq, inputBytes_clearDerived, inputTree]

theorem freq_encodedState (s : State) : (encodedState s).freq = countBytes (inputBytes s) := by
  rw [encodedState, codedState_freq, builtState_freq, countedState_freq, inputBytes_clearDerived]

theorem root_encodedState (s : State) : (encodedState s).root = rootWord (inputTree (inputBytes s)).1.length := by
  rw [encodedState, codedState_root, builtState_root, countedState_freq, inputBytes_clearDerived, inputTree]

theorem codes_encodedState (s : State) : (encodedState s).codes = inputCodes (inputBytes s) := by
  rw [encodedState, codedState_codes, arena_builtState, leafCount_builtState, countedState_freq, inputBytes_clearDerived,
    inputCodes, inputTree]

theorem stateBits_encodedState (s : State) :
    stateBits (encodedState s) = bitSeq (inputCodes (inputBytes s)) (inputBytes s) := by
  rw [stateBits, codes_encodedState, inputBytes_encodedState]

theorem stateEnvelope_encodedState (s : State) : stateEnvelope (encodedState s) = inputEnvelope (inputBytes s) := by
  rw [stateEnvelope, stateBits_encodedState, arena_encodedState, leafCount_encodedState, inputEnvelope]

/-- The three staged bodies before ENV_PACK succeed inside ENCODE, and lead to `encodedState`. -/
theorem encode_stages {o : Byte} {s : State} (h : s.inLen.toNat ≤ s.cfg.inCap) :
    ∃ s1 s2, freqCountBody (clearDerived s) = .ok s1 ∧ treeBuildBody o s1 = .ok s2 ∧
      codeGenBody o s2 = .ok (encodedState s) :=
  ⟨_, _, freqCountBody_ok_iff.2 ⟨h, rfl⟩, treeBuildBody_ok_iff.2 ⟨rfl, rfl⟩, codeGenBody_ok_iff.2 ⟨rfl, rfl⟩⟩

/-- When ENCODE's body succeeds, and with what. -/
theorem encodeBody_ok_iff_fits {o : Byte} {s t : State} :
    encodeBody o s = .ok t ↔ s.inLen.toNat ≤ s.cfg.inCap ∧ (inputEnvelope (inputBytes s)).length ≤ s.cfg.outCap ∧
      t = packedState (encodedState s) := by
  rw [encodeBody_ok_iff]
  constructor
  · rintro ⟨h, s1, s2, s3, h1, h2, h3, h4⟩
    obtain ⟨_, rfl⟩ := freqCountBody_ok_iff.1 h1
    obtain ⟨_, rfl⟩ := treeBuildBody_ok_iff.1 h2
    obtain ⟨_, rfl⟩ := codeGenBody_ok_iff.1 h3
    obtain ⟨_, h5, rfl⟩ := envPackBody_ok_iff.1 h4
    change (stateEnvelope (encodedState s)).length ≤ _ at h5
    rw [stateEnvelope_encodedState] at h5
    exact ⟨h, h5, rfl⟩
  · rintro ⟨h, h5, rfl⟩
    obtain ⟨s1, s2, h1, h2, h3⟩ := encode_stages (o := o) h
    exact ⟨h, s1, s2, _, h1, h2, h3,
      envPackBody_ok_iff.2 ⟨⟨rfl, rfl⟩, by rw [stateEnvelope_encodedState]; exact h5, rfl⟩⟩

end Sys2Proof.Machine
end

