-- ==== Sys2Proof/Laws/Loaded.lean ====
section
/-! SUPPORT. An envelope as bytes, and an envelope loaded as the input of a machine: its bytes by offset, its header and
records as the decoder reads them, its data bits, and the leaf of each input byte. -/

namespace Sys2Proof.Machine

theorem envelope_length (nodes : List Node) (l : Nat) (b : List Bool) :
    (envelope nodes l b).length = 12 + (serialize nodes l).length + ceil8 b.length := by
  simp [envelope]
  omega

/-- The bytes of an envelope, by offset (spec/30_encoding.md R100 to R102). -/
theorem envelope_getD (nodes : List Node) (l : Nat) (b : List Bool) (k : Nat) :
    (envelope nodes l b).getD k 0 =
      if k < 4 then (le32 (BitVec.ofNat 32 nodes.length)).getD k 0
      else if k < 8 then (le32 (BitVec.ofNat 32 l)).getD (k - 4) 0
      else if k < 12 then (le32 (BitVec.ofNat 32 b.length)).getD (k - 8) 0
      else if k < 12 + (serialize nodes l).length then (serialize nodes l).getD (k - 12) 0
      else (pack b).getD (k - 12 - (serialize nodes l).length) 0 := by
  simp only [envelope, List.append_assoc]
  split
  · rw [List.getD_append _ _ _ _ (by simpa using ‹_›)]
  rw [List.getD_append_right _ _ _ _ (by simp; omega)]
  split
  · rw [List.getD_append _ _ _ _ (by simp; omega)]; simp
  rw [List.getD_append_right _ _ _ _ (by simp; omega)]
  split
  · rw [List.getD_append _ _ _ _ (by simp; omega)]; simp [Nat.sub_sub]
  rw [List.getD_append_right _ _ _ _ (by simp; omega)]
  split
  · rw [List.getD_append _ _ _ _ (by simp; omega)]; simp [Nat.sub_sub]
  rw [List.getD_append_right _ _ _ _ (by simp; omega)]
  simp [Nat.sub_sub]

/-- A byte of a loaded input. -/
theorem HoldsInput.byte {u : State} {e : List Byte} (h : HoldsInput u e) {k : Nat} (hk : k < e.length) :
    inByte u k = e.getD k 0 := by
  have h2 : (inputBytes u)[k]? = e[k]? := by rw [h.bytes]
  simp [inputBytes, h.len, hk] at h2
  simp [hk, h2]

/-- How the decoder reads the header and the tree region of a loaded envelope, whole or cut inside its data. -/
theorem HoldsInput.parse {u : State} {nodes : List Node} {l : Nat} {b : List Bool} {e : List Byte} (h : HoldsInput u e)
    (ht : TreeOk nodes l) (hb : b.length < 2 ^ 32) (he : e <+: envelope nodes l b)
    (hlen : 12 + (serialize nodes l).length ≤ e.length) :
    parseHeader (inByte u) u.inLen.toNat = .ok ⟨nodes.length, l, b.length, 12 + (serialize nodes l).length⟩ ∧
    recordsOf (inByte u) nodes.length l = nodes.map withoutFreq := by
  have hby : ∀ k, k < e.length → inByte u k = (envelope nodes l b).getD k 0 := by
    intro k hk
    rw [h.byte hk]
    obtain ⟨t, ht⟩ := he
    rw [← ht, List.getD_append _ _ _ _ hk]
  have hs := serialize_length nodes l
  have hn := ht.length_le
  have hl := ht.l_le
  have hll := ht.le_length
  have h1 : rdLE32 (inByte u) 0 = nodes.length := by
    rw [rdLE32_of_le32 (v := BitVec.ofNat 32 nodes.length), toNat_ofNat_of_lt (by omega)]
    intro j hj
    rw [hby _ (by omega), envelope_getD, if_pos (by omega)]
    simp
  have h2 : rdLE32 (inByte u) 4 = l := by
    rw [rdLE32_of_le32 (v := BitVec.ofNat 32 l), toNat_ofNat_of_lt (by omega)]
    intro j hj
    rw [hby _ (by omega), envelope_getD, if_neg (by omega), if_pos (by omega)]
    simp
  have h3 : rdLE32 (inByte u) 8 = b.length := by
    rw [rdLE32_of_le32 (v := BitVec.ofNat 32 b.length), toNat_ofNat_of_lt hb]
    intro j hj
    rw [hby _ (by omega), envelope_getD, if_neg (by omega), if_neg (by omega), if_pos (by omega)]
    simp
  refine ⟨?_, recordsOf_serialize ht fun k hk => ?_⟩
  · have hho : headerOk nodes.length l = true := by
      rw [headerOk_iff]
      have := ht.size
      omega
    have hL := h.len
    have hd : 12 + l + 4 * (nodes.length - l) = 12 + (serialize nodes l).length := by rw [hs]; omega
    simp only [parseHeader, h1, h2, h3, hho, hd, if_true]
    rw [if_neg (by omega), if_neg (by omega)]
  · rw [hby _ (by omega), envelope_getD, if_neg (by omega), if_neg (by omega), if_neg (by omega), if_pos (by omega)]
    congr 1
    omega

/-- The data bits of a loaded envelope (spec/44_decoder.md R203). -/
theorem HoldsInput.data {u : State} {nodes : List Node} {l : Nat} {b : List Bool} (h : HoldsInput u (envelope nodes l b)) :
    b = (List.range b.length).map fun k =>
      (inByte u (12 + (serialize nodes l).length + k / 8)).getLsbD (k % 8) := by
  refine List.ext_getElem (by simp) fun k h1 h2 => ?_
  simp only [List.getElem_map, List.getElem_range]
  have hL := envelope_length nodes l b
  rw [h.byte (by rw [hL]; simp only [ceil8]; omega), envelope_getD, if_neg (by omega), if_neg (by omega),
    if_neg (by omega), if_neg (by omega),
    show 12 + (serialize nodes l).length + k / 8 - 12 - (serialize nodes l).length = k / 8 by omega, pack_bit h1]

theorem inputTree_treeOk (x : List Byte) : TreeOk (inputTree x).1 (inputTree x).2 := buildFromFrequencies_treeOk _

/-- Every byte of an input is the symbol of a leaf of its tree. -/
theorem leaf_of_inputByte {x : List Byte} (hx : x.length < 2 ^ 32) {b : Byte} (hb : b ∈ x) :
    ∃ i, ∃ hi : i < (inputTree x).2,
      nodePayload ((inputTree x).1[i]'(Nat.lt_of_lt_of_le hi (inputTree_treeOk x).le_length)) = b := by
  have hfront := buildFromFrequencies_front (countBytes x)
  have hc : entry (countBytes x) b ≠ 0#32 := by
    simp only [countBytes, entry_tableOf]
    intro h0
    have h0 := congrArg BitVec.toNat h0
    have hle := List.count_le_length (a := b) (l := x)
    rw [toNat_ofNat_of_lt (by omega)] at h0
    have := List.count_pos_iff.2 hb
    simp at h0
    omega
  have hm : Node.leaf b (entry (countBytes x) b) ∈ leavesOf (countBytes x) := by
    simp only [leavesOf, List.mem_map, List.mem_filter]
    exact ⟨b, ⟨mem_allSymbols b, by simpa using hc⟩, rfl⟩
  rw [← hfront] at hm
  obtain ⟨i, hi, hg⟩ := List.getElem_of_mem hm
  have hi' : i < (inputTree x).2 := Nat.lt_of_lt_of_le hi (List.length_take_le _ _)
  refine ⟨i, hi', ?_⟩
  rw [List.getElem_take] at hg
  have : (inputTree x).1[i]'(Nat.lt_of_lt_of_le hi' (inputTree_treeOk x).le_length) =
      Node.leaf b (entry (countBytes x) b) := hg
  rw [this]
  rfl

/-- The bit sequence of an input fits the header's 32-bit field (spec/43_encoder.md R180). -/
theorem length_bitSeq_lt {x : List Byte} (hx : x.length ≤ 2 ^ 24) : (bitSeq (inputCodes x) x).length < 2 ^ 32 := by
  have hcode : ∀ b, (entry (inputCodes x) b).length ≤ 255 := by
    intro b
    by_cases hne : entry (inputCodes x) b = []
    · rw [hne]; simp
    · obtain ⟨i, hi, rfl⟩ := leaf_of_code (inputTree_treeOk x) hne
      have := codeTable_leaf (inputTree_treeOk x) hi
      unfold inputCodes
      rw [this]
      split
      · simp
      · have := (pathOf_tree (inputTree_treeOk x) (by have := (inputTree_treeOk x).size; omega) hi).2.2
        have := (inputTree_treeOk x).l_le
        omega
  have hall : ∀ y : List Byte, (bitSeq (inputCodes x) y).length ≤ 255 * y.length := by
    intro y
    induction y with
    | nil => simp [bitSeq]
    | cons a y ih =>
      simp only [bitSeq, List.flatMap_cons, List.length_append, List.length_cons] at ih ⊢
      have := hcode a
      omega
  have := hall x
  omega

/-- Frequencies do not matter to a descent. -/
theorem descend_withoutFreq (nodes : List Node) (i : Nat) (p : Path) :
    descend (nodes.map withoutFreq) i p = descend nodes i p := by
  induction p generalizing i with
  | nil => rfl
  | cons b p ih =>
    simp only [descend, List.getElem?_map]
    cases nodes[i]? with
    | none => rfl
    | some n => cases n <;> simp [withoutFreq, ih]

end Sys2Proof.Machine
end

