-- ==== Sys2Proof/Laws/Bus.lean ====
section
/-! SUPPORT. The host port: where each offset of the map leads (spec/10_state.md R43), and the bits of a window word. -/

namespace Sys2Proof.Machine

theorem isBusy_of_busy {s : State} {w : Word} (h : s.engine = .busy w) : isBusy s = true := by simp [isBusy, h]

theorem isBusy_of_idle {s : State} (h : s.engine = .idle) : isBusy s = false := by simp [isBusy, h]

theorem aligned_iff {a : Addr} : aligned a = true ↔ a.toNat % 4 = 0 := by
  simp only [aligned, beq_iff_eq]
  constructor
  · intro h
    have := congrArg BitVec.toNat h
    simpa [BitVec.extractLsb'_toNat] using this
  · intro h
    apply BitVec.eq_of_toNat_eq
    simpa [BitVec.extractLsb'_toNat] using h

/-! ### What each region of the map leads to (spec/10_state.md R43) -/

theorem targetAt_inWin {c : Config} {a : Nat} (h1 : 0x1000000 ≤ a) (h2 : a < 0x1000000 + c.inCap) :
    targetAt c a = .inWin (a - 0x1000000) := by
  unfold targetAt
  split_ifs <;> first | rfl | omega

theorem targetAt_outWin {c : Config} {a : Nat} (h1 : 0x2000000 ≤ a) (h2 : a < 0x2000000 + c.outCap) :
    targetAt c a = .outWin (a - 0x2000000) := by
  have := inCap_bounds c
  unfold targetAt
  split_ifs <;> first | rfl | omega

theorem targetAt_freqWin {c : Config} (b : Byte) : targetAt c (0x1000 + 4 * b.toNat) = .freqWin b := by
  have hb := b.isLt
  have h4 : (0x1000 + 4 * b.toNat - 0x1000) / 4 = b.toNat := by omega
  unfold targetAt
  split_ifs <;> first | (rw [h4, BitVec.ofNat_toNat, BitVec.setWidth_eq]) | omega

theorem targetAt_nodeWin {c : Config} {i w : Nat} (hi : i < 512) (hw : w < 4) :
    targetAt c (0x2000 + 16 * i + 4 * w) = .nodeWin i w := by
  have h1 : (0x2000 + 16 * i + 4 * w - 0x2000) / 16 = i := by omega
  have h2 : (0x2000 + 16 * i + 4 * w - 0x2000) / 4 % 4 = w := by omega
  unfold targetAt
  split_ifs <;> first | (rw [h1, h2]) | omega

theorem targetAt_codeWin {c : Config} (b : Byte) {w : Nat} (hw : w < 16) :
    targetAt c (0x4000 + 64 * b.toNat + 4 * w) = .codeWin b w := by
  have hb := b.isLt
  have h1 : (0x4000 + 64 * b.toNat + 4 * w - 0x4000) / 64 = b.toNat := by omega
  have h2 : (0x4000 + 64 * b.toNat + 4 * w - 0x4000) / 4 % 16 = w := by omega
  unfold targetAt
  split_ifs <;> first | (rw [h1, h2, BitVec.ofNat_toNat, BitVec.setWidth_eq]) | omega

/-- The offsets below 0x1000 that name no register. -/
theorem registerAt_reserved {a : Nat} (h : a = 0x0C ∨ 0x54 ≤ a) : registerAt a = .reserved := by
  unfold registerAt
  split <;> first | omega | rfl

/-- The reserved ranges of R43. -/
theorem targetAt_reserved {c : Config} {a : Nat}
    (h : a = 0x0C ∨ (0x54 ≤ a ∧ a < 0x1000) ∨ (0x1400 ≤ a ∧ a < 0x2000) ∨ (0x8000 ≤ a ∧ a < 0x1000000) ∨
      (0x1000000 + c.inCap ≤ a ∧ a < 0x2000000) ∨ 0x2000000 + c.outCap ≤ a) : targetAt c a = .reserved := by
  have := inCap_bounds c
  unfold targetAt
  split_ifs <;> first | exact registerAt_reserved (by omega) | rfl | omega

/-- The registers that read a draw while BUSY (spec/10_state.md R50). -/
theorem unspecifiedWhileBusy_registerAt {a : Nat} (h4 : a % 4 = 0) (h : a = 0x1C ∨ a = 0x20 ∨ (0x28 ≤ a ∧ a ≤ 0x50)) :
    unspecifiedWhileBusy (registerAt a) = true := by
  have : a = 0x1C ∨ a = 0x20 ∨ a = 0x28 ∨ a = 0x2C ∨ a = 0x30 ∨ a = 0x34 ∨ a = 0x38 ∨ a = 0x3C ∨ a = 0x40 ∨ a = 0x44 ∨
      a = 0x48 ∨ a = 0x4C ∨ a = 0x50 := by omega
  rcases this with h | h | h | h | h | h | h | h | h | h | h | h | h <;> subst h <;> rfl

/-- What reads a draw while BUSY (spec/10_state.md R50), by the ranges of R43. -/
theorem unspecifiedWhileBusy_targetAt {c : Config} {a : Nat} (h4 : a % 4 = 0)
    (h : a = 0x1C ∨ a = 0x20 ∨ (0x28 ≤ a ∧ a ≤ 0x50) ∨ (0x1000 ≤ a ∧ a < 0x1400) ∨ (0x2000 ≤ a ∧ a < 0x4000) ∨
      (0x4000 ≤ a ∧ a < 0x8000) ∨ (0x2000000 ≤ a ∧ a < 0x2000000 + c.outCap)) :
    unspecifiedWhileBusy (targetAt c a) = true := by
  have := inCap_bounds c
  unfold targetAt
  split_ifs <;> first | exact unspecifiedWhileBusy_registerAt h4 (by omega) | rfl | omega

/-- Only an offset of the IN window leads to it. -/
theorem lt_of_targetAt_inWin {c : Config} {a k : Nat} (h : targetAt c a = .inWin k) :
    a = 0x1000000 + k ∧ k < c.inCap := by
  unfold targetAt at h
  repeat' split at h
  case isTrue =>
    unfold registerAt at h
    repeat' split at h
    all_goals simp at h
  all_goals first
    | (simp only [Target.inWin.injEq] at h; omega)
    | simp at h

/-! ### Words as bytes and as bits -/

/-- Byte `j` of a window word (spec/20_memory.md R63, R64). -/
theorem wordOfBytes_byte (b0 b1 b2 b3 : Byte) {j : Nat} (hj : j < 4) :
    (wordOfBytes b0 b1 b2 b3).extractLsb' (8 * j) 8 = [b0, b1, b2, b3].getD j 0 := by
  apply BitVec.eq_of_getLsbD_eq
  intro i hi
  simp only [wordOfBytes, BitVec.getLsbD_extractLsb', BitVec.getLsbD_append]
  interval_cases j <;> interval_cases i <;> simp

theorem bitAt_getLsbD {j i : Nat} (hi : i < 32) (b : Bool) : (bitAt j b).getLsbD i = (b && decide (i = j)) := by
  cases b
  · simp [bitAt]
  · simp only [bitAt, if_true, BitVec.getLsbD_shiftLeft, BitVec.getLsbD_one, Bool.true_and, hi, decide_true]
    by_cases h1 : i = j
    · subst h1; simp
    · by_cases h2 : i < j
      · simp [h1, h2]
      · simp [h1, h2]
        omega

/-- Bit `j` of a word made of bits. -/
theorem wordOfBits_getLsbD (f : Nat → Bool) {j : Nat} (hj : j < 32) : (wordOfBits f).getLsbD j = f j := by
  have key : ∀ (l : List Nat) (acc : Word), (l.foldl (fun acc i => acc ||| bitAt i (f i)) acc).getLsbD j =
      (acc.getLsbD j || l.any fun i => f i && decide (j = i)) := by
    intro l
    induction l with
    | nil => simp
    | cons i l ih =>
      intro acc
      rw [List.foldl_cons, ih, BitVec.getLsbD_or, bitAt_getLsbD hj, List.any_cons, Bool.or_assoc]
  rw [wordOfBits, key]
  simp only [BitVec.getLsbD_zero, Bool.false_or]
  cases hf : f j with
  | false =>
    rw [List.any_eq_false]
    intro i _
    by_cases hi : j = i
    · subst hi; simp [hf]
    · simp [hi]
  | true =>
    rw [List.any_eq_true]
    exact ⟨j, List.mem_range.2 hj, by simp [hf]⟩

end Sys2Proof.Machine
end

