-- ==== Sys2Proof/Tests/Slice0.lean ====
section
/-! SUPPORT. Tests: the checks refuse ill-formed terms; words written out from spec/30_encoding.md decode to their commands;
one-step tests with the values of spec/95_test_vectors.md; and, for each statement with hypotheses, a witness that meets
them, clause by clause, at the edges of its ranges. -/

namespace Sys2Proof.Tests
open Sys2Proof Sys2Proof.Machine
set_option Elab.async false

/-! ### Small states -/

/-- A build with IN and OUT of 64 bytes. -/
def small : Config := ⟨64, 64, by decide, by decide⟩

/-- A build whose OUT is the least there can be (spec/00_scope.md R7). -/
def tight : Config := ⟨64, 16, by decide, by decide⟩

/-- After reset, with `bs` as the input. -/
def loadedOn (c : Config) (bs : List Byte) : State :=
  { State.resetOf c with inLen := BitVec.ofNat 32 bs.length, inBuf := Memory.writeBytes [] 0 bs }

def loaded (bs : List Byte) : State := loadedOn small bs

/-- The state after a command. -/
def after (i : Instr) (s : State) : State :=
  match exec i s with
  | .next t => t
  | .fault _ => s
  | .refused _ => s

theorem next_after (i : Instr) (s : State) : exec i s = .next (after i s) := by cases i <;> rfl

/-- "aaab" and its envelope (spec/95_test_vectors.md §1.1). -/
def aaab : List Byte := [0x61#8, 0x61#8, 0x61#8, 0x62#8]
def aaabEnv : List Byte :=
  [0x03#8, 0#8, 0#8, 0#8, 0x02#8, 0#8, 0#8, 0#8, 0x04#8, 0#8, 0#8, 0#8, 0x61#8, 0x62#8, 0x01#8, 0#8, 0#8, 0#8, 0x07#8]

/-- The same envelope with the bytes from offset `k` on replaced. -/
def aaabWith (k : Nat) (bs : List Byte) : List Byte := aaabEnv.take k ++ bs ++ aaabEnv.drop (k + bs.length)

/-- The envelopes of the empty input, of "zzzz", and of 17 times "z" (§2.4). -/
def emptyEnv : List Byte := List.replicate 12 0#8
def zEnv (n data : Byte) : List Byte :=
  [0x01#8, 0#8, 0#8, 0#8, 0x01#8, 0#8, 0#8, 0#8, n, 0#8, 0#8, 0#8, 0x7A#8, data]
def z17Env : List Byte := zEnv 0x11#8 0#8 ++ [0#8, 0#8]

/-- A frequency table from its nonzero entries. -/
def table (l : List (Byte × Word)) : Vector Word 256 := tableOf fun b => (l.lookup b).getD 0

/-- A code table from its codes. -/
def codes (l : List (Byte × Path)) : Vector Path 256 := tableOf fun b => (l.lookup b).getD []

/-- "aaab" counted, built and coded, by the values of §1.1. -/
def counted : State :=
  { loaded aaab with freq := table [(0x61#8, 3), (0x62#8, 1)], freqV := true }
def built : State :=
  { counted with
    nodes := [.leaf 0x61#8 3, .leaf 0x62#8 1, .internal 1 0 4]
    treeSize := 3, leafCount := 2, root := 0x80000002#32, treeV := true }
def coded : State := { built with codes := codes [(0x61#8, [true]), (0x62#8, [false])], codesV := true }

/-- The "aaab" envelope parsed, its data byte being `d`, on a build `c`. -/
def parsedOn (c : Config) (d : Byte) : State :=
  { loadedOn c (aaabWith 18 [d]) with
    nodes := [.leaf 0x61#8 0, .leaf 0x62#8 0, .internal 1 0 0]
    treeSize := 3, leafCount := 2, bits := 4, dataOff := 18, root := 0x80000002#32, treeV := true, treeSrc := true }

/-- The "zzzz" envelope parsed, its data byte being `d`. -/
def parsedZ (d : Byte) : State :=
  { loaded (zEnv 4 d) with
    nodes := [.leaf 0x7A#8 0], treeSize := 1, leafCount := 1, bits := 4, dataOff := 13, root := 0x80000000#32
    treeV := true, treeSrc := true }

/-- A command accepted and not yet completed. -/
def busyWith (w : Word) (s : State) : State := acceptCommand w s

/-- What a run of the host reads at an offset. -/
def readAt (a : Addr) (s : State) : Option Answer := (transact ⟨a, .read, 0⟩ s).answer

/-! ### Well-formedness refuses ill-formed terms (spec/00_scope.md R7, spec/30_encoding.md R92) -/

theorem test_capOk_refuses :
    capOk 18 = false ∧ capOk 12 = false ∧ capOk (2 ^ 24 + 4) = false ∧ capOk 16 = true ∧ capOk (2 ^ 24) = true := by decide +kernel

theorem test_commandWordOk_refuses :
    commandWordOk 0x00000102#32 = false ∧ commandWordOk 0x00000004#32 = false ∧ commandWordOk 0x0000000F#32 = false ∧
    commandWordOk 0x00000014#32 = false ∧ commandWordOk 0x00000022#32 = false ∧ commandWordOk 0x000000FF#32 = false ∧
    commandWordOk 0x80000000#32 = false ∧ commandWordOk 0x00000021#32 = true := by decide

/-! ### Each command's word, bit for bit (spec/30_encoding.md R90, R91): 24 bits RSV, then 8 bits OPC -/

theorem test_decode_nop : decode 0b000000000000000000000000_00000000#32 = .ok .nop := by decide
theorem test_decode_clear : decode 0b000000000000000000000000_00000001#32 = .ok .clear := by decide
theorem test_decode_encode : decode 0b000000000000000000000000_00000010#32 = .ok .encode := by decide
theorem test_decode_decode : decode 0b000000000000000000000000_00000011#32 = .ok .decode := by decide
theorem test_decode_freqCount : decode 0b000000000000000000000000_00010000#32 = .ok .freqCount := by decide
theorem test_decode_treeBuild : decode 0b000000000000000000000000_00010001#32 = .ok .treeBuild := by decide
theorem test_decode_codeGen : decode 0b000000000000000000000000_00010010#32 = .ok .codeGen := by decide
theorem test_decode_envPack : decode 0b000000000000000000000000_00010011#32 = .ok .envPack := by decide
theorem test_decode_envParse : decode 0b000000000000000000000000_00100000#32 = .ok .envParse := by decide
theorem test_decode_bitDecode : decode 0b000000000000000000000000_00100001#32 = .ok .bitDecode := by decide

theorem test_decodeTableWord :
    decodeTableWord 32 0x13 = some .envPack ∧ decodeTableWord 32 0x113 = none ∧ decodeTableWord 32 0x22 = none := by decide

/-- A fetched word runs as the first command after reset, and nothing else has happened (R120, R124). -/
theorem test_withFetchWord_runs :
    step (State.reset.withFetchWord 32 0x00) = .next { State.reset with done := true } := rfl

/-- The same for a word with an effect to see: CODE_GEN without a tree (R170). -/
theorem test_withFetchWord_codeGen :
    step (State.reset.withFetchWord 32 0x12) = .next (afterError 0x12#8 0x12#32 { State.reset with lastCmd := 0x12#32 }) := rfl

/-! ### One step of each command, against spec/95_test_vectors.md -/

/-- §2.1: NOP after a failed DECODE. -/
theorem test_nop :
    let t := after .nop (afterError 0x01#8 0x13#32 (loaded aaab) |> acceptCommand 0)
    statusWord t = 0x02#32 ∧ t.errCode = 0 ∧ t.errInfo = 0 := by decide +kernel

/-- §2.1: CLEAR after ENCODE "aaab". -/
theorem test_clear :
    let t := after .clear { coded with outLen := 19, statComp := 19 }
    statusWord t = 0x02#32 ∧ t.outLen = 0 ∧ t.treeSize = 0 ∧ t.statComp = 19 ∧ t.inLen = 4 := by decide +kernel

/-- P1: ENCODE "aaab". -/
theorem test_encode :
    let t := after .encode (loaded aaab)
    outputBytes t = aaabEnv ∧ statusWord t = 0xB2#32 ∧ t.root = 0x80000002#32 ∧ t.dataOff = 18 ∧
      t.statRatio = 0x0004C000#32 ∧ t.errCode = 0 := by decide +kernel

/-- §2.4: ENCODE "aaab" with OUT_CAP = 16. -/
theorem test_encode_overflow :
    let t := after .encode (loadedOn tight aaab)
    t.errCode = 0x10#8 ∧ t.errInfo = 0x13#32 ∧ statusWord t = 0x06#32 ∧ t.statLeaf = 0 ∧
      (inputEnvelope (inputBytes (loadedOn tight aaab))).length = 0x13 := by decide +kernel

/-- §1.1: DECODE of the "aaab" envelope. -/
theorem test_decode :
    let t := after .decode (loaded aaabEnv)
    outputBytes t = aaab ∧ statusWord t = 0x62#32 ∧ t.bits = 4 := by decide +kernel

/-- §1.3: DECODE of that envelope less its last byte. -/
theorem test_decode_cut :
    let t := after .decode (loaded aaabEnv.dropLast)
    t.errCode = 0x01#8 ∧ t.errInfo = 0x13#32 ∧ t.outLen = 0 ∧ statusWord t = 0x06#32 := by decide +kernel

/-- §2.2: FREQ_COUNT of "aaab". -/
theorem test_freqCount :
    let t := after .freqCount (loaded aaab)
    entry t.freq 0x61#8 = 3 ∧ entry t.freq 0x62#8 = 1 ∧ entry t.freq 0x63#8 = 0 ∧ statusWord t = 0x12#32 := by
  decide +kernel

/-- §2.1: IN_LEN = 4097 with IN_CAP = 4096. -/
theorem test_freqCount_lenRange :
    let t := after .freqCount { State.reset with inLen := 4097 }
    t.errCode = 0x11#8 ∧ t.errInfo = 0x1001#32 := by decide +kernel

/-- §2.2: "abcc", where a leaf wins a tie against a node. -/
theorem test_treeBuild_tie :
    arena (after .treeBuild { counted with freq := table [(0x61#8, 1), (0x62#8, 1), (0x63#8, 2)] }) =
      [.leaf 0x61#8 1, .leaf 0x62#8 1, .leaf 0x63#8 2, .internal 0 1 2, .internal 2 3 4] := by decide +kernel

/-- §1.1: "aaab". -/
theorem run_counted :
    let t := after .treeBuild counted
    arena t = [.leaf 0x61#8 3, .leaf 0x62#8 1, .internal 1 0 4] ∧ t.errCode = 0 := by decide +kernel

/-- §2.2: "abracadabra". -/
theorem test_treeBuild :
    let t := after .treeBuild
      { counted with freq := table [(0x61#8, 5), (0x62#8, 2), (0x63#8, 1), (0x64#8, 1), (0x72#8, 2)] }
    arena t = [.leaf 0x61#8 5, .leaf 0x62#8 2, .leaf 0x63#8 1, .leaf 0x64#8 1, .leaf 0x72#8 2, .internal 2 3 2,
        .internal 1 4 4, .internal 5 6 6, .internal 0 7 11] ∧ t.root = 0x80000008#32 := by decide +kernel

/-- §2.3: the codes of "aaab", and LEN and path as the CODE window shows them. -/
theorem test_codeGen :
    let t := after .codeGen built
    entry t.codes 0x61#8 = [true] ∧ entry t.codes 0x62#8 = [false] ∧ readTarget t (.codeWin 0x61#8 0) = 1 ∧
      readTarget t (.codeWin 0x61#8 1) = 1 ∧ readTarget t (.codeWin 0x63#8 0) = 0 := by decide +kernel

/-- §2.3: the codes of "aabbc", where a path turns both ways. -/
theorem test_codeGen_turns :
    let t := after .codeGen
      { built with
        nodes := [.leaf 0x61#8 2, .leaf 0x62#8 2, .leaf 0x63#8 1, .internal 2 0 3, .internal 1 3 5]
        treeSize := 5, leafCount := 3 }
    entry t.codes 0x61#8 = [true, true] ∧ entry t.codes 0x62#8 = [false] ∧ entry t.codes 0x63#8 = [true, false] := by
  decide +kernel

/-- §1.1: ENV_PACK on the "aaab" tables. -/
theorem test_envPack :
    let t := after .envPack coded
    outputBytes t = aaabEnv ∧ t.dataOff = 18 ∧ t.statRatio = 0x0004C000#32 ∧ t.errCode = 0 := by decide +kernel

/-- P5: ENV_PACK on a parsed tree. -/
theorem test_envPack_parsed :
    let t := after .envPack (parsedZ 0)
    t.errCode = 0x12#8 ∧ t.errInfo = 0x13#32 ∧ statusWord t = 0x06#32 := by decide +kernel

/-- §2.5: ENV_PARSE of the "aaab" envelope. -/
theorem test_envParse :
    let t := after .envParse (loaded aaabEnv)
    t.treeSize = 3 ∧ t.leafCount = 2 ∧ t.bits = 4 ∧ t.dataOff = 18 ∧ t.root = 0x80000002#32 ∧
      readTarget t (.nodeWin 0 2) = 0x161#32 ∧ readTarget t (.nodeWin 2 1) = 1 ∧ readTarget t (.nodeWin 2 0) = 0 := by
  decide +kernel

/-- §2.2: the right child of node 2 is node 2. -/
theorem test_envParse_shape :
    let t := after .envParse (loaded (aaabWith 16 [0x02#8]))
    t.errCode = 0x05#8 ∧ t.errInfo = 0x00010002#32 := by decide +kernel

/-- R204's example. -/
theorem test_bitDecode : outputBytes (after .bitDecode (parsedOn small 0x07#8)) = aaab := by decide +kernel

/-- §2.5: the "zzzz" envelope with byte 13 = 04. -/
theorem test_bitDecode_badCode :
    let t := after .bitDecode (parsedZ 0x04#8)
    t.errCode = 0x07#8 ∧ t.errInfo = 2 := by decide +kernel

/-- R126's example, and §2.1. -/
theorem test_illegal_word :
    (engineStep (busyWith 0x04#32 State.reset) = .next (afterError 0x13#8 0x04#32 { State.reset with lastCmd := 0x04#32 })) ∧
    (engineStep (busyWith 0x102#32 State.reset) = .next (afterError 0x13#8 0x102#32 { State.reset with lastCmd := 0x102#32 })) := ⟨rfl, rfl⟩

/-- §2.1: reads of the map after reset, a misaligned one among them. -/
theorem test_bus_reads :
    readAt 0x000#26 State.reset = some ⟨.okay, 0x48554646#32⟩ ∧ readAt 0x004#26 State.reset = some ⟨.okay, 4096⟩ ∧
    readAt 0x00C#26 State.reset = some ⟨.okay, 0⟩ ∧ readAt 0x1400#26 State.reset = some ⟨.okay, 0⟩ ∧
    readAt 0x002#26 State.reset = some ⟨.error, 0⟩ := by decide +kernel

/-- P1 lines 3 and 10, P3 lines 14, 15, 19 and 20: the windows. -/
theorem test_bus_windows :
    readAt 0x1000000#26 (loaded aaab) = some ⟨.okay, 0x62616161#32⟩ ∧
    readAt 0x2064#26 { built with nodes := List.replicate 6 (.leaf 0 0) ++ [.internal 4 5 4], treeSize := 7 } =
      some ⟨.okay, 0x00050004#32⟩ ∧
    readAt 0x2004#26 built = some ⟨.okay, 0⟩ ∧ readAt 0x2018#26 built = some ⟨.okay, 0x162#32⟩ ∧
    readAt 0x5904#26 { coded with codes := codes [(0x64#8, [true, true])] } = some ⟨.okay, 3⟩ ∧
    readAt 0x2000010#26 { after .envPack coded with done := false } = some ⟨.okay, 0x00070000#32⟩ := by decide +kernel

/-- P6 lines 4 and 5, and the acknowledgement of §2.1. -/
theorem test_bus_busy_and_ack :
    let s := busyWith 2 (loaded aaab)
    transact ⟨0x24#26, .write, 0⟩ s = { s with wbusy := true, answer := some ⟨.okay, 0⟩ } ∧
    transact ⟨0x10#26, .write, 0⟩ s = { s with wbusy := true, answer := some ⟨.okay, 0⟩ } ∧
    statusWord (transact ⟨0x14#26, .write, 0xE⟩ { coded with done := true, err := true, wbusy := true }) = 0xB0#32 :=
  ⟨rfl, rfl, by decide +kernel⟩

/-! ### Trees and invariants that hold somewhere -/

/-- A list with its tree, checked part by part. -/
theorem treeOk_of {ns : List Node} {l : Nat}
    (h1 : (l = 0 ∧ ns.length = 0) ∨ (l = 1 ∧ ns.length = 1) ∨ (2 ≤ l ∧ l ≤ 256 ∧ ns.length = 2 * l - 1))
    (h2 : ∀ i, (h : i < ns.length) → (nodeIsLeaf ns[i] = true ↔ i < l))
    (h3 : ∀ i, (h : i < ns.length) → ∀ c ∈ children ns[i], c < i)
    (h4 : ∀ c, c < ns.length - 1 → (childRefs ns).count c = 1)
    (h5 : ((ns.take l).map nodePayload).Nodup) : TreeOk ns l := ⟨h1, h2, h3, h4, h5⟩

theorem witness_treeOk_built : TreeOk (arena built) built.leafCount.toNat :=
  treeOk_of (by decide +kernel) (by decide +kernel) (by decide +kernel) (by decide +kernel) (by decide +kernel)

theorem witness_treeOk_parsed : TreeOk (arena (parsedOn small 0x07#8)) (parsedOn small 0x07#8).leafCount.toNat :=
  treeOk_of (by decide +kernel) (by decide +kernel) (by decide +kernel) (by decide +kernel) (by decide +kernel)

theorem witness_treeOk_z : TreeOk (arena (parsedZ 0)) (parsedZ 0).leafCount.toNat :=
  treeOk_of (by decide +kernel) (by decide +kernel) (by decide +kernel) (by decide +kernel) (by decide +kernel)

/-- EveryStepKeepsTheInvariant, ParsingAnEnvelopeRebuildsItsTree, CutEnvelopesAreRejected: a state with every table valid. -/
theorem witness_invariant_coded : Invariant coded where
  inWf := by decide +kernel
  outWf := by decide +kernel
  inBound := by decide +kernel
  outBound := by decide +kernel
  busy := by intro w h; exact absurd h (by simp [coded, built, counted, loaded, loadedOn, State.resetOf])
  code := .inl rfl
  info := fun _ => rfl
  outLen := by decide +kernel
  outWritten := by decide +kernel
  arenaLen := by decide +kernel
  noTree := by decide +kernel
  freq := by decide +kernel
  built := fun _ _ => ⟨rfl, by decide +kernel⟩
  parsed := by intro _ h; exact absurd h (by decide +kernel)
  codes := fun _ => ⟨rfl, by decide +kernel⟩
  shape := fun _ => ⟨witness_treeOk_built, by decide +kernel⟩

theorem witness_EveryStepKeepsTheInvariant : Invariant coded ∧ step coded = .next coded := ⟨witness_invariant_coded, rfl⟩

/-- The first and the last word of each range that reads a draw while BUSY, and of each reserved range (R43, R50). -/
def drawEdges : List Addr :=
  [0x1C#26, 0x20#26, 0x28#26, 0x50#26, 0x1000#26, 0x13FC#26, 0x2000#26, 0x3FFC#26, 0x4000#26, 0x7FFC#26, 0x2000000#26,
    0x200003C#26]
def reservedEdges : List Addr :=
  [0x0C#26, 0x54#26, 0xFFC#26, 0x1400#26, 0x1FFC#26, 0x8000#26, 0xFFFFFC#26, 0x1000040#26, 0x1FFFFFC#26, 0x2000040#26,
    0x3FFFFFC#26]

/-- At those edges the map leads where R43 says. -/
theorem test_map_edges :
    drawEdges.all (fun a => aligned a && unspecifiedWhileBusy (targetAt small a.toNat)) = true ∧
    reservedEdges.all (fun a => aligned a && targetAt small a.toNat == .reserved) = true := by decide +kernel

/-- BusyReadsOfResultsAreFree: the same state with a command accepted; the edges of every range, the registers, and the first
and the last word of IN. -/
theorem witness_BusyReadsOfResultsAreFree :
    Invariant (busyWith 2 coded) ∧ (busyWith 2 coded).engine = .busy 2 ∧
    (drawEdges ++ reservedEdges ++ [0x00#26, 0x04#26, 0x08#26, 0x10#26, 0x14#26, 0x18#26, 0x24#26, 0x1000000#26,
      0x100003C#26]).all aligned = true ∧
    (0x1000000#26).toNat = 0x1000000 + 4 * 0 ∧ (0x100003C#26).toNat = 0x1000000 + 4 * 15 ∧ 4 * 15 < coded.cfg.inCap := by
  refine ⟨?_, rfl, by decide +kernel, by decide +kernel, by decide +kernel, by decide +kernel⟩
  have h := witness_invariant_coded
  exact { h with
    busy := fun w hw => ⟨rfl, rfl, by simpa [busyWith, acceptCommand] using hw⟩
    built := fun _ _ => ⟨rfl, (h.built rfl rfl).tree⟩
    parsed := by intro _ h; exact absurd h (by decide +kernel) }

/-- The envelope of §1.1 is what ENCODE and ENV_PACK make, and it is an input. -/
theorem holds_aaabEnv : HoldsInput (loaded aaabEnv) aaabEnv := ⟨by decide +kernel, by decide +kernel, by decide +kernel⟩
theorem inputEnvelope_aaab : inputEnvelope aaab = aaabEnv := by decide +kernel
theorem encode_aaab : outputBytes (after .encode (loaded aaab)) = aaabEnv := test_encode.1
theorem pack_coded : outputBytes (after .envPack coded) = aaabEnv := test_envPack.1

/-! ### Witnesses: the command word and the step -/

theorem witness_DecodingSelectsTheRowOfTheOpcode :
    (0x00000102#32).extractLsb' 8 24 ≠ 0#24 ∧ (0x000000FF#32).extractLsb' 8 24 = 0#24 ∧
    (0x00000021#32).extractLsb' 8 24 = 0#24 := by decide

theorem witness_StepRunsTheDecodedCommand :
    let s := busyWith 0x10 (loaded aaab)
    s.engine = .busy 0x10 ∧ decode 0x10 = .ok .freqCount ∧ s.schedule = [] ∧
    ({ s with schedule := [.engine] } : State).schedule = .engine :: [] := by decide +kernel

theorem witness_StepServesTheNextEvent :
    ({ loaded aaab with schedule := [.host ⟨0x10#26, .write, 2⟩] } : State).schedule = [.host ⟨0x10#26, .write, 2⟩] ∧
    ({ loaded aaab with schedule := [.reset] } : State).schedule = .reset :: [] ∧
    (loaded aaab).engine = .idle ∧ (loaded aaab).schedule = [] ∧
    ({ loaded aaab with schedule := [.engine] } : State).schedule = .engine :: [] := by decide +kernel

theorem witness_IllegalWordsCompleteWithIllegalCmd :
    State.reset.engine = .idle ∧ commandWordOk 0x0F#32 = false ∧ commandWordOk 0x100#32 = false := by decide +kernel

theorem witness_ResetAbandonsTheCommand :
    ({ busyWith 2 (loaded aaab) with schedule := [.reset, .engine] } : State).schedule = .reset :: [.engine] := by
  decide +kernel

theorem witness_WritingCmdRequestsACommand :
    (busyWith 2 (loaded aaab)).engine = .busy 2 ∧ (loaded aaab).engine = .idle := by decide +kernel

/-! ### Witnesses: completion -/

theorem witness_CompletionRecordsTheOutcome :
    (after .nop State.reset).errCode = 0 ∧ (after .bitDecode State.reset).errCode ≠ 0 := by decide +kernel

/-- CommandsRaiseOnlyTheirErrors: an illegal word in flight, and a command that raises in each family. -/
theorem witness_CommandsRaiseOnlyTheirErrors :
    (busyWith 0x14 State.reset).engine = .busy 0x14 ∧ commandWordOk 0x14 = false ∧
    engineStep (busyWith 0x14 State.reset) = .next (illegalCommand 0x14 (busyWith 0x14 State.reset)) ∧
    (∀ i ∈ [Instr.treeBuild, .codeGen, .envPack, .envParse, .bitDecode, .decode], (after i State.reset).errCode ≠ 0) ∧
    (after .encode { State.reset with inLen := 4097 }).errCode ≠ 0 ∧
    (after .freqCount { State.reset with inLen := 4097 }).errCode ≠ 0 :=
  ⟨rfl, rfl, rfl, by decide +kernel, by decide +kernel, by decide +kernel⟩

theorem witness_NoCommandTouchesTheHostsState : exec .encode (loaded aaab) = .next (after .encode (loaded aaab)) :=
  next_after _ _

/-- §2.4: ENCODE of the empty input. -/
theorem run_empty :
    let t := after .encode (loaded [])
    t.errCode = 0 ∧ t.statRatio = 0xFFFFFFFF#32 := by decide +kernel

/-- OnlyAPackedEnvelopeUpdatesStatistics: a packed envelope, and an empty one. -/
theorem witness_OnlyAPackedEnvelopeUpdatesStatistics :
    exec .envPack coded = .next (after .envPack coded) ∧ (after .envPack coded).errCode = 0 ∧
    exec .encode (loaded []) = .next (after .encode (loaded [])) ∧ (after .encode (loaded [])).errCode = 0 ∧
    (after .encode (loaded [])).statRatio = 0xFFFFFFFF#32 :=
  ⟨next_after _ _, test_envPack.2.2.2, next_after _ _, run_empty.1, run_empty.2⟩

theorem witness_OutputLivesUntilACommandWritesIt :
    (after .freqCount (loaded aaab)).errCode = 0 ∧ (after .treeBuild counted).errCode = 0 ∧
    (after .codeGen built).errCode = 0 ∧ (after .envParse (loaded aaabEnv)).errCode = 0 ∧
    (after .envPack State.reset).errCode ≠ 0 :=
  ⟨by decide +kernel, run_counted.2, by decide +kernel, by decide +kernel, by decide +kernel⟩

theorem witness_SharedChecksComeFirst :
    small.inCap < ({ loaded [] with inLen := 65 } : State).inLen.toNat ∧ (loaded aaab).freqV = false ∧
    (loaded aaab).treeV = false ∧ built.codesV = false ∧ (parsedZ 0).treeSrc = true ∧ built.treeSrc = false := by
  decide +kernel

/-! ### Witnesses: the encode side -/

theorem witness_FreqCountCountsTheInput :
    ({ loaded [] with inLen := 64 } : State).inLen.toNat ≤ small.inCap ∧
    small.inCap < ({ loaded [] with inLen := 65 } : State).inLen.toNat := by decide +kernel

/-- TreeBuildFillsTheArena: many symbols, none, one; no count. -/
theorem witness_TreeBuildFillsTheArena :
    counted.freqV = true ∧ (allSymbols.filter fun b => entry counted.freq b != 0) = [0x61#8, 0x62#8] ∧
    (allSymbols.filter fun b => entry (table []) b != 0).length = 0 ∧
    (allSymbols.filter fun b => entry (table [(0xFF#8, 4)]) b != 0) = [0xFF#8] ∧ (loaded aaab).freqV = false := by
  decide +kernel

/-- BuiltArenaIsATree, LeavesStandInSymbolOrder: a tree built, a tree region accepted. -/
theorem witness_BuiltArenaIsATree :
    exec .treeBuild counted = .next (after .treeBuild counted) ∧ (after .treeBuild counted).errCode = 0 ∧
    headerOk 3 2 = true ∧
    reconstruct (fun k => aaabEnv.getD k 0) 3 2 = .ok [.leaf 0x61#8 0, .leaf 0x62#8 0, .internal 1 0 0] :=
  ⟨next_after _ _, run_counted.2, by decide, by decide +kernel⟩

theorem witness_MergeTakesTheTwoLeastKeys :
    exec .treeBuild counted = .next (after .treeBuild counted) ∧ (after .treeBuild counted).errCode = 0 ∧
    (allSymbols.map fun b => (entry counted.freq b).toNat).sum < 2 ^ 32 ∧
    (arena (after .treeBuild counted))[2]? = some (.internal 1 0 4) :=
  ⟨next_after _ _, run_counted.2, by decide +kernel, run_counted.1 ▸ rfl⟩

/-- RootFrequencyIsTheInputLength: "aaab", and the empty input. -/
theorem witness_RootFrequencyIsTheInputLength :
    let t := after .freqCount (loaded aaab)
    let u := after .treeBuild t
    exec .freqCount (loaded aaab) = .next t ∧ t.errCode = 0 ∧ exec .treeBuild t = .next u ∧
    ((arena u)[2]? = some (.internal 1 0 4) ∧ 1 ≤ u.leafCount.toNat) ∧ (after .freqCount (loaded [])).errCode = 0 :=
  ⟨next_after _ _, by decide +kernel, next_after _ _, by decide +kernel, by decide +kernel⟩

/-- CodeGenFollowsTheTree: a tree, a sole leaf, a symbol with no leaf, no tree. -/
theorem witness_CodeGenFollowsTheTree :
    (built.treeV = true ∧ TreeOk (arena built) built.leafCount.toNat) ∧ 2 ≤ built.treeSize.toNat ∧
    1 < built.leafCount.toNat ∧
    ((parsedZ 0).treeV = true ∧ TreeOk (arena (parsedZ 0)) (parsedZ 0).leafCount.toNat) ∧ (parsedZ 0).treeSize.toNat = 1 ∧
    (∀ i, i < built.leafCount.toNat → nodePayload (node built i) ≠ 0x63#8) ∧ (loaded aaab).treeV = false :=
  ⟨⟨rfl, witness_treeOk_built⟩, by decide +kernel, by decide +kernel, ⟨rfl, witness_treeOk_z⟩, by decide +kernel,
    by decide +kernel, by decide +kernel⟩

/-- CodesArePrefixFree, CodeLengthsAreBounded. -/
theorem witness_CodesArePrefixFree :
    built.treeV = true ∧ TreeOk (arena built) built.leafCount.toNat ∧ exec .codeGen built = .next (after .codeGen built) ∧
    entry (after .codeGen built).codes 0x61#8 ≠ [] ∧ entry (after .codeGen built).codes 0x62#8 ≠ [] ∧
    1 < built.leafCount.toNat :=
  ⟨rfl, witness_treeOk_built, next_after _ _, by decide +kernel, by decide +kernel, by decide +kernel⟩

theorem witness_RarerSymbolsHaveNoShorterCodes :
    let t := after .treeBuild counted
    exec .treeBuild counted = .next t ∧ t.errCode = 0 ∧ exec .codeGen t = .next (after .codeGen t) ∧
    entry counted.freq 0x62#8 ≠ 0 ∧ (entry counted.freq 0x62#8).toNat < (entry counted.freq 0x61#8).toNat :=
  ⟨next_after _ _, run_counted.2, next_after _ _, by decide +kernel, by decide +kernel⟩

/-- PackingIsLeastSignificantBitFirst: the last bit, the first and the last padding bit of 1 1 1 0. -/
theorem witness_PackingIsLeastSignificantBitFirst :
    3 < [true, true, true, false].length ∧ [true, true, true, false].length ≤ 4 ∧
    4 / 8 < (pack [true, true, true, false]).length ∧ 7 / 8 < (pack [true, true, true, false]).length ∧
    pack [true, true, true, false] = [0x07#8] := by decide +kernel

theorem witness_EnvelopeLayout :
    2 ≤ (arena built).length ∧ (arena built).length < 2 ^ 32 ∧ (1 < (arena built).length ∧ 1 < 2) ∧
    (2 < (arena built).length ∧ 2 ≤ 2) := by decide +kernel

/-- EnvPackFramesTheEnvelope: no codes, a parsed tree, an envelope of 19 bytes in an OUT of 16 and of 64. -/
theorem witness_EnvPackFramesTheEnvelope :
    built.codesV = false ∧ (parsedZ 0).treeSrc = true ∧ coded.codesV = true ∧ coded.treeSrc = false ∧
    (stateEnvelope coded).length = 19 ∧ (stateEnvelope coded).length ≤ small.outCap ∧
    tight.outCap < (stateEnvelope { coded with cfg := tight }).length := by decide +kernel

theorem witness_EnvelopeSizeFollowsTheTree :
    coded.leafCount.toNat ≤ coded.treeSize.toNat ∧ exec .envPack coded = .next (after .envPack coded) ∧
    (after .envPack coded).errCode = 0 :=
  ⟨by decide +kernel, next_after _ _, test_envPack.2.2.2⟩

/-- EncodeWritesTheEnvelopeOfTheInput: too long, an envelope too long, one that just fits (§2.4: 17 times "z" in 16 bytes). -/
theorem witness_EncodeWritesTheEnvelopeOfTheInput :
    small.inCap < ({ loaded [] with inLen := 65 } : State).inLen.toNat ∧
    tight.outCap < (inputEnvelope (inputBytes (loadedOn tight aaab))).length ∧
    (loadedOn tight (List.replicate 17 0x7A#8)).inLen.toNat ≤ tight.inCap ∧
    (inputEnvelope (inputBytes (loadedOn tight (List.replicate 17 0x7A#8)))).length = tight.outCap :=
  ⟨by decide +kernel, by rw [test_encode_overflow.2.2.2.2]; decide, by decide +kernel, by decide +kernel⟩

/-- The stages of an ENCODE that succeeds, and of one that fails at its last stage. -/
def stages (s : State) : State := after .codeGen (after .treeBuild (after .freqCount (after .clear s)))

theorem witness_EncodeIsTheStagedSequence :
    (after .encode (loaded aaab)).errCode = 0 ∧
    (after .freqCount (after .clear { loaded [] with inLen := 65 })).errCode ≠ 0 ∧
    (after .freqCount (after .clear (loadedOn tight aaab))).errCode = 0 ∧
    (after .envPack (stages (loadedOn tight aaab))).errCode ≠ 0 :=
  ⟨test_encode.2.2.2.2.2, by decide +kernel, by decide +kernel, by decide +kernel⟩

/-! ### Witnesses: the decode side -/

/-- HeaderIsCheckedInOrder: 11 bytes; size 4 with 2 leaves, size 0 with 1, size 1 with 0; 17 bytes of 18; 18 of 18. -/
theorem witness_HeaderIsCheckedInOrder :
    (loaded (aaabEnv.take 11)).inLen.toNat < 12 ∧
    (12 ≤ (loaded (aaabWith 0 [4#8])).inLen.toNat ∧ rdLE32 (inByte (loaded (aaabWith 0 [4#8]))) 0 = 4 ∧
      rdLE32 (inByte (loaded (aaabWith 0 [4#8]))) 4 = 2) ∧
    (12 ≤ (loaded (aaabEnv.take 17)).inLen.toNat ∧ (loaded (aaabEnv.take 17)).inLen.toNat < 18 ∧
      rdLE32 (inByte (loaded (aaabEnv.take 17))) 0 = 3 ∧ rdLE32 (inByte (loaded (aaabEnv.take 17))) 4 = 2) ∧
    (18 ≤ (loaded (aaabEnv.take 18)).inLen.toNat ∧ (loaded (aaabEnv.take 18)).inLen.toNat ≤ small.inCap ∧
      parseHeader (inByte (loaded (aaabEnv.take 18))) 18 = .ok ⟨3, 2, 4, 18⟩) := by decide +kernel

theorem witness_EnvParseRebuildsTheTree :
    small.inCap < ({ loaded [] with inLen := 65 } : State).inLen.toNat ∧
    (loaded aaabEnv).inLen.toNat ≤ small.inCap ∧
    parseHeader (inByte (loaded (aaabEnv.take 11))) 11 = .error ⟨.fmtShort, 12⟩ ∧
    parseHeader (inByte (loaded (aaabWith 13 [0x61#8]))) 19 = .ok ⟨3, 2, 4, 18⟩ ∧
    reconstruct (inByte (loaded (aaabWith 13 [0x61#8]))) 3 2 = .error ⟨.fmtDupSymbol, 1⟩ ∧
    parseHeader (inByte (loaded aaabEnv)) 19 = .ok ⟨3, 2, 4, 18⟩ ∧
    reconstruct (inByte (loaded aaabEnv)) 3 2 = .ok [.leaf 0x61#8 0, .leaf 0x62#8 0, .internal 1 0 0] := by decide +kernel

/-- ReconstructAcceptsExactlyTheTrees: the pairs at the edges of the header check. -/
theorem witness_ReconstructAcceptsExactlyTheTrees :
    headerOk 0 0 = true ∧ headerOk 1 1 = true ∧ headerOk 3 2 = true ∧ headerOk 511 256 = true ∧ headerOk 513 257 = false := by
  decide

/-- The records before node `i` of the "aaab" envelope with bytes changed. -/
def before (e : List Byte) (i : Nat) : Except Raise Recon := reconLoop (fun k => e.getD k 0) 3 2 i 0 ⟨12, [], [], []⟩

/-- ReconstructReportsTheFirstBadRecord, §2.2: a repeated leaf; the left child out of range (3, of a size 3) and itself; the
right child out of range, itself, and equal to the left. -/
theorem witness_ReconstructReportsTheFirstBadRecord :
    before (aaabWith 13 [0x61#8]) 1 = .ok ⟨13, [0x61#8], [], [.leaf 0x61#8 0]⟩ ∧
    (∀ e ∈ [aaabWith 14 [3#8], aaabWith 14 [2#8], aaabWith 16 [3#8], aaabWith 16 [2#8], aaabWith 16 [1#8]],
      before e 2 = .ok ⟨14, [0x62#8, 0x61#8], [], [.leaf 0x61#8 0, .leaf 0x62#8 0]⟩) ∧
    ([aaabWith 14 [3#8], aaabWith 14 [2#8], aaabWith 16 [3#8], aaabWith 16 [2#8], aaabWith 16 [1#8]].map fun e =>
      (rdLE16 (fun k => e.getD k 0) 14, rdLE16 (fun k => e.getD k 0) 16)) = [(3, 0), (2, 0), (1, 3), (1, 2), (1, 1)] := by
  decide +kernel

/-- A tree of four leaves parsed, whose two bits 0 0 and one bit 1 stop inside a path. -/
def parsedFour (bits : Word) (data : List Byte) : State :=
  { loaded ([7#8, 0#8, 0#8, 0#8, 4#8, 0#8, 0#8, 0#8, bits.extractLsb' 0 8, 0#8, 0#8, 0#8, 0x61#8, 0x62#8, 0x63#8, 0x64#8,
      0#8, 0#8, 1#8, 0#8, 2#8, 0#8, 3#8, 0#8, 4#8, 0#8, 5#8, 0#8] ++ data) with
    nodes := [.leaf 0x61#8 0, .leaf 0x62#8 0, .leaf 0x63#8 0, .leaf 0x64#8 0, .internal 0 1 0, .internal 2 3 0, .internal 4 5 0]
    treeSize := 7, leafCount := 4, bits := bits, dataOff := 28, root := 0x80000006#32, treeV := true, treeSrc := true }

theorem witness_treeOk_four : TreeOk (arena (parsedFour 3 [4#8])) 4 :=
  treeOk_of (by decide +kernel) (by decide +kernel) (by decide +kernel) (by decide +kernel) (by decide +kernel)

/-- 17 codes 1 of the "aaab" tree, one more than OUT_CAP = 16. -/
def parsed17 : State :=
  { parsedOn tight 0 with
    inLen := 21, inBuf := Memory.writeBytes [] 0 (aaabWith 18 [0xFF#8] ++ [0xFF#8, 0xFF#8]), bits := 17 }

/-- BitDecodeWalksTheTree: a whole sequence, one cut inside a path, one symbol too many. -/
theorem witness_BitDecodeWalksTheTree :
    (TreeOk (arena (parsedOn small 0x07#8)) 2 ∧
      packedBits (parsedOn small 0x07#8) = [true, true, true, false] ∧
      descend (arena (parsedOn small 0x07#8)) 2 [true] = some 0 ∧ descend (arena (parsedOn small 0x07#8)) 2 [false] = some 1 ∧
      (parsedOn small 0x07#8).dataOff.toNat + ((parsedOn small 0x07#8).bits.toNat + 7) / 8 ≤
        (parsedOn small 0x07#8).inLen.toNat) ∧
    (TreeOk (arena (parsedFour 3 [4#8])) 4 ∧ packedBits (parsedFour 3 [4#8]) = [false, false] ++ [true] ∧
      descend (arena (parsedFour 3 [4#8])) 6 [false, false] = some 0 ∧ descend (arena (parsedFour 3 [4#8])) 6 [true] = some 5) ∧
    (packedBits parsed17 = ((List.replicate 17 ([true], 0)).map Prod.fst).flatten ++ [] ∧
      (List.replicate 17 (([true] : Path), 0)).length = parsed17.cfg.outCap + 1 ∧
      arena parsed17 = arena (parsedOn small 0x07#8)) :=
  ⟨⟨witness_treeOk_parsed, by decide +kernel, by decide +kernel, by decide +kernel, by decide +kernel⟩,
    ⟨witness_treeOk_four, by decide +kernel, by decide +kernel, by decide +kernel⟩,
    ⟨by decide +kernel, by decide +kernel, by decide +kernel⟩⟩

/-- The envelope of 17 times "z" parsed on a build whose OUT holds 16 bytes. -/
def parsedZ17 : State :=
  { parsedZ 0 with cfg := tight, inLen := 16, inBuf := Memory.writeBytes [] 0 z17Env, bits := 17 }

/-- BitDecodeOfDegenerateTrees: data cut; an empty tree with a bit; no bits; zeros; one zero too many; a 1 at position 2. -/
theorem witness_BitDecodeOfDegenerateTrees :
    (parsedZ 0).treeV = true ∧ (parsedZ 0).treeSrc = true ∧
    ({ parsedZ 0 with inLen := 13 } : State).inLen.toNat < 13 + (4 + 7) / 8 ∧
    (0 < (1#32).toNat ∧ 12 + (1 + 7) / 8 ≤ ({ parsedZ 0 with treeSize := 0, bits := 1, dataOff := 12 } : State).inLen.toNat) ∧
    ({ parsedZ 0 with bits := 0 } : State).bits = 0 ∧
    ((parsedZ 0).treeSize = 1 ∧ (∀ k, k < (parsedZ 0).bits.toNat → packedBit (parsedZ 0) k = false) ∧
      (parsedZ 0).bits.toNat ≤ small.outCap ∧ 13 + (4 + 7) / 8 ≤ (parsedZ 0).inLen.toNat) ∧
    (parsedZ17.treeSize = 1 ∧ tight.outCap < parsedZ17.bits.toNat ∧ 13 + (17 + 7) / 8 ≤ parsedZ17.inLen.toNat ∧
      (∀ k, k ≤ tight.outCap → packedBit parsedZ17 k = false)) ∧
    (packedBit (parsedZ 0x04#8) 2 = true ∧ (∀ j, j < 2 → packedBit (parsedZ 0x04#8) j = false)) := by decide +kernel

theorem witness_BadCodeNeedsADegenerateTree :
    2 ≤ (parsedOn small 0x07#8).treeSize.toNat ∧
    exec .bitDecode (parsedOn small 0x07#8) = .next (after .bitDecode (parsedOn small 0x07#8)) :=
  ⟨by decide +kernel, next_after _ _⟩

/-- DecodeIsTheStagedSequence: success, a failing parse, a failing walk. -/
theorem witness_DecodeIsTheStagedSequence :
    (after .decode (loaded aaabEnv)).errCode = 0 ∧
    (after .envParse (after .clear (loaded (aaabEnv.take 11)))).errCode ≠ 0 ∧
    (after .envParse (after .clear (loaded aaabEnv.dropLast))).errCode = 0 ∧
    (after .bitDecode (after .envParse (after .clear (loaded aaabEnv.dropLast)))).errCode ≠ 0 := by decide +kernel

/-- DecodeDecodesEveryValidEnvelope: an empty tree, a sole leaf, a tree with two leaves. -/
theorem witness_DecodeDecodesEveryValidEnvelope :
    (parseHeader (inByte (loaded emptyEnv)) 12 = .ok ⟨0, 0, 0, 12⟩ ∧ reconstruct (inByte (loaded emptyEnv)) 0 0 = .ok []) ∧
    (parseHeader (inByte (loaded (zEnv 4 0))) 14 = .ok ⟨1, 1, 4, 13⟩ ∧
      reconstruct (inByte (loaded (zEnv 4 0))) 1 1 = .ok [.leaf 0x7A#8 0] ∧
      ((List.range 4).map fun k => (inByte (loaded (zEnv 4 0)) (13 + k / 8)).getLsbD (k % 8)) = List.replicate 4 false) ∧
    (parseHeader (inByte (loaded aaabEnv)) 19 = .ok ⟨3, 2, 4, 18⟩ ∧
      reconstruct (inByte (loaded aaabEnv)) 3 2 = .ok [.leaf 0x61#8 0, .leaf 0x62#8 0, .internal 1 0 0] ∧
      descend [.leaf 0x61#8 0, .leaf 0x62#8 0, .internal 1 0 0] 2 [true] = some 0 ∧
      ((List.range 4).map fun k => (inByte (loaded aaabEnv) (18 + k / 8)).getLsbD (k % 8)) =
        ([([true], 0), ([true], 0), ([true], 0), ([false], 1)].map (Prod.fst : Path × Nat → Path)).flatten) := by
  decide +kernel

/-- ParsingAnEnvelopeRebuildsItsTree: ENCODE, and ENV_PACK in a state of the invariant; their envelope loaded. -/
theorem witness_ParsingAnEnvelopeRebuildsItsTree :
    exec .encode (loaded aaab) = .next (after .encode (loaded aaab)) ∧ (after .encode (loaded aaab)).errCode = 0 ∧
    HoldsInput (loaded aaabEnv) (outputBytes (after .encode (loaded aaab))) ∧
    Invariant coded ∧ exec .envPack coded = .next (after .envPack coded) ∧ (after .envPack coded).errCode = 0 ∧
    HoldsInput (loaded aaabEnv) (outputBytes (after .envPack coded)) :=
  ⟨next_after _ _, test_encode.2.2.2.2.2, encode_aaab ▸ holds_aaabEnv, witness_invariant_coded, next_after _ _,
    test_envPack.2.2.2, pack_coded ▸ holds_aaabEnv⟩

/-- DecodeReturnsTheEncodedInput: "aaab", and the empty input. -/
theorem witness_DecodeReturnsTheEncodedInput :
    (after .encode (loaded aaab)).errCode = 0 ∧ HoldsInput (loaded aaabEnv) (inputEnvelope aaab) ∧ aaab.length ≤ small.outCap ∧
    HoldsInput (loaded emptyEnv) (inputEnvelope []) :=
  ⟨test_encode.2.2.2.2.2, inputEnvelope_aaab ▸ holds_aaabEnv, by decide,
    ⟨by decide +kernel, by decide +kernel, by decide +kernel⟩⟩

theorem witness_CutEnvelopesAreRejected :
    exec .envPack coded = .next (after .envPack coded) ∧ (after .envPack coded).errCode = 0 ∧
    0 < (after .envPack coded).bits.toNat ∧ HoldsInput (loaded aaabEnv.dropLast) (outputBytes (after .envPack coded)).dropLast ∧
    Invariant coded :=
  ⟨next_after _ _, test_envPack.2.2.2, by decide +kernel,
    pack_coded ▸ ⟨by decide +kernel, by decide +kernel, by decide +kernel⟩, witness_invariant_coded⟩

/-! ### Witnesses: the host port -/

theorem witness_IrqIsALevelOfStatusAndEnables :
    ({ loaded aaab with doneIE := true } : State).doneIE = true ∧
    exec .bitDecode { loaded aaab with errIE := true } = .next (after .bitDecode { loaded aaab with errIE := true }) ∧
    (after .bitDecode { loaded aaab with errIE := true }).errCode ≠ 0 ∧ (loaded aaab).engine = .idle ∧
    (0xE#32).getLsbD 1 = true ∧ (0xE#32).getLsbD 2 = true :=
  ⟨by decide +kernel, next_after _ _, by decide +kernel, by decide +kernel, by decide, by decide⟩

/-- InputWritesInvalidate: the first and the last word of IN. -/
theorem witness_InputWritesInvalidate :
    coded.engine = .idle ∧ 4 * 0 < coded.cfg.inCap ∧ 4 * 15 < coded.cfg.inCap := by decide +kernel

/-- BusyWritesAreDropped: CMD, IN_LEN, the first and the last word of IN. -/
theorem witness_BusyWritesAreDropped :
    (busyWith 2 coded).engine = .busy 2 ∧ aligned 0x10#26 = true ∧ aligned 0x24#26 = true ∧ aligned 0x1000000#26 = true ∧
    aligned 0x100003C#26 = true ∧ (0x100003C#26).toNat < 0x1000000 + coded.cfg.inCap := by decide +kernel

theorem witness_BusyTransactionsKeepTheOperands :
    (busyWith 2 coded).engine = .busy 2 ∧ (busyWith 2 coded).done = false ∧ (busyWith 2 coded).err = false := by
  decide +kernel

theorem witness_IdleReadsHaveNoSideEffect :
    coded.engine = .idle ∧ (⟨0x1184#26, .read, 0⟩ : Request).kind = .read := by decide +kernel

/-- BusRejectsOnlyMisalignedAccesses: a misaligned offset, the edges of the reserved ranges, a read-only register, the word
after IN. -/
theorem witness_BusRejectsOnlyMisalignedAccesses :
    (0x002#26).extractLsb' 0 2 ≠ 0#2 ∧ reservedEdges.all (fun a => a.extractLsb' 0 2 == 0#2) = true ∧
    (0x01C#26).extractLsb' 0 2 = 0#2 ∧
    ¬(0x1000000 ≤ (0x1000040#26).toNat ∧ (0x1000040#26).toNat < 0x1000000 + small.inCap) := by decide +kernel

/-- RegistersReadAtTheirOffsets, WindowsShowOnlyValidTables: the last entry of each window, an arena's last node and the
entry after it, tables that are not valid. -/
theorem witness_WindowsShowOnlyValidTables :
    coded.engine = .idle ∧ coded.treeV = true ∧ 2 < coded.treeSize.toNat ∧ node coded 2 = .internal 1 0 4 ∧
    node coded 1 = .leaf 0x62#8 1 ∧ coded.treeSize.toNat ≤ 511 ∧ coded.codesV = true ∧ built.codesV = false ∧
    (loaded aaab).treeV = false ∧ 4 * 15 < coded.cfg.outCap := by decide +kernel

end Sys2Proof.Tests
end

/-! ### Every finite schedule ends with the engine idle (spec/00_scope.md R8, spec/92_eei_decisions.md R280) -/

namespace Sys2Proof.Machine

@[simp] theorem busRead_schedule (s : State) (t : Target) : (busRead s t).2.schedule = s.schedule := by
  unfold busRead
  split_ifs <;> rfl

@[simp] theorem writeCmd_schedule (v : Word) (s : State) : (writeCmd v s).schedule = s.schedule := by
  unfold writeCmd
  split <;> rfl

@[simp] theorem writeInLen_schedule (v : Word) (s : State) : (writeInLen v s).schedule = s.schedule := by
  unfold writeInLen
  split_ifs <;> rfl

@[simp] theorem writeInWin_schedule (k : Nat) (v : Word) (s : State) : (writeInWin k v s).schedule = s.schedule := by
  unfold writeInWin
  split_ifs <;> rfl

@[simp] theorem busWrite_schedule (v : Word) (s : State) (t : Target) : (busWrite v s t).schedule = s.schedule := by
  cases t with
  | cmd => exact writeCmd_schedule v s
  | inLen => exact writeInLen_schedule v s
  | inWin k => exact writeInWin_schedule k v s
  | _ => rfl

/-- No transaction adds to what is scheduled or takes from it. -/
@[simp] theorem transact_schedule (r : Request) (s : State) : (transact r s).schedule = s.schedule := by
  unfold transact
  split
  · cases r.kind with
    | read => exact busRead_schedule s _
    | write => exact busWrite_schedule r.wdata s _
  · rfl

/-- A command completes in one step, whether its body succeeds or raises (R122), and leaves the schedule alone. -/
theorem exec_ends_idle (i : Instr) (s : State) :
    ∃ t, exec i s = .next t ∧ t.engine = .idle ∧ t.schedule = s.schedule := by
  cases hb : bodyOf i s with
  | ok s1 =>
    obtain ⟨_, _, _, _, _, _, _, _, hsched, _⟩ := body_frame hb
    exact ⟨completeOk s1, exec_of_body_ok hb, rfl, hsched⟩
  | error r => exact ⟨takeError r s, exec_of_body_error hb, rfl, rfl⟩

/-- The engine's step leaves the engine IDLE: a legal word completes, an illegal one is an error (R126), and IDLE stays. -/
theorem engineStep_ends_idle (s : State) :
    ∃ t, engineStep s = .next t ∧ t.engine = .idle ∧ t.schedule = s.schedule := by
  unfold engineStep
  cases he : s.engine with
  | idle => exact ⟨s, rfl, he, rfl⟩
  | busy w =>
    cases hd : Sys2Proof.decode w with
    | ok i => simpa only [hd] using exec_ends_idle i s
    | error e => exact ⟨illegalCommand w s, by simp only [hd], rfl, rfl⟩

theorem step_of_schedule_nil {s : State} (h : s.schedule = []) :
    ∃ t, step s = .next t ∧ t.engine = .idle ∧ t.schedule = [] := by
  have hstep : step s = engineStep s := by simp [step, h]
  simpa only [hstep, h] using engineStep_ends_idle s

theorem step_of_schedule_cons {s : State} {ev : Event} {rest : List Event} (h : s.schedule = ev :: rest) :
    ∃ t, step s = .next t ∧ t.schedule = rest := by
  cases ev with
  | host r => exact ⟨transact r { s with schedule := rest }, by simp [step, h], transact_schedule r _⟩
  | engine =>
    obtain ⟨t, ht, _, hrest⟩ := engineStep_ends_idle { s with schedule := rest }
    exact ⟨t, by simp [step, h, ht], hrest⟩
  | reset => exact ⟨resetBlock { s with schedule := rest }, by simp [step, h], rfl⟩

theorem run_succ_of_step {M : Host.Core} {s t : M.State} (h : M.step s = .next t) (k : Nat) :
    M.run (k + 1) s = M.run k t := by
  simp only [Host.Core.run, h]

/-- Settles O8, by induction on the schedule: each event takes one step, and the step after the last one is the engine's. -/
theorem everyScheduleEndsIdle : Obligations.EveryScheduleEndsIdle := by
  unfold Obligations.EveryScheduleEndsIdle
  intro s
  induction hs : s.schedule generalizing s with
  | nil =>
    obtain ⟨t, hstep, hidle, hnil⟩ := step_of_schedule_nil hs
    exact ⟨t, run_succ_of_step (M := core) hstep 0, hidle, hnil⟩
  | cons ev rest ih =>
    obtain ⟨u, hstep, hrest⟩ := step_of_schedule_cons hs
    obtain ⟨t, hrun, hend⟩ := ih u hrest
    exact ⟨t, (run_succ_of_step (M := core) hstep _).trans hrun, hend⟩

end Sys2Proof.Machine

/-! ### The machine's invariant (spec/10_state.md R48) -/

namespace Sys2Proof.Machine

/-! The invariant in three parts, by the fields each reads: the byte buffers, the control registers, the tables. -/

/-- What the invariant says of IN and OUT (R33, R39). -/
structure BuffersOk (s : State) : Prop where
  inWf : s.inBuf.wf
  outWf : s.outBuf.wf
  inBound : ∀ c ∈ s.inBuf, c.1 < s.cfg.inCap
  outBound : ∀ c ∈ s.outBuf, c.1 < s.cfg.outCap
  outLen : s.outLen.toNat ≤ s.cfg.outCap
  outWritten : ∀ k, k < s.outLen.toNat → (s.outBuf.read? k).isSome = true

/-- What the invariant says of the engine, LAST_CMD, DONE, ERR and the error registers (R31, R50). -/
structure ControlOk (s : State) : Prop where
  busy : ∀ w, s.engine = .busy w → s.done = false ∧ s.err = false ∧ s.lastCmd = w
  code : s.errCode = 0 ∨ ∃ c, s.errCode = causeCode c
  info : s.errCode = 0 → s.errInfo = 0

/-- What the invariant says of FREQ, NODE, CODE, their flags and the tree registers (R48). -/
structure TablesOk (s : State) : Prop where
  arenaLen : s.nodes.length ≤ 511
  noTree : s.treeV = false → s.treeSrc = false ∧ s.codesV = false ∧ s.treeSize = 0 ∧ s.leafCount = 0 ∧
    s.bits = 0 ∧ s.dataOff = 0 ∧ s.root = 0
  freq : s.freqV = true → s.inLen.toNat ≤ s.cfg.inCap ∧ s.freq = countBytes (inputBytes s)
  built : s.treeV = true → s.treeSrc = false → BuiltOk s
  parsed : s.treeV = true → s.treeSrc = true → ParsedOk s
  codes : s.codesV = true → s.treeV = true ∧ s.codes = codeTable (arena s) s.leafCount.toNat
  shape : s.treeV = true → TreeOk (arena s) s.leafCount.toNat ∧ s.root = rootWord s.treeSize.toNat

theorem invariant_iff {s : State} : Invariant s ↔ BuffersOk s ∧ ControlOk s ∧ TablesOk s :=
  ⟨fun h => ⟨{ h with }, { h with }, { h with }⟩, fun ⟨hb, hc, ht⟩ => { hb, hc, ht with }⟩

/-! #### What each kind of update keeps of a part -/

/-- A run of bytes written inside OUT, with OUT_LEN its length, is an output (R33). -/
theorem BuffersOk.of_written {s t : State} (h : BuffersOk s) {out : List Byte} (hfit : out.length ≤ s.cfg.outCap)
    (hcfg : t.cfg = s.cfg) (hin : t.inBuf = s.inBuf) (hout : t.outBuf = s.outBuf.writeBytes 0 out)
    (hlen : t.outLen = BitVec.ofNat 32 out.length) : BuffersOk t := by
  have hcap := outCap_bounds s.cfg
  have hnat : t.outLen.toNat = out.length := by rw [hlen, toNat_ofNat_of_lt (by omega)]
  constructor
  case inWf => rw [hin]; exact h.inWf
  case outWf => rw [hout]; exact Memory.wf_writeBytes h.outWf 0 out
  case inBound => rw [hin, hcfg]; exact h.inBound
  case outBound =>
    rw [hout, hcfg]
    intro c hc
    rcases Memory.mem_writeBytes hc with ⟨-, hlt⟩ | hold
    · omega
    · exact h.outBound c hold
  case outLen => rw [hnat, hcfg]; exact hfit
  case outWritten =>
    intro k hk
    rw [hnat] at hk
    rw [hout, Memory.read?_writeBytes, if_pos (by omega)]
    simpa using hk

/-- A run of bytes the host writes inside IN. -/
theorem BuffersOk.writeIn {s : State} (h : BuffersOk s) {k : Nat} {bs : List Byte} (hfit : k + bs.length ≤ s.cfg.inCap) :
    BuffersOk { s with inBuf := s.inBuf.writeBytes k bs } :=
  { h with
    inWf := Memory.wf_writeBytes h.inWf k bs
    inBound := fun c hc => by
      rcases Memory.mem_writeBytes hc with ⟨-, hlt⟩ | hold
      · show c.1 < s.cfg.inCap
        omega
      · exact h.inBound c hold }

/-- No output is an output. -/
theorem BuffersOk.clearOutput {s : State} (h : BuffersOk s) : BuffersOk { s with outLen := 0 } :=
  { h with
    outLen := Nat.zero_le _
    outWritten := fun k hk => absurd hk (Nat.not_lt_zero k) }

/-- The tables do not read the control registers, the output, the statistics, or the model's schedule, answer and draws. -/
theorem TablesOk.congr {s t : State} (h : TablesOk s)
    (ht : t = { s with
      engine := t.engine, lastCmd := t.lastCmd, done := t.done, err := t.err, wbusy := t.wbusy
      doneIE := t.doneIE, errIE := t.errIE, errCode := t.errCode, errInfo := t.errInfo
      outLen := t.outLen, outBuf := t.outBuf
      statLeaf := t.statLeaf, statNodes := t.statNodes, statOrig := t.statOrig, statComp := t.statComp
      statRatio := t.statRatio
      schedule := t.schedule, answer := t.answer, draws := t.draws }) : TablesOk t := by
  rw [ht]
  exact { h with
    built := fun hv hsrc => { h.built hv hsrc with }
    parsed := fun hv hsrc => { h.parsed hv hsrc with } }

/-- Without a tree only FREQ can be valid (R48 item 1). -/
theorem TablesOk.invTree {s : State} (harena : s.nodes.length ≤ 511)
    (hfreq : s.freqV = true → s.inLen.toNat ≤ s.cfg.inCap ∧ s.freq = countBytes (inputBytes s)) :
    TablesOk (invTree s) where
  arenaLen := harena
  noTree _ := ⟨rfl, rfl, rfl, rfl, rfl, rfl, rfl⟩
  freq := hfreq
  built hv := nomatch hv
  parsed hv := nomatch hv
  codes hv := nomatch hv
  shape hv := nomatch hv

theorem TablesOk.invInput {s : State} (harena : s.nodes.length ≤ 511) : TablesOk (invInput s) :=
  .invTree (s := invFreq s) harena nofun

/-! #### Reset, completion and the bodies keep the invariant -/

/-- Reset gives the invariant whatever the model's own fields are (R260, R49). -/
theorem Invariant.of_reset (cfg : Config) (sched : List Event) (draws epoch : Nat) :
    Invariant { State.resetOf cfg with schedule := sched, draws := draws, epoch := epoch } where
  inWf := .nil
  outWf := .nil
  inBound := nofun
  outBound := nofun
  busy := nofun
  code := .inl rfl
  info _ := rfl
  outLen := Nat.zero_le _
  outWritten k hk := absurd hk (Nat.not_lt_zero k)
  arenaLen := Nat.zero_le _
  noTree _ := ⟨rfl, rfl, rfl, rfl, rfl, rfl, rfl⟩
  freq := nofun
  built := nofun
  parsed := nofun
  codes := nofun
  shape := nofun

theorem Invariant.completeOk {s : State} (h : Invariant s) : Invariant (completeOk s) := by
  obtain ⟨hb, -, ht⟩ := invariant_iff.1 h
  exact invariant_iff.2 ⟨{ hb with }, ⟨nofun, .inl rfl, fun _ => rfl⟩, ht.congr rfl⟩

theorem Invariant.takeError {s : State} (h : Invariant s) (r : Raise) : Invariant (takeError r s) := by
  obtain ⟨hb, -, ht⟩ := invariant_iff.1 h
  exact invariant_iff.2 ⟨{ hb.clearOutput with },
    ⟨nofun, .inr ⟨r.cause, rfl⟩, fun h0 => absurd h0 (causeCode_ne_zero r.cause)⟩,
    (TablesOk.invInput (s := s) ht.arenaLen).congr rfl⟩

theorem Invariant.clearDerived {s : State} (h : Invariant s) : Invariant (clearDerived s) := by
  obtain ⟨hb, hc, ht⟩ := invariant_iff.1 h
  exact invariant_iff.2 ⟨{ hb.clearOutput with }, { hc with }, (TablesOk.invInput (s := s) ht.arenaLen).congr rfl⟩

theorem Invariant.countedState {s : State} (h : Invariant s) (hlen : s.inLen.toNat ≤ s.cfg.inCap) :
    Invariant (countedState s) := by
  obtain ⟨hb, hc, ht⟩ := invariant_iff.1 h
  exact invariant_iff.2 ⟨{ hb with }, { hc with },
    .invTree (s := { s with freq := countBytes (inputBytes s), freqV := true }) ht.arenaLen fun _ => ⟨hlen, rfl⟩⟩

/-- Loading an arena of at most 511 nodes keeps NODE within 511 entries (R37). -/
theorem loadArena_nodes_length_le {s : State} {ns : List Node} (hns : ns.length ≤ 511) (hs : s.nodes.length ≤ 511) :
    (loadArena ns s).nodes.length ≤ 511 := by
  rw [loadArena_nodes, List.length_append, List.length_drop]
  omega

/-- TREE_BUILD's body leaves the tree of a counted FREQ (R48 item 2, R148). -/
theorem Invariant.builtState {s : State} (h : Invariant s) (hf : s.freqV = true) : Invariant (builtState s) := by
  obtain ⟨hb, hc, ht⟩ := invariant_iff.1 h
  have htree := buildFromFrequencies_treeOk s.freq
  have harena := arena_builtState s
  have hleaf := leafCount_builtState s
  refine invariant_iff.2 ⟨{ hb with }, { hc with }, ?_⟩
  exact {
    arenaLen := loadArena_nodes_length_le (s := s) htree.length_le ht.arenaLen
    noTree := nofun
    freq := ht.freq
    built := fun _ _ => ⟨hf, Prod.ext harena hleaf⟩
    parsed := nofun
    codes := nofun
    shape := fun _ => by
      rw [← arena_length, harena, hleaf]
      exact ⟨htree, rfl⟩ }

/-- CODE_GEN's body generates CODE from the arena (R48 item 4). -/
theorem Invariant.codedState {s : State} (h : Invariant s) (hv : s.treeV = true) : Invariant (codedState s) := by
  obtain ⟨hb, hc, ht⟩ := invariant_iff.1 h
  exact invariant_iff.2 ⟨{ hb with }, { hc with }, { ht with
    noTree := fun hno => absurd hv (by simpa using hno)
    built := fun hv hsrc => { ht.built hv hsrc with }
    parsed := fun hv hsrc => { ht.parsed hv hsrc with }
    codes := fun _ => ⟨hv, rfl⟩ }⟩

/-- ENV_PACK's writes, whatever the envelope `e`, may move BITS and DATA_OFF of a built tree: only a parsed tree ties them
to the input. -/
theorem TablesOk.packed {s : State} (h : TablesOk s) (hv : s.treeV = true) (hsrc : s.treeSrc = false) (e : List Byte)
    (l z o n b d : Word) (comp : Nat) :
    TablesOk (updateStats l z o comp { writeOut e s with outLen := n, bits := b, dataOff := d }) := by
  have hmoved : TablesOk { s with bits := b, dataOff := d } :=
    { h with
      noTree := fun hno => absurd hv (by simpa using hno)
      built := fun hv hsrc => { h.built hv hsrc with }
      parsed := fun _ hp => absurd hsrc (by simpa using hp) }
  exact hmoved.congr rfl

theorem Invariant.packedState {s : State} (h : Invariant s) (hv : s.codesV = true) (hsrc : s.treeSrc = false)
    (hfit : (stateEnvelope s).length ≤ s.cfg.outCap) : Invariant (packedState s) := by
  obtain ⟨hb, hc, ht⟩ := invariant_iff.1 h
  obtain ⟨htree, -⟩ := ht.codes hv
  refine invariant_iff.2 ⟨hb.of_written hfit rfl rfl rfl rfl, { hc with }, ?_⟩
  unfold Machine.packedState
  exact ht.packed htree hsrc ..

/-- ENV_PARSE's body leaves the tree its input holds (R48 item 3, R148). -/
theorem Invariant.parsedState {s : State} (h : Invariant s) (hlen : s.inLen.toNat ≤ s.cfg.inCap) {hd : Header}
    {ns : List Node} (hp : parseHeader (inByte s) s.inLen.toNat = .ok hd)
    (hr : reconstruct (inByte s) hd.size hd.leaves = .ok ns) : Invariant (parsedState s hd ns) := by
  obtain ⟨hb, hc, ht⟩ := invariant_iff.1 h
  obtain ⟨harena, htree, hsize, hleaves, hbits, hoff⟩ := registers_of_parsed hp hr
  refine invariant_iff.2 ⟨{ hb with }, { hc with }, ?_⟩
  exact {
    arenaLen := loadArena_nodes_length_le (s := s) htree.length_le ht.arenaLen
    noTree := nofun
    freq := nofun
    built := nofun
    parsed := fun _ _ => ⟨rfl, hlen, by rw [hsize, hleaves, hbits, hoff]; exact hp,
      by rw [hsize, hleaves, harena]; exact hr⟩
    codes := nofun
    shape := fun _ => by
      rw [harena, hleaves, hsize]
      exact ⟨htree, rfl⟩ }

theorem Invariant.decodedState {s : State} (h : Invariant s) {out : List Byte} (hfit : out.length ≤ s.cfg.outCap) :
    Invariant (decodedState s out) := by
  obtain ⟨hb, hc, ht⟩ := invariant_iff.1 h
  exact invariant_iff.2 ⟨hb.of_written hfit rfl rfl rfl rfl, { hc with }, ht.congr rfl⟩

theorem invariant_of_envPackBody {o : Byte} {s t : State} (h : Invariant s) (hx : envPackBody o s = .ok t) :
    Invariant t := by
  obtain ⟨⟨hcodes, hsrc⟩, hfit, rfl⟩ := envPackBody_ok_iff.1 hx
  exact h.packedState hcodes hsrc hfit

theorem invariant_of_envParseBody {s t : State} (h : Invariant s) (hx : envParseBody s = .ok t) : Invariant t := by
  obtain ⟨hlen, hd, ns, hp, hr, rfl⟩ := envParseBody_ok_iff.1 hx
  exact h.parsedState hlen hp hr

theorem invariant_of_bitDecodeBody {o : Byte} {s t : State} (h : Invariant s) (hx : bitDecodeBody o s = .ok t) :
    Invariant t := by
  obtain ⟨-, -, -, w, hw, -, rfl⟩ := bitDecodeBody_ok_iff.1 hx
  exact h.decodedState (walkBits_out_le hw (Nat.zero_le _))

/-- Every body that succeeds keeps the invariant; ENCODE and DECODE by their stages (R185, R205). -/
theorem invariant_of_body {i : Instr} {s t : State} (h : Invariant s) (hx : bodyOf i s = .ok t) : Invariant t := by
  cases i with
  | nop => obtain rfl := ok_iff.1 hx; exact h
  | clear => obtain rfl := ok_iff.1 hx; exact h.clearDerived
  | freqCount => obtain ⟨hlen, rfl⟩ := freqCountBody_ok_iff.1 hx; exact h.countedState hlen
  | treeBuild => obtain ⟨hf, rfl⟩ := treeBuildBody_ok_iff.1 hx; exact h.builtState hf
  | codeGen => obtain ⟨hv, rfl⟩ := codeGenBody_ok_iff.1 hx; exact h.codedState hv
  | envPack => exact invariant_of_envPackBody h hx
  | envParse => exact invariant_of_envParseBody h hx
  | bitDecode => exact invariant_of_bitDecodeBody h hx
  | encode =>
    obtain ⟨hlen, s1, s2, s3, h1, h2, h3, h4⟩ := encodeBody_ok_iff.1 hx
    obtain ⟨-, rfl⟩ := freqCountBody_ok_iff.1 h1
    obtain ⟨hf, rfl⟩ := treeBuildBody_ok_iff.1 h2
    obtain ⟨hv, rfl⟩ := codeGenBody_ok_iff.1 h3
    exact invariant_of_envPackBody (((h.clearDerived.countedState hlen).builtState hf).codedState hv) h4
  | decode =>
    obtain ⟨-, s1, h1, h2⟩ := decodeBody_ok_iff.1 hx
    exact invariant_of_bitDecodeBody (invariant_of_envParseBody h.clearDerived h1) h2

theorem invariant_of_exec {i : Instr} {s t : State} (h : Invariant s) (hx : exec i s = .next t) : Invariant t := by
  rcases exec_next_cases hx with ⟨s1, hbody, rfl⟩ | ⟨r, -, rfl⟩
  · exact (invariant_of_body h hbody).completeOk
  · exact h.takeError r

/-! #### Host transactions keep the invariant -/

/-- The invariant does not read WBUSY, IRQ_EN, or the model's schedule, answer and draws. -/
theorem Invariant.congr {s t : State} (h : Invariant s)
    (ht : t = { s with
      wbusy := t.wbusy, doneIE := t.doneIE, errIE := t.errIE
      schedule := t.schedule, answer := t.answer, draws := t.draws }) : Invariant t := by
  obtain ⟨hb, hc, htab⟩ := invariant_iff.1 h
  rw [ht]
  exact invariant_iff.2 ⟨{ hb with }, { hc with }, htab.congr rfl⟩

theorem Invariant.busRead {s : State} (h : Invariant s) (t : Target) : Invariant (busRead s t).2 := by
  unfold Machine.busRead
  split_ifs
  · exact h.congr rfl
  · exact h.congr rfl
  · exact h
  · exact h

theorem Invariant.acknowledge {s : State} (h : Invariant s) (v : Word) : Invariant (acknowledge v s) := by
  obtain ⟨hb, hc, ht⟩ := invariant_iff.1 h
  refine invariant_iff.2 ⟨{ hb with }, { hc with busy := fun w hw => ?_ }, ht.congr rfl⟩
  obtain ⟨hdone, herr, hlast⟩ := hc.busy w hw
  exact ⟨by simp [hdone], by simp [herr], hlast⟩

theorem Invariant.writeCmd {s : State} (h : Invariant s) (v : Word) : Invariant (writeCmd v s) := by
  unfold Machine.writeCmd
  split
  · exact h.congr rfl
  · obtain ⟨hb, hc, ht⟩ := invariant_iff.1 h
    exact invariant_iff.2 ⟨{ hb with }, { hc with busy := fun w hw => ⟨rfl, rfl, by injection hw⟩ }, ht.congr rfl⟩

theorem Invariant.writeInLen {s : State} (h : Invariant s) (v : Word) : Invariant (writeInLen v s) := by
  unfold Machine.writeInLen
  split_ifs
  · exact h.congr rfl
  · obtain ⟨hb, hc, ht⟩ := invariant_iff.1 h
    exact invariant_iff.2 ⟨{ hb with }, { hc with }, .invInput ht.arenaLen⟩

theorem Invariant.writeInWin {s : State} (h : Invariant s) {k : Nat} (hk : k + 4 ≤ s.cfg.inCap) (v : Word) :
    Invariant (writeInWin k v s) := by
  unfold Machine.writeInWin
  split_ifs
  · exact h.congr rfl
  · obtain ⟨hb, hc, ht⟩ := invariant_iff.1 h
    exact invariant_iff.2 ⟨{ hb.writeIn (bs := le32 v) hk with }, { hc with }, .invInput ht.arenaLen⟩

/-- An aligned word of the IN window lies inside IN: IN_CAP is a multiple of 4 (R7). -/
theorem inWin_word_le {c : Config} {a k : Nat} (h4 : a % 4 = 0) (h : targetAt c a = .inWin k) : k + 4 ≤ c.inCap := by
  obtain ⟨ha, hk⟩ := lt_of_targetAt_inWin h
  obtain ⟨hmul, -⟩ := inCap_bounds c
  omega

theorem Invariant.busWrite {s : State} (h : Invariant s) (v : Word) {a : Nat} (h4 : a % 4 = 0) :
    Invariant (busWrite v s (targetAt s.cfg a)) := by
  cases ht : targetAt s.cfg a with
  | cmd => exact h.writeCmd v
  | status => exact h.acknowledge v
  | irqEn => exact h.congr rfl
  | inLen => exact h.writeInLen v
  | inWin k => exact h.writeInWin (inWin_word_le h4 ht) v
  | _ => exact h

theorem Invariant.transact {s : State} (h : Invariant s) (r : Request) : Invariant (transact r s) := by
  unfold Machine.transact
  split
  case isTrue ha =>
    cases r.kind with
    | read => exact (h.busRead (targetAt s.cfg r.addr.toNat)).congr rfl
    | write => exact (h.busWrite r.wdata (aligned_iff.1 ha)).congr rfl
  case isFalse => exact h.congr rfl

/-- Settles O12: a step is a command's completion, an illegal word's error, an idle engine's turn, a transaction or a reset,
and each of them keeps the invariant. -/
theorem everyStepKeepsTheInvariant : Obligations.EveryStepKeepsTheInvariant := by
  unfold Obligations.EveryStepKeepsTheInvariant
  intro s t h hstep
  have hu : Invariant { s with schedule := s.schedule.tail } := h.congr rfl
  rcases step_cases s with ⟨i, hx, -⟩ | ⟨w, hx, -⟩ | ⟨hx, -⟩ | ⟨r, hx⟩ | hx
  · exact invariant_of_exec hu (hx.symm.trans hstep)
  all_goals
    rw [hx] at hstep
    injection hstep with hstep
    subst hstep
  · exact hu.takeError _
  · exact hu
  · exact hu.transact r
  · exact Invariant.of_reset s.cfg _ _ _

/-- Settles O11: the reset state is one of the states a reset leaves. -/
theorem invariantHoldsAtReset : Obligations.InvariantHoldsAtReset := by
  unfold Obligations.InvariantHoldsAtReset
  exact fun cfg => Invariant.of_reset cfg [] 0 0

end Sys2Proof.Machine

/-! ### Registers, windows and the statistics (spec/10_state.md R21 to R50) -/

namespace Sys2Proof.Machine

/-! #### A transaction at an aligned offset -/

theorem transact_read {s : State} {a : Addr} {t : Target} (v : Word) (ha : aligned a = true)
    (ht : targetAt s.cfg a.toNat = t) :
    transact ⟨a, .read, v⟩ s = { (busRead s t).2 with answer := some ⟨.okay, (busRead s t).1⟩ } := by
  subst ht
  simp [transact, ha]

theorem transact_write {s : State} {a : Addr} {t : Target} (v : Word) (ha : aligned a = true)
    (ht : targetAt s.cfg a.toNat = t) :
    transact ⟨a, .write, v⟩ s = { busWrite v s t with answer := some ⟨.okay, 0⟩ } := by
  subst ht
  simp [transact, ha]

theorem busRead_of_idle {s : State} (h : s.engine = .idle) (t : Target) : busRead s t = (readTarget s t, s) := by
  simp [busRead, isBusy_of_idle h]

/-- A result read while BUSY is a fresh draw (R50). -/
theorem busRead_of_unspecified {s : State} (h : isBusy s = true) {t : Target} (ht : unspecifiedWhileBusy t = true) :
    busRead s t = (Config.freeDraw s.draws, { s with draws := s.draws + 1 }) := by
  simp [busRead, h, ht]

theorem busRead_status_of_busy {s : State} (h : isBusy s = true) :
    busRead s .status = (statusWordBusy (Config.freeDraw s.draws) s, { s with draws := s.draws + 1 }) := by
  simp [busRead, h, unspecifiedWhileBusy]

/-- What is neither a result nor STATUS reads the same while BUSY (R50). -/
theorem busRead_of_specified {s : State} {t : Target} (ht : unspecifiedWhileBusy t = false) (hs : t ≠ .status) :
    busRead s t = (readTarget s t, s) := by
  simp [busRead, ht, hs]

theorem transact_read_of_idle {s : State} {a : Addr} {t : Target} (h : s.engine = .idle) (v : Word)
    (ha : aligned a = true) (ht : targetAt s.cfg a.toNat = t) :
    transact ⟨a, .read, v⟩ s = { s with answer := some ⟨.okay, readTarget s t⟩ } := by
  rw [transact_read v ha ht, busRead_of_idle h]

theorem transact_read_of_specified {s : State} {a : Addr} {t : Target} (v : Word) (ha : aligned a = true)
    (ht : targetAt s.cfg a.toNat = t) (hu : unspecifiedWhileBusy t = false) (hs : t ≠ .status) :
    transact ⟨a, .read, v⟩ s = { s with answer := some ⟨.okay, readTarget s t⟩ } := by
  rw [transact_read v ha ht, busRead_of_specified hu hs]

/-! #### The status and enable words bit by bit (R24, R30) -/

theorem statusWord_eq (s : State) :
    statusWord s = 0#24 ++ BitVec.ofBool s.codesV ++ BitVec.ofBool (s.treeV && s.treeSrc) ++ BitVec.ofBool s.treeV ++
      BitVec.ofBool s.freqV ++ BitVec.ofBool s.wbusy ++ BitVec.ofBool s.err ++ BitVec.ofBool s.done ++
      BitVec.ofBool (isBusy s) := by
  apply BitVec.eq_of_getLsbD_eq
  intro i hi
  simp only [statusWord, statusLow, statusHigh, BitVec.getLsbD_or, bitAt_getLsbD hi, BitVec.getLsbD_append,
    BitVec.getLsbD_ofBool, BitVec.getLsbD_zero]
  interval_cases i <;> simp

theorem irqEnWord_eq (s : State) : irqEnWord s = 0#30 ++ BitVec.ofBool s.errIE ++ BitVec.ofBool s.doneIE := by
  apply BitVec.eq_of_getLsbD_eq
  intro i hi
  simp only [irqEnWord, BitVec.getLsbD_or, bitAt_getLsbD hi, BitVec.getLsbD_append, BitVec.getLsbD_ofBool,
    BitVec.getLsbD_zero]
  interval_cases i <;> simp

theorem statusLow_getLsbD (s : State) {i : Nat} (hi : i < 32) :
    (statusLow s).getLsbD i = (isBusy s && decide (i = 0) || s.done && decide (i = 1) || s.err && decide (i = 2) ||
      s.wbusy && decide (i = 3)) := by
  simp only [statusLow, BitVec.getLsbD_or, bitAt_getLsbD hi]

theorem statusWordBusy_getLsbD (d : Word) (s : State) {i : Nat} (hi : i < 32) :
    (statusWordBusy d s).getLsbD i = ((statusLow s).getLsbD i || (d.getLsbD i && decide (4 ≤ i ∧ i < 8))) := by
  simp only [statusWordBusy, BitVec.getLsbD_or, BitVec.getLsbD_and]
  congr 2
  interval_cases i <;> rfl

/-- The four low bits of STATUS stay defined while BUSY (R50). -/
theorem statusWordBusy_getLsbD_of_lt (d : Word) (s : State) {i : Nat} (hi : i < 4) :
    (statusWordBusy d s).getLsbD i = (statusLow s).getLsbD i := by
  rw [statusWordBusy_getLsbD d s (by omega)]
  simp [Nat.not_le.2 hi]

/-- Above its four low bits STATUS reads, while BUSY, four bits of the draw and then zeros (R50, R24). -/
theorem statusWordBusy_getLsbD_of_le (d : Word) (s : State) {i : Nat} (h4 : 4 ≤ i) (hi : i < 32) :
    (statusWordBusy d s).getLsbD i = (d.getLsbD i && decide (i < 8)) := by
  rw [statusWordBusy_getLsbD d s hi, statusLow_getLsbD s hi]
  simp [h4, show i ≠ 0 by omega, show i ≠ 1 by omega, show i ≠ 2 by omega, show i ≠ 3 by omega]

/-! #### The statistics (R34) -/

/-- The five statistics registers. -/
def statistics (s : State) : Word × Word × Word × Word × Word :=
  (s.statLeaf, s.statNodes, s.statOrig, s.statComp, s.statRatio)

theorem statistics_eq_iff {s t : State} :
    statistics t = statistics s ↔ t.statLeaf = s.statLeaf ∧ t.statNodes = s.statNodes ∧ t.statOrig = s.statOrig ∧
      t.statComp = s.statComp ∧ t.statRatio = s.statRatio := by
  simp [statistics]

@[simp] theorem statistics_busRead (s : State) (t : Target) : statistics (busRead s t).2 = statistics s := by
  unfold busRead
  split_ifs <;> rfl

@[simp] theorem statistics_busWrite (v : Word) (s : State) (t : Target) :
    statistics (busWrite v s t) = statistics s := by
  cases t with
  | cmd => simp only [busWrite, writeCmd]; split <;> rfl
  | inLen => simp only [busWrite, writeInLen]; split_ifs <;> rfl
  | inWin k => simp only [busWrite, writeInWin]; split_ifs <;> rfl
  | _ => rfl

@[simp] theorem statistics_transact (r : Request) (s : State) : statistics (transact r s) = statistics s := by
  unfold transact
  split
  · cases r.kind with
    | read => exact statistics_busRead s _
    | write => exact statistics_busWrite r.wdata s _
  · rfl

@[simp] theorem statistics_completeOk (s : State) : statistics (completeOk s) = statistics s := rfl

@[simp] theorem statistics_takeError (r : Raise) (s : State) : statistics (takeError r s) = statistics s := rfl

/-- A body that packs no envelope leaves the statistics alone. -/
theorem statistics_of_body {i : Instr} {s t : State} (h : bodyOf i s = .ok t) (hp : i ≠ .envPack) (he : i ≠ .encode) :
    statistics t = statistics s := by
  rw [statistics_eq_iff]
  cases i with
  | nop => obtain rfl := ok_iff.1 h; simp
  | clear => obtain rfl := ok_iff.1 h; simp
  | freqCount => obtain ⟨-, rfl⟩ := freqCountBody_ok_iff.1 h; simp
  | treeBuild => obtain ⟨-, rfl⟩ := treeBuildBody_ok_iff.1 h; simp
  | codeGen => obtain ⟨-, rfl⟩ := codeGenBody_ok_iff.1 h; simp
  | envParse => obtain ⟨-, hd, ns, -, -, rfl⟩ := envParseBody_ok_iff.1 h; simp
  | bitDecode => obtain ⟨-, -, -, w, -, -, rfl⟩ := bitDecodeBody_ok_iff.1 h; simp
  | decode =>
    obtain ⟨-, s1, h1, h2⟩ := decodeBody_ok_iff.1 h
    obtain ⟨-, hd, ns, -, -, rfl⟩ := envParseBody_ok_iff.1 h1
    obtain ⟨-, -, -, w, -, -, rfl⟩ := bitDecodeBody_ok_iff.1 h2
    simp
  | envPack => exact absurd rfl hp
  | encode => exact absurd rfl he

/-- A packing body succeeds with ENV_PACK's writes on a state with the same input (R182, R185). -/
theorem packed_of_body {i : Instr} {s t : State} (h : bodyOf i s = .ok t) (hi : i = .envPack ∨ i = .encode) :
    ∃ u, t = packedState u ∧ u.inLen = s.inLen ∧ (stateEnvelope u).length ≤ u.cfg.outCap := by
  rcases hi with rfl | rfl
  · obtain ⟨-, hfit, rfl⟩ := envPackBody_ok_iff.1 h
    exact ⟨s, rfl, rfl, hfit⟩
  · obtain ⟨-, hfit, rfl⟩ := encodeBody_ok_iff_fits.1 h
    exact ⟨encodedState s, rfl, by simp [encodedState], by rw [stateEnvelope_encodedState]; exact hfit⟩

/-- Settles O18: an error and every other body leave the statistics alone, and ENV_PACK's writes set all five (R184). -/
theorem onlyAPackedEnvelopeUpdatesStatistics : Obligations.OnlyAPackedEnvelopeUpdatesStatistics := by
  unfold Obligations.OnlyAPackedEnvelopeUpdatesStatistics
  refine ⟨fun r s => statistics_eq_iff.1 (statistics_transact r s), fun i s t hx => ?_⟩
  rcases exec_next_cases hx with ⟨s1, hbody, rfl⟩ | ⟨r, -, rfl⟩
  · by_cases hi : i = .envPack ∨ i = .encode
    · obtain ⟨u, rfl, hlen, hfit⟩ := packed_of_body hbody hi
      obtain ⟨-, hout, -⟩ := output_of_packed hfit
      refine .inl ⟨hi, rfl, rfl, rfl, hlen, rfl, ?_⟩
      rw [hout, completeOk_statRatio, packedState_statRatio, ratioQ16_toNat, hlen]
      simp only [toNat_eq_zero_iff]
    · obtain ⟨hp, he⟩ := not_or.1 hi
      exact .inr ⟨fun h => hi h.1, statistics_eq_iff.1
        ((statistics_completeOk s1).trans (statistics_of_body hbody hp he))⟩
  · exact .inr ⟨fun h => causeCode_ne_zero r.cause h.2, statistics_eq_iff.1 (statistics_takeError r s)⟩

/-! #### The obligations about registers and windows -/

/-- Settles O9: the fields and the windows read off the reset state. -/
theorem resetLeavesTheListedValues : Obligations.ResetLeavesTheListedValues := by
  unfold Obligations.ResetLeavesTheListedValues
  intro cfg s
  refine ⟨rfl, rfl, rfl, rfl, rfl, rfl, rfl, rfl, rfl, rfl, rfl, rfl, rfl, rfl, rfl, rfl, rfl, rfl, rfl, rfl, rfl, rfl,
    rfl, rfl, rfl, rfl, ?_, ?_, ?_, ?_, ?_, rfl⟩
  · exact fun b => rfl
  · exact fun i w => rfl
  · exact fun b w => rfl
  · exact fun k => by simp [s, readTarget, outWindowByte, State.resetOf, wordOfBytes]
  · exact fun k => rfl

/-- Settles O52: STATUS is acknowledged by write-1-to-clear (R238), IRQ_EN is stored (R30). -/
theorem statusAndIrqEnWrites : Obligations.StatusAndIrqEnWrites := by
  unfold Obligations.StatusAndIrqEnWrites
  intro s v
  constructor
  · rw [transact_write (t := .status) v rfl rfl]
    have clear : ∀ b c : Bool, (b && !c) = if c then false else b := by decide
    simp only [busWrite, acknowledge, clear]
  · rw [transact_write (t := .irqEn) v rfl rfl]
    rfl

/-- Settles O54: each of the three targets drops the write and sets WBUSY (R28). -/
theorem busyWritesAreDropped : Obligations.BusyWritesAreDropped := by
  unfold Obligations.BusyWritesAreDropped
  intro s w v a hw ha htarget
  have hbusy := isBusy_of_busy hw
  rcases htarget with rfl | rfl | ⟨hlo, hhi⟩
  · rw [transact_write (t := .cmd) v ha rfl]
    simp only [busWrite, writeCmd, hw]
  · rw [transact_write (t := .inLen) v ha rfl]
    simp only [busWrite, writeInLen, hbusy, if_true]
  · rw [transact_write v ha (targetAt_inWin hlo hhi)]
    simp only [busWrite, writeInWin, hbusy, if_true]

/-- Settles O59: each offset leads to its register, and IDLE reads the register. -/
theorem registersReadAtTheirOffsets : Obligations.RegistersReadAtTheirOffsets := by
  unfold Obligations.RegistersReadAtTheirOffsets
  intro s hidle rd
  have read : ∀ (a : Addr) (t : Target) (d : Word), aligned a = true → targetAt s.cfg a.toNat = t →
      readTarget s t = d → rd a = some ⟨.okay, d⟩ := by
    rintro a t d ha ht rfl
    simp only [rd, transact_read_of_idle hidle 0 ha ht]
  have hstatus : readTarget s .status = 0#24 ++ BitVec.ofBool s.codesV ++ BitVec.ofBool (s.treeV && s.treeSrc) ++
      BitVec.ofBool s.treeV ++ BitVec.ofBool s.freqV ++ BitVec.ofBool s.wbusy ++ BitVec.ofBool s.err ++
      BitVec.ofBool s.done ++ 0#1 := by
    rw [readTarget, statusWord_eq, isBusy_of_idle hidle]
    rfl
  have herrCode : readTarget s .errCode = 0#24 ++ s.errCode := by
    rw [readTarget, BitVec.setWidth_eq_append (by omega)]
    rfl
  refine ⟨read _ .id _ rfl rfl rfl, read _ .inCap _ rfl rfl rfl, read _ .outCap _ rfl rfl rfl,
    read _ .reserved _ rfl rfl rfl, read _ .cmd _ rfl rfl rfl, read _ .status _ rfl rfl hstatus,
    read _ .irqEn _ rfl rfl (irqEnWord_eq s), read _ .errCode _ rfl rfl herrCode, read _ .errInfo _ rfl rfl rfl,
    read _ .inLen _ rfl rfl rfl, read _ .outLen _ rfl rfl rfl, read _ .treeSize _ rfl rfl rfl,
    read _ .leafCount _ rfl rfl rfl, read _ .bits _ rfl rfl rfl, read _ .dataOff _ rfl rfl rfl,
    read _ .root _ rfl rfl rfl, read _ .statLeaf _ rfl rfl rfl, read _ .statNodes _ rfl rfl rfl,
    read _ .statOrig _ rfl rfl rfl, read _ .statComp _ rfl rfl rfl, read _ .statRatio _ rfl rfl rfl,
    read _ .reserved _ rfl rfl rfl, read _ .reserved _ rfl rfl rfl⟩

/-- A word written to the IN window reads back byte by byte, and no other byte of IN changes (R63). -/
theorem inByte_of_wordWritten {s t : State} {k : Nat} {v : Word} (hbuf : t.inBuf = s.inBuf.writeBytes k (le32 v))
    (hepoch : t.epoch = s.epoch) :
    (∀ j, j < 4 → inByte t (k + j) = v.extractLsb' (8 * j) 8) ∧
    (∀ n, n < k ∨ k + 4 ≤ n → inByte t n = inByte s n) := by
  constructor
  · intro j hj
    rw [inByte, hbuf, Memory.read?_writeBytes, le32_length, if_pos (by omega), Nat.add_sub_cancel_left]
    interval_cases j <;> rfl
  · intro n hn
    rw [inByte, hbuf, hepoch, Memory.read?_writeBytes, le32_length, if_neg (by omega), inByte]

/-- Settles O53: both writes store and run InvInput (R46), and the IN window reads its four bytes back. -/
theorem inputWritesInvalidate : Obligations.InputWritesInvalidate := by
  unfold Obligations.InputWritesInvalidate
  intro s v hidle
  have hbusy := isBusy_of_idle hidle
  constructor
  · rw [transact_write (t := .inLen) v rfl rfl]
    simp only [busWrite, writeInLen, hbusy, Bool.false_eq_true, if_false]
    rfl
  · intro k hk a t
    obtain ⟨-, -, hcap⟩ := inCap_bounds s.cfg
    have ha : a.toNat = 0x1000000 + 4 * k := by
      rw [BitVec.toNat_ofNat, Nat.mod_eq_of_lt (by omega)]
    have halign : aligned a = true := aligned_iff.2 (by omega)
    have htarget : targetAt s.cfg a.toNat = .inWin (4 * k) := by
      rw [ha, targetAt_inWin (by omega) (by omega), Nat.add_sub_cancel_left]
    have ht : t = { invInput { s with inBuf := s.inBuf.writeBytes (4 * k) (le32 v) } with
        answer := some ⟨.okay, 0⟩ } := by
      simp only [t, transact_write v halign htarget, busWrite, writeInWin, hbusy, Bool.false_eq_true, if_false]
    obtain ⟨hword, hrest⟩ := inByte_of_wordWritten (s := s) (t := t) (k := 4 * k) (v := v) (by rw [ht]; rfl) (by rw [ht]; rfl)
    refine ⟨hword, hrest, by rw [ht]; rfl, ?_⟩
    have htidle : t.engine = .idle := by rw [ht]; exact hidle
    have htcfg : targetAt t.cfg a.toNat = .inWin (4 * k) := by rw [ht]; exact htarget
    rw [transact_read_of_idle htidle 0 halign htcfg]
    have h0 := hword 0 (by omega)
    rw [Nat.add_zero] at h0
    rw [readTarget, h0, hword 1 (by omega), hword 2 (by omega), hword 3 (by omega), wordOfBytes_le32]

/-- Settles O56: a BUSY read is a draw, STATUS, or a register or byte that stays defined, by the ranges of R43 and R50. -/
theorem busyReadsOfResultsAreFree : Obligations.BusyReadsOfResultsAreFree := by
  unfold Obligations.BusyReadsOfResultsAreFree
  intro s w v a hinv hw ha t drawn n
  have hbusy := isBusy_of_busy hw
  obtain ⟨hdone, herr, -⟩ := hinv.busy w hw
  have read : ∀ {m : Nat} {tgt : Target}, n = m → targetAt s.cfg m = tgt → unspecifiedWhileBusy tgt = false →
      tgt ≠ .status → t = { s with answer := some ⟨.okay, readTarget s tgt⟩ } := by
    rintro m tgt rfl ht hu hs
    exact transact_read_of_specified v ha ht hu hs
  refine ⟨fun hn => ?_, fun hn => ?_, fun hn => ?_, fun hn => ?_, fun hn => ?_, fun hn => ?_, fun hn => ?_, fun hn => ?_,
    fun k hk hn => ?_, fun hn => ?_⟩
  · have htarget : targetAt s.cfg a.toNat = .status := by rw [show a.toNat = 0x14 from hn]; rfl
    refine ⟨statusWordBusy (Config.freeDraw s.draws) s, ?_, ?_, ?_, ?_, ?_, fun i h4 h8 => ?_, ?_⟩
    · rw [show t = _ from transact_read v ha htarget, busRead_status_of_busy hbusy]
    · rw [statusWordBusy_getLsbD_of_lt _ s (by omega), statusLow_getLsbD s (by omega)]
      simp [hbusy]
    · rw [statusWordBusy_getLsbD_of_lt _ s (by omega), statusLow_getLsbD s (by omega)]
      simp [hdone]
    · rw [statusWordBusy_getLsbD_of_lt _ s (by omega), statusLow_getLsbD s (by omega)]
      simp [herr]
    · rw [statusWordBusy_getLsbD_of_lt _ s (by omega), statusLow_getLsbD s (by omega)]
      simp
    · rw [statusWordBusy_getLsbD_of_le _ s h4 (by omega)]
      simp [h8]
    · apply BitVec.eq_of_getLsbD_eq
      intro i hi
      rw [BitVec.getLsbD_extractLsb', statusWordBusy_getLsbD_of_le _ s (by omega) (by omega)]
      simp
  · have hu := unspecifiedWhileBusy_targetAt (c := s.cfg) (aligned_iff.1 ha) hn
    rw [show t = _ from transact_read v ha rfl, busRead_of_unspecified hbusy hu]
  · exact read hn (tgt := .id) rfl rfl nofun
  · exact read hn (tgt := .inCap) rfl rfl nofun
  · exact read hn (tgt := .outCap) rfl rfl nofun
  · exact read hn (tgt := .cmd) rfl rfl nofun
  · rw [read hn (tgt := .irqEn) rfl rfl nofun, readTarget, irqEnWord_eq]
  · exact read hn (tgt := .inLen) rfl rfl nofun
  · refine ⟨_, read hn (targetAt_inWin (by omega) (by omega)) rfl nofun, fun j hj => ?_⟩
    rw [readTarget, wordOfBytes_byte _ _ _ _ hj, Nat.add_sub_cancel_left]
    interval_cases j <;> rfl
  · exact read rfl (targetAt_reserved hn) rfl nofun

end Sys2Proof.Machine

/-! ### The host port: what a transaction can and cannot do (spec/20_memory.md) -/

namespace Sys2Proof.Machine

/-! #### One step, by the head of the schedule -/

theorem step_of_nil {s : State} (h : s.schedule = []) : step s = engineStep s := by simp only [step, h]

theorem step_of_host {s : State} {r : Request} {rest : List Event} (h : s.schedule = .host r :: rest) :
    step s = .next (transact r { s with schedule := rest }) := by simp only [step, h]

theorem step_of_engine {s : State} {rest : List Event} (h : s.schedule = .engine :: rest) :
    step s = engineStep { s with schedule := rest } := by simp only [step, h]

theorem step_of_reset {s : State} {rest : List Event} (h : s.schedule = .reset :: rest) :
    step s = .next (resetBlock { s with schedule := rest }) := by simp only [step, h]

/-- An IDLE engine does nothing (R248). -/
theorem engineStep_of_idle {s : State} (h : s.engine = .idle) : engineStep s = .next s := by simp only [engineStep, h]

/-- Settles O5: the step's equation for each head of the schedule, and an IDLE engine's turn. -/
theorem stepServesTheNextEvent : Obligations.StepServesTheNextEvent := by
  unfold Obligations.StepServesTheNextEvent
  intro s rest
  refine ⟨fun r hs => step_of_host hs, fun hs => step_of_reset hs, fun hidle hs => ?_, fun hidle hs => ?_⟩
  · rw [step_of_nil hs, engineStep_of_idle hidle]
  · rw [step_of_engine hs]
    exact engineStep_of_idle hidle

/-- Settles O7: a step is a command, which completes on success and on error alike, or answers its next state outright. -/
theorem everyStepAnswersANextState : Obligations.EveryStepAnswersANextState := by
  unfold Obligations.EveryStepAnswersANextState
  intro s
  rcases step_cases s with ⟨i, hx, -⟩ | ⟨w, hx, -⟩ | ⟨hx, -⟩ | ⟨r, hx⟩ | hx
  · obtain ⟨t, ht, -⟩ := exec_ends_idle i { s with schedule := s.schedule.tail }
    exact ⟨t, hx.trans ht⟩
  all_goals exact ⟨_, hx⟩

/-! #### Misaligned and ignored transactions (R62, R68) -/

theorem transact_of_misaligned {a : Addr} (ha : aligned a = false) (kind : Access) (v : Word) (s : State) :
    transact ⟨a, kind, v⟩ s = { s with answer := some ⟨.error, 0⟩ } := by
  simp [transact, ha]

/-- What a write has an effect on: CMD, STATUS, IRQ_EN, IN_LEN and the IN window (R68). -/
def writable : Target → Bool
  | .cmd | .status | .irqEn | .inLen | .inWin _ => true
  | _ => false

theorem busWrite_of_not_writable (v : Word) (s : State) {t : Target} (h : writable t = false) : busWrite v s t = s := by
  cases t with
  | cmd | status | irqEn | inLen | inWin k => cases h
  | _ => rfl

theorem eq_of_writable_registerAt {a : Nat} (h : writable (registerAt a) = true) :
    a = 0x10 ∨ a = 0x14 ∨ a = 0x18 ∨ a = 0x24 := by
  unfold registerAt at h
  split at h <;> first | omega | cases h

/-- Where the writable targets stand on the map (R43). -/
theorem offset_of_writable {c : Config} {a : Nat} (h : writable (targetAt c a) = true) :
    a = 0x10 ∨ a = 0x14 ∨ a = 0x18 ∨ a = 0x24 ∨ (0x1000000 ≤ a ∧ a < 0x1000000 + c.inCap) := by
  unfold targetAt at h
  split_ifs at h
  · have := eq_of_writable_registerAt h
    omega
  all_goals first | omega | cases h

/-- An ignored write changes nothing but the recorded answer. -/
theorem transact_write_of_not_writable {s : State} {a : Addr} (v : Word) (ha : aligned a = true)
    (h : writable (targetAt s.cfg a.toNat) = false) :
    transact ⟨a, .write, v⟩ s = { s with answer := some ⟨.okay, 0⟩ } := by
  rw [transact_write v ha rfl, busWrite_of_not_writable v s h]

/-- A reserved offset reads 0 and ignores writes, busy or not. -/
theorem transact_of_reserved {s : State} {a : Addr} (kind : Access) (v : Word) (ha : aligned a = true)
    (h : targetAt s.cfg a.toNat = .reserved) : transact ⟨a, kind, v⟩ s = { s with answer := some ⟨.okay, 0⟩ } := by
  cases kind with
  | read => exact transact_read_of_specified v ha h rfl nofun
  | write => exact transact_write_of_not_writable v ha (by rw [h]; rfl)

/-- An aligned transaction is answered OKAY, a write with data 0 (R60, R62). -/
theorem transact_answer_of_aligned {a : Addr} (ha : aligned a = true) (kind : Access) (v : Word) (s : State) :
    ∃ d, (transact ⟨a, kind, v⟩ s).answer = some ⟨.okay, d⟩ ∧ (kind = .write → d = 0) := by
  cases kind with
  | read => exact ⟨_, by rw [transact_read v ha rfl], nofun⟩
  | write => exact ⟨0, by rw [transact_write v ha rfl], fun _ => rfl⟩

/-- Settles O58: misaligned, reserved and ignored transactions change only the answer, and the map of R43 says which
offsets are reserved and which are writable. -/
theorem busRejectsOnlyMisalignedAccesses : Obligations.BusRejectsOnlyMisalignedAccesses := by
  unfold Obligations.BusRejectsOnlyMisalignedAccesses
  rintro s ⟨a, kind, v⟩ n
  refine ⟨fun hmis => transact_of_misaligned (beq_eq_false_iff_ne.2 hmis) kind v s, fun hal => ?_⟩
  have ha : aligned a = true := beq_iff_eq.2 hal
  obtain ⟨d, hans, hd⟩ := transact_answer_of_aligned ha kind v s
  refine ⟨d, hans, hd, fun hreserved => ?_, ?_⟩
  · have ht := transact_of_reserved kind v ha (targetAt_reserved hreserved)
    rw [ht] at hans
    injection hans with hans
    injection hans with _ hzero
    exact ⟨hzero.symm, ht⟩
  · rintro rfl hcmd hstatus hirqEn hinLen hinWin
    refine transact_write_of_not_writable v ha (Bool.eq_false_iff.2 fun hwritable => ?_)
    rcases offset_of_writable hwritable with h | h | h | h | h
    · exact hcmd (BitVec.eq_of_toNat_eq h)
    · exact hstatus (BitVec.eq_of_toNat_eq h)
    · exact hirqEn (BitVec.eq_of_toNat_eq h)
    · exact hinLen (BitVec.eq_of_toNat_eq h)
    · exact hinWin h

/-! #### Reads in IDLE (R68, R69) -/

/-- What the bus answered earlier changes no read (log 3). -/
@[simp] theorem readTarget_answer (s : State) (a : Option Answer) (t : Target) :
    readTarget { s with answer := a } t = readTarget s t := rfl

/-- In IDLE a read leaves one state behind, whatever answer was recorded before it. -/
theorem transact_read_idle {s : State} (h : s.engine = .idle) (a : Addr) (v : Word) :
    ∃ b, ∀ p, transact ⟨a, .read, v⟩ { s with answer := p } = { s with answer := some b } := by
  cases ha : aligned a with
  | false => exact ⟨_, fun p => transact_of_misaligned ha .read v _⟩
  | true =>
    refine ⟨⟨.okay, readTarget s (targetAt s.cfg a.toNat)⟩, fun p => ?_⟩
    have hread := transact_read_of_idle (s := { s with answer := p }) h v ha rfl
    rwa [readTarget_answer] at hread

/-- Settles O57: the first read and the second leave the same state behind. -/
theorem idleReadsHaveNoSideEffect : Obligations.IdleReadsHaveNoSideEffect := by
  unfold Obligations.IdleReadsHaveNoSideEffect
  rintro s ⟨a, kind, v⟩ hidle rfl
  obtain ⟨b, hread⟩ := transact_read_idle hidle a v
  have hfirst : transact ⟨a, .read, v⟩ s = { s with answer := some b } := hread s.answer
  rw [hfirst]
  exact ⟨rfl, congrArg State.answer (hread (some b))⟩

/-! #### Transactions while BUSY (R50, R75) -/

/-- `t` is `s` but for DONE, ERR, WBUSY, IRQ_EN and the model's answer and draw count, with neither DONE nor ERR set. -/
structure KeepsOperands (s t : State) : Prop where
  frame : t = { s with
    done := t.done, err := t.err, wbusy := t.wbusy, doneIE := t.doneIE, errIE := t.errIE
    answer := t.answer, draws := t.draws }
  done : s.done = false → t.done = false
  err : s.err = false → t.err = false

theorem KeepsOperands.refl (s : State) : KeepsOperands s s := ⟨rfl, id, id⟩

theorem KeepsOperands.setAnswer {s t : State} (h : KeepsOperands s t) (a : Option Answer) :
    KeepsOperands s { t with answer := a } :=
  ⟨congrArg (fun u : State => { u with answer := a }) h.frame, h.done, h.err⟩

/-- A dropped write sets WBUSY and nothing else (R28). -/
theorem KeepsOperands.dropped (s : State) : KeepsOperands s { s with wbusy := true } := ⟨rfl, id, id⟩

theorem keepsOperands_busRead (s : State) (t : Target) : KeepsOperands s (busRead s t).2 := by
  unfold busRead
  split_ifs
  · exact ⟨rfl, id, id⟩
  · exact ⟨rfl, id, id⟩
  · exact .refl s
  · exact .refl s

theorem keepsOperands_acknowledge (v : Word) (s : State) : KeepsOperands s (acknowledge v s) :=
  ⟨rfl, fun h => by simp [h], fun h => by simp [h]⟩

theorem keepsOperands_busWrite {s : State} {w : Word} (h : s.engine = .busy w) (v : Word) (t : Target) :
    KeepsOperands s (busWrite v s t) := by
  have hbusy := isBusy_of_busy h
  cases t with
  | cmd => simpa only [busWrite, writeCmd, h] using KeepsOperands.dropped s
  | inLen => simpa only [busWrite, writeInLen, hbusy, if_true] using KeepsOperands.dropped s
  | inWin k => simpa only [busWrite, writeInWin, hbusy, if_true] using KeepsOperands.dropped s
  | status => exact keepsOperands_acknowledge v s
  | irqEn => exact ⟨rfl, id, id⟩
  | _ => exact .refl s

theorem keepsOperands_transact {s : State} {w : Word} (h : s.engine = .busy w) (r : Request) :
    KeepsOperands s (transact r s) := by
  obtain ⟨a, kind, v⟩ := r
  cases ha : aligned a with
  | false =>
    rw [transact_of_misaligned ha]
    exact (KeepsOperands.refl s).setAnswer _
  | true =>
    cases kind with
    | read =>
      rw [transact_read v ha rfl]
      exact (keepsOperands_busRead s _).setAnswer _
    | write =>
      rw [transact_write v ha rfl]
      exact (keepsOperands_busWrite h v _).setAnswer _

/-- Settles O55: reads move at most the draw count, and of the writes only STATUS and IRQ_EN are not dropped or ignored. -/
theorem busyTransactionsKeepTheOperands : Obligations.BusyTransactionsKeepTheOperands := by
  unfold Obligations.BusyTransactionsKeepTheOperands
  intro s w r hw
  obtain ⟨hframe, hdone, herr⟩ := keepsOperands_transact hw r
  exact ⟨hframe, hdone, herr⟩

end Sys2Proof.Machine

/-! ### The command word: decoder and encoder (spec/30_encoding.md R90 to R93) -/

namespace Sys2Proof

theorem lookup_opcodeMap (i : Instr) : opcodeMap.lookup i.opcode = some i := by cases i <;> rfl

/-- The rows of the map are the commands with the OPC of their own rule's "Encoding" line. -/
theorem mem_opcodeMap_iff {c : Byte} {i : Instr} : (c, i) ∈ opcodeMap ↔ c = i.opcode := by
  cases i <;> simp [opcodeMap, Instr.opcode]

/-! #### What a word decodes to -/

theorem decode_of_rsv_ne {w : Word} (h : rsvOf w ≠ 0#24) : decode w = .error .reservedBits := by
  simp only [decode, if_pos h]

theorem decode_of_opcode {w : Word} {i : Instr} (h0 : rsvOf w = 0#24) (h : opcOf w = i.opcode) : decode w = .ok i := by
  simp [decode, h0, h, lookup_opcodeMap]

theorem decode_of_no_opcode {w : Word} (h0 : rsvOf w = 0#24) (h : ∀ i : Instr, opcOf w ≠ i.opcode) :
    decode w = .error .unknownOpcode := by
  have hnone : opcodeMap.lookup (opcOf w) = none := by
    refine List.lookup_eq_none_iff.2 fun ⟨c, i⟩ hrow => bne_iff_ne.2 ?_
    exact mem_opcodeMap_iff.1 hrow ▸ h i
  simp [decode, h0, hnone]

/-- R93, the three things a word can decode to. -/
theorem decode_cases (w : Word) :
    (rsvOf w ≠ 0#24 ∧ decode w = .error .reservedBits) ∨
    (∃ i : Instr, rsvOf w = 0#24 ∧ opcOf w = i.opcode ∧ decode w = .ok i) ∨
    (rsvOf w = 0#24 ∧ (∀ i : Instr, opcOf w ≠ i.opcode) ∧ decode w = .error .unknownOpcode) := by
  by_cases h0 : rsvOf w = 0#24
  · by_cases h : ∃ i : Instr, opcOf w = i.opcode
    · obtain ⟨i, hi⟩ := h
      exact .inr (.inl ⟨i, h0, hi, decode_of_opcode h0 hi⟩)
    · have hno := not_exists.1 h
      exact .inr (.inr ⟨h0, hno, decode_of_no_opcode h0 hno⟩)
  · exact .inl ⟨h0, decode_of_rsv_ne h0⟩

theorem decode_eq_ok_iff {w : Word} {i : Instr} : decode w = .ok i ↔ rsvOf w = 0#24 ∧ opcOf w = i.opcode := by
  refine ⟨fun h => ?_, fun ⟨h0, hi⟩ => decode_of_opcode h0 hi⟩
  rcases decode_cases w with ⟨-, hd⟩ | ⟨j, h0, hj, hd⟩ | ⟨-, -, hd⟩ <;> rw [hd] at h
  · cases h
  · cases h
    exact ⟨h0, hj⟩
  · cases h

theorem decode_eq_unknownOpcode_iff {w : Word} :
    decode w = .error .unknownOpcode ↔ rsvOf w = 0#24 ∧ ∀ i : Instr, opcOf w ≠ i.opcode := by
  refine ⟨fun h => ?_, fun ⟨h0, hno⟩ => decode_of_no_opcode h0 hno⟩
  rcases decode_cases w with ⟨-, hd⟩ | ⟨j, -, -, hd⟩ | ⟨h0, hno, -⟩
  · rw [hd] at h; cases h
  · rw [hd] at h; cases h
  · exact ⟨h0, hno⟩

/-! #### The legal words (R92) -/

/-- The ranges of R92 hold exactly the ten opcodes. -/
theorem exists_opcode_iff {c : Byte} : (∃ i : Instr, c = i.opcode) ↔
    ((c.toNat ≤ 0x03 ∨ 0x10 ≤ c.toNat ∧ c.toNat ≤ 0x13) ∨ c.toNat = 0x20) ∨ c.toNat = 0x21 := by
  constructor
  · rintro ⟨i, rfl⟩
    cases i <;> decide
  · intro hrange
    have hten : c.toNat = 0x00 ∨ c.toNat = 0x01 ∨ c.toNat = 0x02 ∨ c.toNat = 0x03 ∨ c.toNat = 0x10 ∨ c.toNat = 0x11 ∨
        c.toNat = 0x12 ∨ c.toNat = 0x13 ∨ c.toNat = 0x20 ∨ c.toNat = 0x21 := by omega
    rcases hten with h | h | h | h | h | h | h | h | h | h
    · exact ⟨.nop, BitVec.eq_of_toNat_eq h⟩
    · exact ⟨.clear, BitVec.eq_of_toNat_eq h⟩
    · exact ⟨.encode, BitVec.eq_of_toNat_eq h⟩
    · exact ⟨.decode, BitVec.eq_of_toNat_eq h⟩
    · exact ⟨.freqCount, BitVec.eq_of_toNat_eq h⟩
    · exact ⟨.treeBuild, BitVec.eq_of_toNat_eq h⟩
    · exact ⟨.codeGen, BitVec.eq_of_toNat_eq h⟩
    · exact ⟨.envPack, BitVec.eq_of_toNat_eq h⟩
    · exact ⟨.envParse, BitVec.eq_of_toNat_eq h⟩
    · exact ⟨.bitDecode, BitVec.eq_of_toNat_eq h⟩

theorem opcListed_iff {w : Word} : opcListed w = true ↔ ∃ i : Instr, opcOf w = i.opcode := by
  rw [exists_opcode_iff]
  simp only [opcListed, opcOf, Bool.or_eq_true, Bool.and_eq_true, decide_eq_true_eq, beq_iff_eq]

theorem rsvZero_iff {w : Word} : rsvZero w = true ↔ rsvOf w = 0#24 := beq_iff_eq

theorem commandWordOk_iff {w : Word} : commandWordOk w = true ↔ ∃ i, decode w = .ok i := by
  simp only [commandWordOk, Bool.and_eq_true, rsvZero_iff, opcListed_iff, decode_eq_ok_iff, exists_and_left]

/-! #### The encoder -/

theorem rsvOf_encode (i : Instr) : rsvOf (encode i) = 0#24 := by cases i <;> rfl

theorem opcOf_encode (i : Instr) : opcOf (encode i) = i.opcode := by cases i <;> rfl

/-- RSV and OPC are all of a command word (R90). -/
theorem rsvOf_append_opcOf (w : Word) : (rsvOf w ++ opcOf w : Word) = w := by
  apply BitVec.eq_of_getLsbD_eq
  intro j hj
  simp only [rsvOf, opcOf, BitVec.getLsbD_append, BitVec.getLsbD_extractLsb']
  split
  · simp [*]
  · simp [show j - 8 < 24 by omega, show 8 + (j - 8) = j by omega]

theorem eq_encode_iff {w : Word} {i : Instr} : w = encode i ↔ rsvOf w = 0#24 ∧ opcOf w = i.opcode := by
  constructor
  · rintro rfl
    exact ⟨rsvOf_encode i, opcOf_encode i⟩
  · rintro ⟨h0, hi⟩
    rw [← rsvOf_append_opcOf w, h0, hi, encode]

theorem decode_eq_ok_iff_eq_encode {w : Word} {i : Instr} : decode w = .ok i ↔ w = encode i :=
  decode_eq_ok_iff.trans eq_encode_iff.symm

theorem decode_encode (i : Instr) : decode (encode i) = .ok i := decode_eq_ok_iff_eq_encode.2 rfl

/-- A word outside the ranges of R92, its RSV 0, is refused for its opcode. -/
theorem decode_of_opcListed_eq_false {w : Word} (h0 : rsvOf w = 0#24) (h : opcListed w = false) :
    decode w = .error .unknownOpcode :=
  decode_of_no_opcode h0 fun i hi => by rw [opcListed_iff.2 ⟨i, hi⟩] at h; cases h

/-! #### The obligations about the command word -/

/-- Settles O2: the three things a word can decode to, with the rows of the map as the commands' opcodes. -/
theorem decodingSelectsTheRowOfTheOpcode : Obligations.DecodingSelectsTheRowOfTheOpcode := by
  unfold Obligations.DecodingSelectsTheRowOfTheOpcode
  simp only [mem_opcodeMap_iff]
  intro w
  exact ⟨decode_of_rsv_ne, fun h0 => ⟨fun i => decode_eq_ok_iff.trans (and_iff_right h0),
    decode_eq_unknownOpcode_iff.trans (and_iff_right h0)⟩, commandWordOk_iff.symm⟩

/-- Settles O3: a command and its word have the same RSV and OPC, and those are all of the word. -/
theorem decodingInvertsEncoding : Obligations.DecodingInvertsEncoding := by
  unfold Obligations.DecodingInvertsEncoding
  exact fun w i => ⟨decode_eq_ok_iff_eq_encode, by cases i <;> rfl⟩

/-- Settles O1: each of the ten words is the encoding of its command, and the others break one clause of R92. -/
theorem decoderReadsTheOpcodeMap : Obligations.DecoderReadsTheOpcodeMap := by
  unfold Obligations.DecoderReadsTheOpcodeMap
  exact ⟨decode_encode .nop, decode_encode .clear, decode_encode .encode, decode_encode .decode,
    decode_encode .freqCount, decode_encode .treeBuild, decode_encode .codeGen, decode_encode .envPack,
    decode_encode .envParse, decode_encode .bitDecode,
    decode_of_opcListed_eq_false rfl rfl, decode_of_opcListed_eq_false rfl rfl, decode_of_opcListed_eq_false rfl rfl,
    decode_of_rsv_ne (by decide)⟩

end Sys2Proof

/-! ### The layout of an envelope (spec/30_encoding.md R100 to R102) -/

namespace Sys2Proof.Machine

/-- Byte `j` of the record of node `i`, in the envelope. -/
theorem envelope_record {nodes : List Node} (l : Nat) (b : List Bool) {i j : Nat} (hi : i < nodes.length)
    (hj : j < (serializeNode l i nodes[i]).length) :
    (envelope nodes l b).getD (recordOff l i + j) 0 = (serializeNode l i nodes[i]).getD j 0 := by
  have hj' := hj
  rw [serializeNode_length] at hj'
  have hin : recordOff l i + j < 12 + (serialize nodes l).length := by
    rw [serialize_length, recordOff]
    split at hj' <;> omega
  have h12 : 12 ≤ recordOff l i + j := by rw [recordOff]; omega
  rw [envelope_getD, if_neg (by omega), if_neg (by omega), if_neg (by omega), if_pos hin,
    show recordOff l i + j - 12 = min i l + 4 * (i - l) + j by rw [recordOff]; omega]
  exact serialize_record l hi hj

/-- The header's three words (R100). -/
theorem envelope_header {nodes : List Node} {l : Nat} {b : List Bool} (hn : nodes.length < 2 ^ 32) (hl : l < 2 ^ 32)
    (hb : b.length < 2 ^ 32) :
    rdLE32 (fun k => (envelope nodes l b).getD k 0) 0 = nodes.length ∧
    rdLE32 (fun k => (envelope nodes l b).getD k 0) 4 = l ∧
    rdLE32 (fun k => (envelope nodes l b).getD k 0) 8 = b.length := by
  refine ⟨?_, ?_, ?_⟩
  · rw [rdLE32_of_le32 (v := BitVec.ofNat 32 nodes.length), toNat_ofNat_of_lt hn]
    intro j hj
    rw [envelope_getD, if_pos (by omega), Nat.zero_add]
  · rw [rdLE32_of_le32 (v := BitVec.ofNat 32 l), toNat_ofNat_of_lt hl]
    intro j hj
    rw [envelope_getD, if_neg (by omega), if_pos (by omega), Nat.add_sub_cancel_left]
  · rw [rdLE32_of_le32 (v := BitVec.ofNat 32 b.length), toNat_ofNat_of_lt hb]
    intro j hj
    rw [envelope_getD, if_neg (by omega), if_neg (by omega), if_pos (by omega), Nat.add_sub_cancel_left]

/-- The record of a leaf is its payload (R101). -/
theorem envelope_leafRecord {nodes : List Node} {l : Nat} (b : List Bool) {i : Nat} (hi : i < nodes.length)
    (h : i < l) :
    (envelope nodes l b).getD (recordOff l i) 0 = nodePayload nodes[i] := by
  have hbyte := envelope_record l b (j := 0) hi (by simp [h])
  rwa [serializeNode, if_pos h] at hbyte

/-- The record of an internal node is its two children, left first (R101). -/
theorem envelope_internalRecord {nodes : List Node} {l : Nat} (b : List Bool) {i : Nat} (hi : i < nodes.length)
    (h : l ≤ i) :
    rdLE16 (fun k => (envelope nodes l b).getD k 0) (recordOff l i) = (nodeLeft nodes[i]).toNat ∧
    rdLE16 (fun k => (envelope nodes l b).getD k 0) (recordOff l i + 2) = (nodeRight nodes[i]).toNat := by
  have byte : ∀ j, j < 4 → (envelope nodes l b).getD (recordOff l i + j) 0 =
      (le16 (nodeLeft nodes[i]) ++ le16 (nodeRight nodes[i])).getD j 0 := by
    intro j hj
    have hbyte := envelope_record l b (j := j) hi (by simpa [Nat.not_lt.2 h] using hj)
    rwa [serializeNode, if_neg (Nat.not_lt.2 h)] at hbyte
  exact ⟨rdLE16_of_le16 (byte 0 (by omega)) (byte 1 (by omega)), rdLE16_of_le16 (byte 2 (by omega)) (byte 3 (by omega))⟩

/-- The packed bytes stand after the header and the tree region, to the end (R102). -/
theorem envelope_drop (nodes : List Node) (l : Nat) (b : List Bool) :
    (envelope nodes l b).drop (12 + (serialize nodes l).length) = pack b :=
  List.drop_left' (by simp; omega)

/-- Settles O34: the header's words, each record by its kind, and what is left after the tree region. -/
theorem envelopeLayout : Obligations.EnvelopeLayout := by
  unfold Obligations.EnvelopeLayout
  intro nodes l b hl hn hb e at'
  obtain ⟨hsize, hleaves, hbits⟩ := envelope_header hn (Nat.lt_of_le_of_lt hl hn) hb
  refine ⟨hsize, hleaves, hbits, fun i hi => ⟨envelope_leafRecord b hi, envelope_internalRecord b hi⟩, ?_⟩
  have hdrop := envelope_drop nodes l b
  rwa [serialize_length, Nat.min_eq_right hl, ← Nat.add_assoc] at hdrop

end Sys2Proof.Machine

/-! ### What the windows show (spec/10_state.md R40 to R42, spec/20_memory.md R64) -/

namespace Sys2Proof.Machine

/-- What a read at an aligned offset answers in IDLE. -/
theorem read_answer_of_idle {s : State} (h : s.engine = .idle) {n : Nat} {t : Target} (hn : n < 2 ^ 26)
    (h4 : n % 4 = 0) (ht : targetAt s.cfg n = t) :
    (transact ⟨BitVec.ofNat 26 n, .read, 0⟩ s).answer = some ⟨.okay, readTarget s t⟩ := by
  have ha : (BitVec.ofNat 26 n).toNat = n := by rw [BitVec.toNat_ofNat, Nat.mod_eq_of_lt hn]
  rw [transact_read_of_idle (t := t) h 0 (aligned_iff.2 (by rwa [ha])) (by rwa [ha])]

/-! #### The words of an entry (R105, R106) -/

theorem nodeEntryWord_leaf_payload (p : Byte) (f : Word) :
    nodeEntryWord (.leaf p f) 2 = BitVec.ofNat 32 (256 + p.toNat) := by
  apply BitVec.eq_of_toNat_eq
  have hp := p.isLt
  rw [toNat_ofNat_of_lt (by omega)]
  simp only [nodeEntryWord, BitVec.toNat_append]
  rw [← Nat.shiftLeft_add_eq_or_of_lt hp]
  rfl

theorem nodeEntryWord_internal_children (l r : Half) (f : Word) :
    nodeEntryWord (.internal l r f) 1 = BitVec.ofNat 32 (l.toNat + 65536 * r.toNat) := by
  apply BitVec.eq_of_toNat_eq
  have hl := l.isLt
  have hr := r.isLt
  rw [toNat_ofNat_of_lt (by omega)]
  simp only [nodeEntryWord, BitVec.toNat_append]
  rw [← Nat.shiftLeft_add_eq_or_of_lt hl, Nat.shiftLeft_eq]
  omega

theorem codeEntryWord_length (p : Path) : codeEntryWord p 0 = BitVec.ofNat 32 (p.length % 256) := by
  apply BitVec.eq_of_toNat_eq
  simp only [codeEntryWord, if_true, BitVec.toNat_setWidth, BitVec.toNat_ofNat]

theorem codeEntryWord_bits (p : Path) {m j : Nat} (hm : m < 8) (hj : j < 32) :
    (codeEntryWord p (1 + m)).getLsbD j = p.getD (32 * m + j) false := by
  rw [codeEntryWord, if_neg (by omega), if_pos (by omega), wordOfBits_getLsbD _ hj, Nat.add_sub_cancel_left]

theorem codeEntryWord_past_path (p : Path) {w : Nat} (hw : 9 ≤ w) : codeEntryWord p w = 0 := by
  rw [codeEntryWord, if_neg (by omega), if_neg (by omega)]

/-! #### Valid and invalid tables -/

theorem readTarget_nodeWin {s : State} {i : Nat} (hv : s.treeV = true) (hi : i < s.treeSize.toNat) (w : Nat) :
    readTarget s (.nodeWin i w) = nodeEntryWord (node s i) w := by
  simp [readTarget, hv, hi]

theorem readTarget_nodeWin_of_invalid {s : State} {i : Nat} (h : s.treeV = false ∨ s.treeSize.toNat ≤ i) (w : Nat) :
    readTarget s (.nodeWin i w) = 0 := by
  rcases h with h | h
  · simp [readTarget, h]
  · simp [readTarget, Nat.not_lt.2 h]

theorem readTarget_codeWin {s : State} (hv : s.codesV = true) (b : Byte) (w : Nat) :
    readTarget s (.codeWin b w) = codeEntryWord (entry s.codes b) w := by
  simp [readTarget, hv]

theorem readTarget_codeWin_of_invalid {s : State} (h : s.codesV = false) (b : Byte) (w : Nat) :
    readTarget s (.codeWin b w) = 0 := by
  simp [readTarget, h]

/-- The OUT window, byte by byte (R64). -/
theorem readTarget_outWin_byte (s : State) (k : Nat) {j : Nat} (hj : j < 4) :
    (readTarget s (.outWin k)).extractLsb' (8 * j) 8 = outWindowByte s (k + j) := by
  rw [readTarget, wordOfBytes_byte _ _ _ _ hj]
  interval_cases j <;> rfl

/-! #### The windows on the map (R43), read in IDLE -/

theorem read_freqWin {s : State} (h : s.engine = .idle) (b : Byte) :
    (transact ⟨BitVec.ofNat 26 (0x1000 + 4 * b.toNat), .read, 0⟩ s).answer =
      some ⟨.okay, readTarget s (.freqWin b)⟩ := by
  have hb := b.isLt
  exact read_answer_of_idle h (by omega) (by omega) (targetAt_freqWin b)

theorem read_nodeWin {s : State} (h : s.engine = .idle) {i w : Nat} (hi : i < 512) (hw : w < 4) :
    (transact ⟨BitVec.ofNat 26 (0x2000 + 16 * i + 4 * w), .read, 0⟩ s).answer =
      some ⟨.okay, readTarget s (.nodeWin i w)⟩ :=
  read_answer_of_idle h (by omega) (by omega) (targetAt_nodeWin hi hw)

theorem read_codeWin {s : State} (h : s.engine = .idle) (b : Byte) {w : Nat} (hw : w < 16) :
    (transact ⟨BitVec.ofNat 26 (0x4000 + 64 * b.toNat + 4 * w), .read, 0⟩ s).answer =
      some ⟨.okay, readTarget s (.codeWin b w)⟩ := by
  have hb := b.isLt
  exact read_answer_of_idle h (by omega) (by omega) (targetAt_codeWin b hw)

theorem read_outWin {s : State} (h : s.engine = .idle) {k : Nat} (hk : 4 * k < s.cfg.outCap) :
    (transact ⟨BitVec.ofNat 26 (0x2000000 + 4 * k), .read, 0⟩ s).answer =
      some ⟨.okay, readTarget s (.outWin (4 * k))⟩ := by
  obtain ⟨-, -, hcap⟩ := outCap_bounds s.cfg
  refine read_answer_of_idle h (by omega) (by omega) ?_
  rw [targetAt_outWin (by omega) (by omega), Nat.add_sub_cancel_left]

/-- Settles O60: where each window offset leads, and the word its entry shows there. -/
theorem windowsShowOnlyValidTables : Obligations.WindowsShowOnlyValidTables := by
  unfold Obligations.WindowsShowOnlyValidTables
  intro s hidle rd
  refine ⟨read_freqWin hidle, fun i hi hv hsize => ?_, fun i w hi hw hinv => ?_,
    fun b hv => ⟨?_, fun m hm => ?_, fun w h9 hw => ?_⟩, fun b w hw hinv => ?_, fun k hk => ?_⟩
  · have word : ∀ {w : Nat} {d : Word}, w < 4 → nodeEntryWord (node s i) w = d →
        rd (0x2000 + 16 * i + 4 * w) = some ⟨.okay, d⟩ := by
      rintro w d hw rfl
      rw [← readTarget_nodeWin hv hsize]
      exact read_nodeWin hidle hi hw
    refine ⟨word (w := 0) (by omega) rfl, fun p f hnode => ⟨?_, ?_⟩, fun l r f hnode => ⟨?_, ?_⟩,
      word (w := 3) (by omega) rfl⟩
    · exact word (w := 1) (by omega) (by rw [hnode]; rfl)
    · exact word (w := 2) (by omega) (by rw [hnode, nodeEntryWord_leaf_payload])
    · exact word (w := 1) (by omega) (by rw [hnode, nodeEntryWord_internal_children])
    · exact word (w := 2) (by omega) (by rw [hnode]; rfl)
  · rw [← readTarget_nodeWin_of_invalid hinv w]
    exact read_nodeWin hidle hi hw
  · rw [← codeEntryWord_length, ← readTarget_codeWin hv]
    exact read_codeWin hidle b (w := 0) (by omega)
  · refine ⟨_, read_codeWin hidle b (by omega), fun j hj => ?_⟩
    rw [readTarget_codeWin hv, codeEntryWord_bits _ hm hj]
  · rw [← codeEntryWord_past_path (entry s.codes b) h9, ← readTarget_codeWin hv]
    exact read_codeWin hidle b hw
  · rw [← readTarget_codeWin_of_invalid hinv b w]
    exact read_codeWin hidle b hw
  · exact ⟨_, read_outWin hidle hk, fun j hj => readTarget_outWin_byte s (4 * k) hj⟩

end Sys2Proof.Machine

/-! ### Control: accepting, dispatching and checking a command (spec/40_control.md) -/

namespace Sys2Proof.Machine

/-! #### The engine's turn with a word in flight (R123, R126) -/

theorem engineStep_of_decode_ok {s : State} {w : Word} {i : Instr} (h : s.engine = .busy w) (hd : decode w = .ok i) :
    engineStep s = exec i s := by
  simp only [engineStep, h, hd]

theorem engineStep_of_decode_error {s : State} {w : Word} {e : DecodeError} (h : s.engine = .busy w)
    (hd : decode w = .error e) : engineStep s = .next (illegalCommand w s) := by
  simp only [engineStep, h, hd]

theorem exists_decode_error {w : Word} (h : commandWordOk w = false) : ∃ e, decode w = .error e := by
  cases hd : decode w with
  | ok i => simp [commandWordOk_iff.2 ⟨i, hd⟩] at h
  | error e => exact ⟨e, rfl⟩

/-- Settles O4: both forms of the schedule give the engine its turn, and the engine runs the command. -/
theorem stepRunsTheDecodedCommand : Obligations.StepRunsTheDecodedCommand := by
  unfold Obligations.StepRunsTheDecodedCommand
  intro s w i hbusy hd
  refine ⟨fun hs => ?_, fun rest hs => ?_⟩
  · rw [step_of_nil hs, engineStep_of_decode_ok hbusy hd]
  · rw [step_of_engine hs]
    exact engineStep_of_decode_ok hbusy hd

/-! #### Acceptance (R120) -/

theorem writeCmd_of_idle {s : State} (h : s.engine = .idle) (w : Word) : writeCmd w s = acceptCommand w s := by
  simp only [writeCmd, h]

theorem transact_writeCmd_of_idle {s : State} (h : s.engine = .idle) (w : Word) :
    transact ⟨0x10#26, .write, w⟩ s = { acceptCommand w s with answer := some ⟨.okay, 0⟩ } := by
  rw [transact_write (t := .cmd) w rfl rfl, busWrite, writeCmd_of_idle h]

/-- Settles O13: the dropped write is O54's at offset 0x010; in IDLE the word is accepted. -/
theorem writingCmdRequestsACommand : Obligations.WritingCmdRequestsACommand := by
  unfold Obligations.WritingCmdRequestsACommand
  intro s w
  refine ⟨fun w' hbusy => busyWritesAreDropped s w' w 0x10#26 hbusy rfl (.inl rfl), fun hidle => ?_⟩
  rw [transact_writeCmd_of_idle hidle, acceptCommand]

/-- Settles O6: the word is accepted undecoded and fails at the engine's step; the error overwrites the DONE, ERR and
engine state that acceptance set, so the state before it stands but for LAST_CMD. -/
theorem illegalWordsCompleteWithIllegalCmd : Obligations.IllegalWordsCompleteWithIllegalCmd := by
  unfold Obligations.IllegalWordsCompleteWithIllegalCmd
  intro s w hidle hillegal
  obtain ⟨e, hd⟩ := exists_decode_error hillegal
  rw [transact_writeCmd_of_idle hidle, engineStep_of_decode_error rfl hd, illegalCommand, takeError_eq]
  rfl

/-! #### NOP and CLEAR (R124, R125) -/

/-- Settles O20: NOP's body returns the state it is given. -/
theorem nopOnlyCompletes : Obligations.NopOnlyCompletes := by
  unfold Obligations.NopOnlyCompletes
  exact ⟨decode_encode .nop, fun s => exec_of_body_ok (i := .nop) (s1 := s) rfl⟩

/-- Settles O21: CLEAR's body is ClearDerived. -/
theorem clearForgetsTheDerivedState : Obligations.ClearForgetsTheDerivedState := by
  unfold Obligations.ClearForgetsTheDerivedState
  exact ⟨decode_encode .clear, fun s => exec_of_body_ok (i := .clear) (s1 := clearDerived s) rfl⟩

/-! #### The shared checks (R127) -/

theorem exec_eq_afterError {i : Instr} {s : State} {c : ErrorCause} {info : Word} (h : bodyOf i s = .error ⟨c, info⟩) :
    exec i s = .next (afterError (causeCode c) info s) := by
  rw [exec_of_body_error h, takeError_eq]

/-- The four commands that read IN from its start refuse an IN_LEN above IN_CAP (R127). -/
theorem body_error_of_inCap_lt {i : Instr} {s : State} (hi : i = .freqCount ∨ i = .envParse ∨ i = .encode ∨ i = .decode)
    (h : s.cfg.inCap < s.inLen.toNat) : bodyOf i s = .error ⟨.lenRange, s.inLen⟩ := by
  rcases hi with rfl | rfl | rfl | rfl
  · exact freqCountBody_error_iff.2 ⟨h, rfl⟩
  · exact envParseBody_error_iff.2 (.inl ⟨h, rfl⟩)
  · exact encodeBody_error_iff.2 (.inl ⟨h, rfl⟩)
  · exact decodeBody_error_iff.2 (.inl ⟨h, rfl⟩)

/-- Settles O22: the first error each body can raise is its check's. -/
theorem sharedChecksComeFirst : Obligations.SharedChecksComeFirst := by
  unfold Obligations.SharedChecksComeFirst
  refine ⟨fun i s hi hlen => ?_, fun s hf => ?_, fun s hv => ?_, fun s hv => ?_, fun s hv => ?_⟩
  · exact exec_eq_afterError (body_error_of_inCap_lt hi hlen)
  · exact exec_eq_afterError (i := .treeBuild) (treeBuildBody_error_iff.2 ⟨hf, rfl⟩)
  · exact exec_eq_afterError (i := .codeGen) (codeGenBody_error_iff.2 ⟨hv, rfl⟩)
  · have hreq : (s.codesV && !s.treeSrc) = false :=
      Bool.and_eq_false_iff.2 (hv.imp_right fun hsrc => by rw [hsrc, Bool.not_true])
    exact exec_eq_afterError (i := .envPack) (envPackBody_error_iff.2 (.inl ⟨hreq, rfl⟩))
  · exact exec_eq_afterError (i := .bitDecode) (bitDecodeBody_error_iff.2 (.inl ⟨Bool.and_eq_false_iff.2 hv, rfl⟩))

end Sys2Proof.Machine

/-! ### The envelope's tree, parsed back (spec/41_tree_builder.md R150) -/

namespace Sys2Proof.Machine

/-- A successful ENV_PACK, on its own in a state of the invariant or as the last stage of ENCODE, packs a state that holds a
tree and whose envelope fits OUT (R182, R185). -/
theorem packed_of_success {i : Instr} {s t : State} (hi : i = .encode ∨ (i = .envPack ∧ Invariant s))
    (hx : exec i s = .next t) (he : t.errCode = 0) :
    ∃ p, t = completeOk (packedState p) ∧ TreeOk (arena p) p.leafCount.toNat ∧
      (stateEnvelope p).length ≤ p.cfg.outCap := by
  obtain ⟨s1, hbody, rfl⟩ := body_of_success hx he
  rcases hi with rfl | ⟨rfl, hinv⟩
  · obtain ⟨-, hfit, rfl⟩ := encodeBody_ok_iff_fits.1 hbody
    refine ⟨encodedState s, rfl, ?_, ?_⟩
    · rw [arena_encodedState, leafCount_encodedState]
      exact inputTree_treeOk _
    · rwa [stateEnvelope_encodedState]
  · obtain ⟨⟨hcodes, -⟩, hfit, rfl⟩ := envPackBody_ok_iff.1 hbody
    obtain ⟨hv, -⟩ := hinv.codes hcodes
    exact ⟨s, rfl, (hinv.shape hv).1, hfit⟩

/-- An envelope that fits OUT has a bit count that fits its header field (R7, R100). -/
theorem stateBits_length_lt {s : State} (hfit : (stateEnvelope s).length ≤ s.cfg.outCap) :
    (stateBits s).length < 2 ^ 32 := by
  obtain ⟨-, -, hcap⟩ := outCap_bounds s.cfg
  rw [stateEnvelope_length, ceil8] at hfit
  omega

/-- ENV_PARSE accepts the envelope of a state that holds a tree. -/
theorem envParseBody_of_stateEnvelope {p u : State} (htree : TreeOk (arena p) p.leafCount.toNat)
    (hfit : (stateEnvelope p).length ≤ p.cfg.outCap) (hu : HoldsInput u (stateEnvelope p)) :
    ∃ h ns, envParseBody u = .ok (parsedState u h ns) ∧ arena (parsedState u h ns) = (arena p).map withoutFreq ∧
      h = ⟨p.treeSize.toNat, p.leafCount.toNat, (stateBits p).length,
        12 + (serialize (arena p) p.leafCount.toNat).length⟩ := by
  have hlen := stateEnvelope_length p
  obtain ⟨hheader, hrecords⟩ := hu.parse htree (stateBits_length_lt hfit) ⟨[], List.append_nil _⟩ (by omega)
  have hrecon := reconstruct_of_treeOk (hrecords ▸ htree.withoutFreq)
  rw [hrecords] at hrecon
  obtain ⟨harena, -⟩ := registers_of_parsed hheader hrecon
  have hcap : u.inLen.toNat ≤ u.cfg.inCap := hu.len ▸ hu.fits
  exact ⟨_, _, envParseBody_ok_iff.2 ⟨hcap, _, _, hheader, hrecon, rfl⟩, harena, by rw [arena_length]⟩

/-- Settles O48: whichever command packed it, the envelope is that of a state that holds a tree, and each register parsed
back is the one ENV_PACK left. -/
theorem parsingAnEnvelopeRebuildsItsTree : Obligations.ParsingAnEnvelopeRebuildsItsTree := by
  unfold Obligations.ParsingAnEnvelopeRebuildsItsTree
  intro i s t u hi hx he hu
  obtain ⟨p, rfl, htree, hfit⟩ := packed_of_success hi hx he
  obtain ⟨hout, -⟩ := output_of_packed hfit
  rw [hout] at hu
  obtain ⟨h, ns, hbody, harena, rfl⟩ := envParseBody_of_stateEnvelope htree hfit hu
  have hleaf : BitVec.ofNat 32 p.leafCount.toNat = p.leafCount := by simp
  have hsize : BitVec.ofNat 32 p.treeSize.toNat = p.treeSize := by simp
  exact ⟨_, exec_of_body_ok (i := .envParse) hbody, rfl, harena, hleaf, hsize, rfl, rfl⟩

end Sys2Proof.Machine

/-! ### FREQ_COUNT and TREE_BUILD (spec/41_tree_builder.md R140, R141, R143, R148, R149) -/

namespace Sys2Proof.Machine

/-! #### Counting (R140) -/

theorem inputBytes_length (s : State) : (inputBytes s).length = s.inLen.toNat := by simp [inputBytes]

/-- An input is too short for a count to overflow (R6, R32). -/
theorem countBytes_toNat (s : State) (b : Byte) :
    (entry (countBytes (inputBytes s)) b).toNat = (inputBytes s).count b := by
  have hle := List.count_le_length (a := b) (l := inputBytes s)
  have hlen := s.inLen.isLt
  rw [inputBytes_length] at hle
  rw [countBytes, entry_tableOf, toNat_ofNat_of_lt (by omega)]

theorem count_inputBytes (s : State) (b : Byte) :
    (inputBytes s).count b = ((List.range s.inLen.toNat).filter fun k => inByte s k == b).length := by
  rw [inputBytes, List.count, List.countP_map, List.countP_eq_length_filter]
  rfl

/-- Settles O23: FREQ after FREQ_COUNT is `countBytes` of the input, whose entries do not overflow. -/
theorem freqCountCountsTheInput : Obligations.FreqCountCountsTheInput := by
  unfold Obligations.FreqCountCountsTheInput
  refine ⟨decode_encode .freqCount, fun s => ⟨fun hlen => ?_, fun hlen => ?_⟩⟩
  · refine ⟨_, exec_of_body_ok (i := .freqCount) (freqCountBody_ok_iff.2 ⟨hlen, rfl⟩), fun b => ?_, rfl⟩
    rw [completeOk_freq, countedState_freq, countBytes_toNat, count_inputBytes]
  · exact exec_eq_afterError (body_error_of_inCap_lt (.inl rfl) hlen)

/-! #### The built tree (R141, R149) -/

theorem built_of_success {s t : State} (hx : exec .treeBuild s = .next t) (he : t.errCode = 0) :
    t = completeOk (builtState s) := by
  obtain ⟨s1, hbody, rfl⟩ := body_of_success hx he
  obtain ⟨-, rfl⟩ := treeBuildBody_ok_iff.1 hbody
  rfl

theorem arena_of_built (s : State) : arena (completeOk (builtState s)) = (buildFromFrequencies s.freq).1 :=
  arena_builtState s

theorem leafCount_of_built (s : State) :
    (completeOk (builtState s)).leafCount.toNat = (buildFromFrequencies s.freq).2 :=
  leafCount_builtState s

/-- The symbols that occur, in ascending order (R142). -/
def presentSymbols (f : Vector Word 256) : List Byte := allSymbols.filter fun b => entry f b != 0

theorem leavesOf_eq (f : Vector Word 256) : leavesOf f = (presentSymbols f).map fun b => .leaf b (entry f b) := rfl

theorem mem_presentSymbols {f : Vector Word 256} {b : Byte} : b ∈ presentSymbols f ↔ entry f b ≠ 0 := by
  simp [presentSymbols]

/-- With no or one leaf the arena is the leaves (R149). -/
theorem buildFromFrequencies_of_le_one {f : Vector Word 256} (h : (presentSymbols f).length ≤ 1) :
    (buildFromFrequencies f).1 = (presentSymbols f).map fun b => .leaf b (entry f b) := by
  have hleaves : (leavesOf f).length ≤ 1 := by rwa [leavesOf_eq, List.length_map]
  rw [buildFromFrequencies, if_pos hleaves, leavesOf_eq]

/-- Settles O24: the arena and the registers are those of BuildFromFrequencies, whose size and leaf count fit them. -/
theorem treeBuildFillsTheArena : Obligations.TreeBuildFillsTheArena := by
  unfold Obligations.TreeBuildFillsTheArena
  refine ⟨decode_encode .treeBuild, fun s => ⟨fun hv => ?_, fun hv => ?_⟩⟩
  · have harena := arena_of_built s
    have hleaf := leafCount_of_built s
    have hsize : (completeOk (builtState s)).treeSize.toNat = (buildFromFrequencies s.freq).1.length := by
      rw [← arena_length, harena]
    have hbound := (buildFromFrequencies_treeOk s.freq).length_le
    have hcount : (buildFromFrequencies s.freq).2 = (presentSymbols s.freq).length := by
      rw [buildFromFrequencies_snd, leavesOf_eq, List.length_map]
    refine ⟨_, exec_of_body_ok (i := .treeBuild) (treeBuildBody_ok_iff.2 ⟨hv, rfl⟩), harena, hleaf,
      (arena_length _).symm, ?_, fun hnone => ?_, fun b hone => ?_, rfl⟩
    · rw [hsize, completeOk_root, builtState_root, rootWord_toNat (by omega)]
    · change (presentSymbols s.freq).length = 0 at hnone
      rw [buildFromFrequencies_of_le_one (by omega), List.length_map, hnone] at hsize
      rw [hcount, hnone] at hleaf
      exact ⟨toNat_eq_zero_iff.1 hsize, toNat_eq_zero_iff.1 hleaf⟩
    · change presentSymbols s.freq = [b] at hone
      rw [hcount, hone] at hleaf
      refine ⟨?_, BitVec.eq_of_toNat_eq hleaf⟩
      rw [harena, buildFromFrequencies_of_le_one (by simp [hone]), hone, List.map_singleton]
  · exact exec_eq_afterError (i := .treeBuild) (treeBuildBody_error_iff.2 ⟨hv, rfl⟩)

/-! #### The shape and the leaves of a built tree (R143, R148) -/

/-- Settles O25: a build is a tree whatever the frequencies, and Reconstruct's checks are the five invariants. -/
theorem builtArenaIsATree : Obligations.BuiltArenaIsATree := by
  unfold Obligations.BuiltArenaIsATree
  refine ⟨fun s t hx he => ?_, fun buf size l ns hheader hrecon => ?_⟩
  · rw [built_of_success hx he, arena_of_built, leafCount_of_built]
    exact buildFromFrequencies_treeOk s.freq
  · obtain ⟨r, -, rfl, hok⟩ := reconstruct_ok hrecon
    exact treeOk_of_reconOk hheader hok

/-- Settles O26: the merge loop keeps the leaves in front. -/
theorem leavesStandInSymbolOrder : Obligations.LeavesStandInSymbolOrder := by
  unfold Obligations.LeavesStandInSymbolOrder
  intro s t hx he
  rw [built_of_success hx he, arena_of_built, leafCount_of_built, buildFromFrequencies_front]
  rfl

end Sys2Proof.Machine

/-! ### Reconstruct: what it accepts and what it reports (spec/41_tree_builder.md R147, R148) -/

namespace Sys2Proof.Machine

/-- Settles O41: an accepted region is its records, a tree (O25); records that form a tree pass one after another. -/
theorem reconstructAcceptsExactlyTheTrees : Obligations.ReconstructAcceptsExactlyTheTrees := by
  unfold Obligations.ReconstructAcceptsExactlyTheTrees
  intro buf size l hheader
  constructor
  · rintro ⟨ns, hrecon⟩
    have htree := builtArenaIsATree.2 buf size l ns hheader hrecon
    rwa [reconstruct_eq_records hrecon] at htree
  · exact fun htree => ⟨_, reconstruct_of_treeOk htree⟩

/-- The first record that does not pass gives Reconstruct its error. -/
theorem reconstruct_error_of_record {buf : Nat → Byte} {size l i : Nat} {r : Recon} {e : Raise} (hi : i < size)
    (hbefore : reconLoop buf size l i 0 ⟨12, [], [], []⟩ = .ok r) (hbad : reconNode buf size l i r = .error e) :
    reconstruct buf size l = .error e := by
  obtain ⟨n, rfl⟩ : ∃ n, size = i + (n + 1) := ⟨size - i - 1, by omega⟩
  rw [reconstruct, reconLoop_add, hbefore]
  simp only [Nat.zero_add, reconLoop, hbad]

/-! #### The errors of one record -/

theorem checkChild_range {size i side c : Nat} {refd : List Nat} (h : size ≤ c) :
    checkChild size i side c refd = .error ⟨.fmtChildRange, BitVec.ofNat 32 (i + 2 ^ 16 * side)⟩ := by
  rw [checkChild, if_pos h]

theorem checkChild_shape {size i side c : Nat} {refd : List Nat} (h : c < size) (hbad : i ≤ c ∨ c ∈ refd) :
    checkChild size i side c refd = .error ⟨.fmtTreeShape, BitVec.ofNat 32 (i + 2 ^ 16 * side)⟩ := by
  rw [checkChild, if_neg (Nat.not_le.2 h), if_pos hbad]

theorem reconNode_dup {buf : Nat → Byte} {size l i : Nat} {r : Recon} (hl : i < l) (hdup : buf r.off ∈ r.seen) :
    reconNode buf size l i r = .error ⟨.fmtDupSymbol, BitVec.ofNat 32 i⟩ := by
  rw [reconNode, if_pos hl, if_pos hdup]

theorem reconNode_left {buf : Nat → Byte} {size l i : Nat} {r : Recon} {e : Raise} (hl : l ≤ i)
    (hleft : checkChild size i 0 (rdLE16 buf r.off) r.refd = .error e) : reconNode buf size l i r = .error e := by
  rw [reconNode, if_neg (Nat.not_lt.2 hl), hleft]
  rfl

/-- The right child is checked once the left has passed, and then the left counts as referenced. -/
theorem reconNode_right {buf : Nat → Byte} {size l i : Nat} {r : Recon} {e : Raise} (hi : i < size) (hl : l ≤ i)
    (hgood : ¬(i ≤ rdLE16 buf r.off ∨ rdLE16 buf r.off ∈ r.refd))
    (hright : checkChild size i 1 (rdLE16 buf (r.off + 2)) (rdLE16 buf r.off :: r.refd) = .error e) :
    reconNode buf size l i r = .error e := by
  obtain ⟨hlt, hnew⟩ := not_or.1 hgood
  have hleft := (checkChild_ok_iff (side := 0) hi).2 ⟨Nat.not_le.1 hlt, hnew, rfl⟩
  rw [reconNode, if_neg (Nat.not_lt.2 hl), hleft]
  exact bind_error_iff.2 (.inr ⟨_, rfl, bind_error_iff.2 (.inl hright)⟩)

/-- Settles O42: what the records before `i` left says where record `i` stands and what it must not repeat. -/
theorem reconstructReportsTheFirstBadRecord : Obligations.ReconstructReportsTheFirstBadRecord := by
  unfold Obligations.ReconstructReportsTheFirstBadRecord
  intro buf size l i r hi hbefore o lc rc bad
  have hok : ReconOk buf l i r := by
    simpa using reconLoop_reconOk (by omega) (reconOk_zero buf l) hbefore
  have report : ∀ {e}, reconNode buf size l i r = .error e → reconstruct buf size l = .error e :=
    fun hbad => reconstruct_error_of_record hi hbefore hbad
  have hoff : r.off = o := hok.off
  have hrefd : ∀ c, c ∈ r.refd ↔ c ∈ childRefs (recordsOf buf i l) := fun c => by
    rw [hok.refd.mem_iff, hok.nodes]
  have hbad : ∀ c, (i ≤ c ∨ c ∈ r.refd) ↔ bad c := fun c => or_congr_right (hrefd c)
  have hlc : rdLE16 buf r.off = lc := by rw [hoff]
  have hrc : rdLE16 buf (r.off + 2) = rc := by rw [hoff]
  refine ⟨fun hl hdup => report (reconNode_dup hl ?_), fun hl hsize => report (reconNode_left hl ?_),
    fun hl hsize hshape => report (reconNode_left hl ?_),
    fun hl _ hgood hsize => report (reconNode_right hi hl ?_ ?_),
    fun hl _ hgood hsize hshape => report (reconNode_right hi hl ?_ ?_)⟩
  · rw [hok.seen.mem_iff, hok.nodes, List.take_of_length_le (by rw [recordsOf_length]; omega), hoff]
    exact hdup
  · rw [hlc]; exact checkChild_range hsize
  · rw [hlc]; exact checkChild_shape hsize ((hbad lc).2 hshape)
  · rw [hlc, hbad]; exact hgood
  · rw [hrc]; exact checkChild_range hsize
  · rw [hlc, hbad]; exact hgood
  · rw [hlc, hrc]
    refine checkChild_shape hsize ?_
    rcases hshape with (hle | hmem) | heq
    · exact .inl hle
    · exact .inr (List.mem_cons_of_mem _ ((hrefd rc).2 hmem))
    · exact .inr (heq ▸ List.mem_cons_self)

end Sys2Proof.Machine

/-! ### The merges of a build (spec/41_tree_builder.md R142, R144, R145, R152) -/

namespace Sys2Proof.Machine

/-! #### Keys of arena nodes

A queue's frequencies are exact numbers, a node's `freq` is the low 32 bits. The weight of a node is the exact number. -/

/-- The exact frequency of a node, given those of the nodes before it. -/
def nodeWeight (ws : List Nat) : Node → Nat
  | .leaf _ f => f.toNat
  | .internal l r _ => ws.getD l.toNat 0 + ws.getD r.toNat 0

/-- The exact frequency of each node of an arena. -/
def weightsOf (nodes : List Node) : List Nat := nodes.foldl (fun ws n => ws ++ [nodeWeight ws n]) []

/-- `key(i)` (R142), from the exact frequency of node `i`. -/
def keyAt (nodes : List Node) (i : Nat) : Key := ⟨(weightsOf nodes).getD i 0, i⟩

@[simp] theorem keyAt_idx (nodes : List Node) (i : Nat) : (keyAt nodes i).idx = i := rfl

theorem weightsOf_concat (nodes : List Node) (n : Node) :
    weightsOf (nodes ++ [n]) = weightsOf nodes ++ [nodeWeight (weightsOf nodes) n] := by
  simp [weightsOf]

@[simp] theorem weightsOf_length (nodes : List Node) : (weightsOf nodes).length = nodes.length := by
  induction nodes using List.reverseRecOn with
  | nil => rfl
  | append_singleton ns n ih => simp [weightsOf_concat, ih]

theorem keyAt_concat_self (nodes : List Node) (n : Node) :
    keyAt (nodes ++ [n]) nodes.length = ⟨nodeWeight (weightsOf nodes) n, nodes.length⟩ := by
  simp [keyAt, weightsOf_concat]

/-- Later nodes do not matter to a key. -/
theorem keyAt_append {nodes : List Node} (later : List Node) {i : Nat} (h : i < nodes.length) :
    keyAt (nodes ++ later) i = keyAt nodes i := by
  induction later using List.reverseRecOn with
  | nil => rw [List.append_nil]
  | append_singleton ns n ih =>
    rw [← ih, ← List.append_assoc, keyAt, weightsOf_concat, List.getD_append _ _ _ _ (by simp; omega), keyAt]

theorem keyAt_take {nodes : List Node} {i n : Nat} (hin : i < n) (hn : n ≤ nodes.length) :
    keyAt (nodes.take n) i = keyAt nodes i := by
  conv_rhs => rw [← List.take_append_drop n nodes]
  exact (keyAt_append _ (by rw [List.length_take]; omega)).symm

theorem keyAt_eq_nodeWeight {nodes : List Node} {i : Nat} (h : i < nodes.length) :
    keyAt nodes i = ⟨nodeWeight (weightsOf (nodes.take i)) nodes[i], i⟩ := by
  have hlen : (nodes.take i).length = i := by rw [List.length_take]; omega
  have hself := keyAt_concat_self (nodes.take i) nodes[i]
  rwa [hlen, List.take_append_getElem, keyAt_take (by omega) (by omega)] at hself

/-- A leaf's weight is its frequency. -/
theorem keyAt_leaf {nodes : List Node} {i : Nat} (h : i < nodes.length) (hl : nodeIsLeaf nodes[i] = true) :
    (keyAt nodes i).freq = (nodeFreq nodes[i]).toNat := by
  rw [keyAt_eq_nodeWeight h]
  cases hn : nodes[i] with
  | leaf p f => rfl
  | internal l r f => simp [hn, nodeIsLeaf] at hl

/-- An internal node's weight is the sum of its children's. -/
theorem keyAt_internal {nodes : List Node} {i : Nat} {l r : Half} {f : Word} (h : nodes[i]? = some (.internal l r f))
    (hl : l.toNat < i) (hr : r.toNat < i) :
    (keyAt nodes i).freq = (keyAt nodes l.toNat).freq + (keyAt nodes r.toNat).freq := by
  obtain ⟨hi, hn⟩ := List.getElem?_eq_some_iff.1 h
  rw [keyAt_eq_nodeWeight hi, hn, ← keyAt_take hl (Nat.le_of_lt hi), ← keyAt_take hr (Nat.le_of_lt hi)]
  rfl

/-- The node a merge appends has the key the merge queues for it. -/
theorem keyAt_mergedNode {nodes : List Node} {a b : Key} (ha : (BitVec.ofNat 16 a.idx).toNat = a.idx)
    (hb : (BitVec.ofNat 16 b.idx).toNat = b.idx) (hka : keyAt nodes a.idx = a) (hkb : keyAt nodes b.idx = b) :
    keyAt (nodes ++ [mergedNode a b]) nodes.length = ⟨a.freq + b.freq, nodes.length⟩ := by
  have hfa : (keyAt nodes a.idx).freq = a.freq := by rw [hka]
  have hfb : (keyAt nodes b.idx).freq = b.freq := by rw [hkb]
  rw [keyAt_concat_self, mergedNode, nodeWeight, ha, hb, ← hfa, ← hfb, keyAt, keyAt]

/-! #### Least pairs -/

/-- The nodes `l` and `r`, in this order, are the two of least key among the nodes before `i` that no node before `i` has as
a child: what a merge step takes for node `i` (R144, R145). -/
structure LeastPair (nodes : List Node) (i l r : Nat) : Prop where
  left_lt : l < i
  right_lt : r < i
  left_free : l ∉ childRefs (nodes.take i)
  right_free : r ∉ childRefs (nodes.take i)
  ordered : keyLt (keyAt nodes l) (keyAt nodes r) = true
  least : ∀ j, j < i → j ∉ childRefs (nodes.take i) → j ≠ l → j ≠ r → keyLt (keyAt nodes r) (keyAt nodes j) = true

/-- Every internal node of the arena has a least pair as its children. -/
def MergesLeast (nodes : List Node) : Prop :=
  ∀ (i : Nat) (l r : Half) (f : Word), nodes[i]? = some (.internal l r f) → LeastPair nodes i l.toNat r.toNat

theorem LeastPair.concat {nodes : List Node} {i l r : Nat} (h : LeastPair nodes i l r) (hi : i ≤ nodes.length) (n : Node) :
    LeastPair (nodes ++ [n]) i l r := by
  have htake : (nodes ++ [n]).take i = nodes.take i := List.take_append_of_le_length hi
  have hkey : ∀ j, j < i → keyAt (nodes ++ [n]) j = keyAt nodes j := fun j hj => keyAt_append _ (by omega)
  constructor
  case left_lt => exact h.left_lt
  case right_lt => exact h.right_lt
  case left_free => rw [htake]; exact h.left_free
  case right_free => rw [htake]; exact h.right_free
  case ordered => rw [hkey l h.left_lt, hkey r h.right_lt]; exact h.ordered
  case least =>
    intro j hj hfree hl hr
    rw [htake] at hfree
    rw [hkey r h.right_lt, hkey j hj]
    exact h.least j hj hfree hl hr

/-- A node is no child yet exactly while it waits in the queue. -/
theorem Merging.free_iff {leaves nodes : List Node} {q : List Key} (h : Merging leaves nodes q) {c : Nat}
    (hc : c < nodes.length) : c ∉ childRefs nodes ↔ c ∈ q.map Key.idx := by
  have honce := h.once c hc
  rw [← List.count_eq_zero, ← List.count_pos_iff]
  omega

/-- No node waits twice. -/
theorem Merging.idx_nodup {leaves nodes : List Node} {q : List Key} (h : Merging leaves nodes q) :
    (q.map Key.idx).Nodup := by
  rw [List.nodup_iff_count_le_one]
  intro c
  by_cases hc : c < nodes.length
  · have honce := h.once c hc
    omega
  · rw [List.count_eq_zero.2]
    · omega
    · intro hm
      obtain ⟨k, hk, rfl⟩ := List.mem_map.1 hm
      exact hc (h.inside k hk)

/-- A waiting node's index fits a child field (R146). -/
theorem Merging.ofNat_idx {leaves nodes : List Node} {q : List Key} (h : Merging leaves nodes q) {k : Key} (hk : k ∈ q) :
    (BitVec.ofNat 16 k.idx).toNat = k.idx := by
  have hinside := h.inside k hk
  have htotal := h.total
  have hsmall := h.small
  rw [BitVec.toNat_ofNat, Nat.mod_eq_of_lt (by omega)]

/-! #### The loop -/

/-- What the merge loop keeps of the keys: the queue holds the keys of its nodes, a node's `freq` is the low 32 bits of its
exact frequency, which no node has above `total`, the sum over the queue; every merge takes a least pair. -/
structure Greedy (total : Nat) (nodes : List Node) (q : List Key) : Prop where
  keys : ∀ k ∈ q, keyAt nodes k.idx = k
  freqs : ∀ i, (h : i < nodes.length) → nodeFreq nodes[i] = BitVec.ofNat 32 (keyAt nodes i).freq
  bound : ∀ i, i < nodes.length → (keyAt nodes i).freq ≤ total
  sum : (q.map Key.freq).sum = total
  pairs : MergesLeast nodes

/-- The two keys a round takes are a least pair. -/
theorem leastPair_of_step {leaves nodes : List Node} {q q2 : List Key} {a b : Key} (hm : Merging leaves nodes q)
    (hkeys : ∀ k ∈ q, keyAt nodes k.idx = k) (hperm : q.Perm (a :: b :: q2)) (hab : keyLt b a = false)
    (hb : ∀ k ∈ q2, keyLt k b = false) : LeastPair nodes nodes.length a.idx b.idx := by
  have ha_mem : a ∈ q := hperm.mem_iff.2 List.mem_cons_self
  have hb_mem : b ∈ q := hperm.mem_iff.2 (List.mem_cons_of_mem _ List.mem_cons_self)
  have hnodup : (a.idx :: b.idx :: q2.map Key.idx).Nodup := (hperm.map Key.idx).nodup_iff.1 hm.idx_nodup
  obtain ⟨hane, hrest⟩ := List.nodup_cons.1 hnodup
  have hne : b.idx ≠ a.idx := fun he => hane (he ▸ List.mem_cons_self)
  have waits : ∀ {k}, k ∈ q → k.idx ∉ childRefs nodes := fun {k} hk =>
    (hm.free_iff (hm.inside k hk)).2 (List.mem_map_of_mem hk)
  constructor
  case left_lt => exact hm.inside a ha_mem
  case right_lt => exact hm.inside b hb_mem
  case left_free => rw [List.take_length]; exact waits ha_mem
  case right_free => rw [List.take_length]; exact waits hb_mem
  case ordered => rw [hkeys a ha_mem, hkeys b hb_mem]; exact keyLt_of_not hab hne
  case least =>
    intro j hj hfree hja hjb
    rw [List.take_length, hm.free_iff hj] at hfree
    obtain ⟨k, hk, rfl⟩ := List.mem_map.1 hfree
    rw [hkeys b hb_mem, hkeys k hk]
    rcases List.mem_cons.1 (hperm.mem_iff.1 hk) with rfl | hk
    · exact absurd rfl hja
    rcases List.mem_cons.1 hk with rfl | hk
    · exact absurd rfl hjb
    exact keyLt_of_not (hb k hk) hjb

theorem greedy_step (leaves : List Node) (total : Nat) :
    MergeStep fun nodes q => Merging leaves nodes q ∧ Greedy total nodes q := by
  rintro nodes q a b q2 ⟨hm, hg⟩ hperm hba ha hb
  refine ⟨merging_step leaves nodes q a b q2 hm hperm hba ha hb, ?_⟩
  have ha_mem : a ∈ q := hperm.mem_iff.2 List.mem_cons_self
  have hb_mem : b ∈ q := hperm.mem_iff.2 (List.mem_cons_of_mem _ List.mem_cons_self)
  have hq2 : ∀ k ∈ q2, k ∈ q := fun k hk =>
    hperm.mem_iff.2 (List.mem_cons_of_mem _ (List.mem_cons_of_mem _ hk))
  have ha_idx := hm.ofNat_idx ha_mem
  have hb_idx := hm.ofNat_idx hb_mem
  have hold : ∀ i, i < nodes.length → keyAt (nodes ++ [mergedNode a b]) i = keyAt nodes i :=
    fun i hi => keyAt_append _ hi
  have hnew := keyAt_mergedNode ha_idx hb_idx (hg.keys a ha_mem) (hg.keys b hb_mem)
  have hsum : a.freq + (b.freq + (q2.map Key.freq).sum) = total := by
    rw [← hg.sum, (hperm.map Key.freq).sum_eq]
    simp
  have cases_lt : ∀ i, i < (nodes ++ [mergedNode a b]).length → i < nodes.length ∨ i = nodes.length := by
    intro i hi
    rw [List.length_append, List.length_singleton] at hi
    omega
  constructor
  case keys =>
    intro k hk
    rcases List.mem_cons.1 hk with rfl | hk
    · exact hnew
    · rw [hold _ (hm.inside k (hq2 k hk)), hg.keys k (hq2 k hk)]
  case freqs =>
    intro i hi
    rcases cases_lt i hi with hlt | rfl
    · rw [List.getElem_append_left hlt, hold i hlt, hg.freqs i hlt]
    · rw [List.getElem_concat_length rfl, hnew]
      rfl
  case bound =>
    intro i hi
    rcases cases_lt i hi with hlt | rfl
    · rw [hold i hlt]; exact hg.bound i hlt
    · rw [hnew]; show a.freq + b.freq ≤ total; omega
  case sum =>
    rw [List.map_cons, List.sum_cons, ← hsum, Nat.add_assoc]
  case pairs =>
    intro i l r f hi
    rcases cases_lt i (List.getElem?_eq_some_iff.1 hi).1 with hlt | rfl
    · rw [List.getElem?_append_left hlt] at hi
      exact (hg.pairs i l r f hi).concat (Nat.le_of_lt hlt) _
    · rw [List.getElem?_concat_length, Option.some.injEq, mergedNode, Node.internal.injEq] at hi
      obtain ⟨rfl, rfl, -⟩ := hi
      rw [ha_idx, hb_idx]
      exact (leastPair_of_step hm hg.keys hperm hba hb).concat (Nat.le_refl _) _

/-! #### The start of the loop -/

/-- The sum of the counts of all symbols. -/
def totalCount (f : Vector Word 256) : Nat := (allSymbols.map fun b => (entry f b).toNat).sum

theorem sum_map_filter_ne_zero (f : Vector Word 256) (bs : List Byte) :
    ((bs.filter fun b => entry f b != 0).map fun b => (entry f b).toNat).sum = (bs.map fun b => (entry f b).toNat).sum := by
  induction bs with
  | nil => rfl
  | cons b bs ih =>
    by_cases hb : entry f b = 0
    · rw [List.filter_cons_of_neg (by simp [hb]), List.map_cons, List.sum_cons, hb, ih]
      simp
    · rw [List.filter_cons_of_pos (by simpa using hb), List.map_cons, List.map_cons, List.sum_cons, List.sum_cons, ih]

theorem sum_presentSymbols (f : Vector Word 256) :
    ((presentSymbols f).map fun b => (entry f b).toNat).sum = totalCount f :=
  sum_map_filter_ne_zero f allSymbols

theorem queueOf_freq (ns : List Node) : (queueOf ns).map Key.freq = ns.map fun n => (nodeFreq n).toNat := by
  refine List.ext_getElem (by simp) fun i h1 h2 => ?_
  simp [queueOf]

theorem sum_queueOf_leavesOf (f : Vector Word 256) : ((queueOf (leavesOf f)).map Key.freq).sum = totalCount f := by
  rw [queueOf_freq, leavesOf_eq, List.map_map]
  exact sum_presentSymbols f

theorem mergesLeast_of_leaves {ns : List Node} (h : ∀ n ∈ ns, nodeIsLeaf n = true) : MergesLeast ns := by
  intro i l r f hi
  have hleaf := h _ (List.mem_of_getElem? hi)
  simp [nodeIsLeaf] at hleaf

theorem greedy_start {leaves : List Node} (hl : ∀ n ∈ leaves, nodeIsLeaf n = true) :
    Greedy ((queueOf leaves).map Key.freq).sum leaves (queueOf leaves) := by
  have hfreq : ∀ i, (h : i < leaves.length) → (keyAt leaves i).freq = (nodeFreq leaves[i]).toNat :=
    fun i h => keyAt_leaf h (hl _ (List.getElem_mem h))
  constructor
  case keys =>
    intro k hk
    obtain ⟨hidx, hkf⟩ := mem_queueOf hk
    show Key.mk (keyAt leaves k.idx).freq k.idx = k
    rw [hfreq k.idx hidx, ← hkf]
  case freqs =>
    intro i hi
    simp [hfreq i hi]
  case bound =>
    intro i hi
    rw [queueOf_freq, hfreq i hi]
    exact List.single_le_sum (by simp) _ (List.mem_map_of_mem (List.getElem_mem hi))
  case sum => rfl
  case pairs => exact mergesLeast_of_leaves hl

/-! #### The built arena -/

/-- With fewer than two keys there is nothing to merge. -/
theorem mergeLoop_of_short {q : List Key} (h : q.length ≤ 1) (fuel : Nat) (nodes : List Node) :
    mergeLoop fuel nodes q = nodes := by
  cases fuel with
  | zero => rfl
  | succ n =>
    match q, h with
    | [], _ => rfl
    | [k], _ => simp [mergeLoop, popLeast, leastKey]

/-- The build is the loop whatever the number of leaves. -/
theorem buildFromFrequencies_eq_mergeLoop (f : Vector Word 256) :
    (buildFromFrequencies f).1 = mergeLoop (leavesOf f).length (leavesOf f) (queueOf (leavesOf f)) := by
  rw [buildFromFrequencies]
  split
  · rename_i hshort
    rw [mergeLoop_of_short (by rwa [queueOf_length])]
  · rfl

theorem greedy_leavesOf (f : Vector Word 256) : Greedy (totalCount f) (leavesOf f) (queueOf (leavesOf f)) := by
  rw [← sum_queueOf_leavesOf]
  exact greedy_start (leavesOf_isLeaf f)

/-- A build from some leaf ends with one key, that of the last node. -/
theorem buildFromFrequencies_greedy {f : Vector Word 256} (h : leavesOf f ≠ []) :
    ∃ k, k.idx = (buildFromFrequencies f).1.length - 1 ∧ Greedy (totalCount f) (buildFromFrequencies f).1 [k] := by
  have hstart := merging_start h (leavesOf_length_le f) (leavesOf_isLeaf f)
  obtain ⟨q, ⟨hm, hg⟩, hone⟩ := mergeLoop_induct (greedy_step (leavesOf f) (totalCount f)) (leavesOf f).length
    ⟨hstart, greedy_leavesOf f⟩ (by rw [queueOf_length]; omega)
  rw [← buildFromFrequencies_eq_mergeLoop] at hm hg
  have hlive := List.length_pos_iff.2 hm.live
  obtain ⟨k, rfl⟩ := List.length_eq_one_iff.1 (show q.length = 1 by omega)
  refine ⟨k, ?_, hg⟩
  have htotal := hm.total
  have hinside := hm.inside k List.mem_cons_self
  rw [List.length_singleton] at htotal
  rcases hm.newest with hn | hn
  · omega
  · simpa using hn

/-- What the merges keep holds of every built arena, an empty one included. -/
theorem buildFromFrequencies_merged (f : Vector Word 256) : ∃ q, Greedy (totalCount f) (buildFromFrequencies f).1 q := by
  by_cases h : leavesOf f = []
  · rw [buildFromFrequencies_eq_mergeLoop, mergeLoop_of_short (by simp [h])]
    exact ⟨_, greedy_leavesOf f⟩
  · obtain ⟨k, -, hg⟩ := buildFromFrequencies_greedy h
    exact ⟨_, hg⟩

theorem buildFromFrequencies_mergesLeast (f : Vector Word 256) : MergesLeast (buildFromFrequencies f).1 := by
  obtain ⟨q, hg⟩ := buildFromFrequencies_merged f
  exact hg.pairs

/-- When the counts sum below 2^32 no frequency overflows (R152). -/
theorem nodeFreq_of_built {f : Vector Word 256} (hf : totalCount f < 2 ^ 32) {i : Nat}
    (hi : i < (buildFromFrequencies f).1.length) :
    (nodeFreq (buildFromFrequencies f).1[i]).toNat = (keyAt (buildFromFrequencies f).1 i).freq := by
  obtain ⟨q, hg⟩ := buildFromFrequencies_merged f
  rw [hg.freqs i hi, toNat_ofNat_of_lt (Nat.lt_of_le_of_lt (hg.bound i hi) hf)]

/-- The same, of the arena after TREE_BUILD. -/
theorem key_of_built {s : State} (hf : totalCount s.freq < 2 ^ 32) {j : Nat}
    (hj : j < (arena (completeOk (builtState s))).length) :
    Key.mk (nodeFreq (node (completeOk (builtState s)) j)).toNat j = keyAt (buildFromFrequencies s.freq).1 j := by
  have harena := arena_of_built s
  rw [← arena_getElem _ _ hj]
  have hj' : j < (buildFromFrequencies s.freq).1.length := by rwa [← harena]
  have hget : (arena (completeOk (builtState s)))[j] = (buildFromFrequencies s.freq).1[j] := by simp only [harena]
  rw [hget, nodeFreq_of_built hf hj']
  rfl

/-- An internal node of a built arena is the sum of its children, as numbers (R152). -/
theorem freq_of_built_internal {s : State} (hf : totalCount s.freq < 2 ^ 32) {i : Nat} {l r : Half} {f : Word}
    (hi : (arena (completeOk (builtState s)))[i]? = some (.internal l r f)) :
    f.toNat = (nodeFreq (node (completeOk (builtState s)) l.toNat)).toNat +
      (nodeFreq (node (completeOk (builtState s)) r.toNat)).toNat := by
  obtain ⟨hlt, hn⟩ := List.getElem?_eq_some_iff.1 hi
  have hnode : nodeFreq (node (completeOk (builtState s)) i) = f := by rw [← arena_getElem _ _ hlt, hn]; rfl
  have hi' := arena_of_built s ▸ hi
  have hpair := buildFromFrequencies_mergesLeast s.freq i l r f hi'
  have hw := keyAt_internal hi' hpair.left_lt hpair.right_lt
  rwa [← key_of_built hf hlt, ← key_of_built hf (Nat.lt_trans hpair.left_lt hlt),
    ← key_of_built hf (Nat.lt_trans hpair.right_lt hlt), hnode] at hw

/-- Settles O27: each merge takes a least pair by exact frequencies, and below 2^32 those are the nodes' own. -/
theorem mergeTakesTheTwoLeastKeys : Obligations.MergeTakesTheTwoLeastKeys := by
  unfold Obligations.MergeTakesTheTwoLeastKeys
  intro s t hx he hf i l r f hi
  rw [built_of_success hx he] at hi ⊢
  obtain ⟨hlt, -⟩ := List.getElem?_eq_some_iff.1 hi
  have hsum := freq_of_built_internal hf hi
  have hkey : ∀ j, j < i → Key.mk (nodeFreq (node (completeOk (builtState s)) j)).toNat j =
      keyAt (buildFromFrequencies s.freq).1 j := fun j hj => key_of_built hf (Nat.lt_trans hj hlt)
  obtain ⟨hl, hr, hlfree, hrfree, hordered, hleast⟩ :=
    buildFromFrequencies_mergesLeast s.freq i l r f (arena_of_built s ▸ hi)
  dsimp only
  rw [arena_of_built, hkey _ hl, hkey _ hr]
  refine ⟨hsum, hl, hr, hlfree, hrfree, hordered, fun j hj hfree hjl hjr => ?_⟩
  rw [hkey j hj]
  exact hleast j hj hfree hjl hjr

/-! #### The root's frequency (R152) -/

theorem sum_map_count {α : Type} [DecidableEq α] {as : List α} (hn : as.Nodup) {bs : List α} (h : ∀ b ∈ bs, b ∈ as) :
    (as.map fun a => bs.count a).sum = bs.length := by
  rw [← List.sum_toFinset _ hn]
  simpa using Multiset.sum_count_eq_card (m := (bs : Multiset α)) fun b hb => List.mem_toFinset.2 (h b hb)

/-- Every byte of the input is counted once. -/
theorem totalCount_countBytes (s : State) : totalCount (countBytes (inputBytes s)) = s.inLen.toNat := by
  simp only [totalCount, countBytes_toNat]
  rw [sum_map_count nodup_allSymbols fun b _ => mem_allSymbols b, inputBytes_length]

/-- Some symbol is present exactly when the counts do not sum to 0. -/
theorem totalCount_pos_iff (f : Vector Word 256) : 0 < totalCount f ↔ 1 ≤ (leavesOf f).length := by
  rw [← sum_presentSymbols, leavesOf_eq, List.length_map]
  cases hp : presentSymbols f with
  | nil => simp
  | cons b bs =>
    have hb : entry f b ≠ 0 := mem_presentSymbols.1 (hp ▸ List.mem_cons_self)
    have hpos : (entry f b).toNat ≠ 0 := fun h0 => hb (toNat_eq_zero_iff.1 h0)
    rw [List.map_cons, List.sum_cons, List.length_cons]
    omega

/-- The last node of a build from some leaf has the whole count. -/
theorem keyAt_root_of_built {f : Vector Word 256} (h : leavesOf f ≠ []) :
    (keyAt (buildFromFrequencies f).1 ((buildFromFrequencies f).1.length - 1)).freq = totalCount f := by
  obtain ⟨k, hidx, hg⟩ := buildFromFrequencies_greedy h
  rw [← hidx, hg.keys k List.mem_cons_self, ← hg.sum, List.map_singleton, List.sum_singleton]

theorem treeBuild_of_freqV {s t : State} (hv : s.freqV = true) (hx : exec .treeBuild s = .next t) :
    t = completeOk (builtState s) := by
  rw [exec_of_body_ok (i := .treeBuild) (treeBuildBody_ok_iff.2 ⟨hv, rfl⟩)] at hx
  injection hx with hx
  exact hx.symm

/-- Settles O28: the counts of an input sum to its length, which the register IN_LEN holds, so nothing overflows; the merges
keep the sum and end with the root alone. -/
theorem rootFrequencyIsTheInputLength : Obligations.RootFrequencyIsTheInputLength := by
  unfold Obligations.RootFrequencyIsTheInputLength
  intro s t u hx he hy
  obtain ⟨s1, hbody, rfl⟩ := body_of_success hx he
  obtain ⟨-, rfl⟩ := freqCountBody_ok_iff.1 hbody
  rw [treeBuild_of_freqV rfl hy]
  generalize ht : completeOk (countedState s) = t
  have htotal : totalCount t.freq = s.inLen.toNat := by rw [← ht]; exact totalCount_countBytes s
  have hf : totalCount t.freq < 2 ^ 32 := htotal ▸ s.inLen.isLt
  have hleaves : (completeOk (builtState t)).leafCount.toNat = (leavesOf t.freq).length := by
    rw [leafCount_of_built, buildFromFrequencies_snd]
  refine ⟨fun i l r f hi => freq_of_built_internal hf hi, ?_, fun hl => BitVec.eq_of_toNat_eq ?_⟩
  · rw [hleaves, ← htotal, totalCount_pos_iff]
  · have hne : leavesOf t.freq ≠ [] := List.length_pos_iff.1 (by omega)
    have hsize : (completeOk (builtState t)).treeSize.toNat = (buildFromFrequencies t.freq).1.length := by
      rw [← arena_length, arena_of_built]
    have hle := (buildFromFrequencies_treeOk t.freq).le_length
    rw [buildFromFrequencies_snd] at hle
    have hroot := key_of_built (s := t) hf (j := (buildFromFrequencies t.freq).1.length - 1)
      (by rw [arena_of_built]; omega)
    rw [hsize, ← htotal, ← keyAt_root_of_built hne, ← hroot]

end Sys2Proof.Machine

/-! ### Rarer symbols have no shorter codes (spec/41_tree_builder.md R151) -/

namespace Sys2Proof.Machine

theorem keyLt_irrefl (k : Key) : keyLt k k = false := by simp [keyLt]

theorem keyLt_asymm {a b : Key} (h : keyLt a b = true) : keyLt b a = false := by
  rw [Bool.eq_false_iff, ne_eq, keyLt_iff]
  rw [keyLt_iff] at h
  omega

/-- A key below one that is not above a third is below the third. -/
theorem keyLt_of_lt_of_not_lt {a b c : Key} (hab : keyLt a b = true) (hcb : keyLt c b = false) : keyLt a c = true := by
  rw [Bool.eq_false_iff, ne_eq, keyLt_iff] at hcb
  rw [keyLt_iff] at *
  omega

theorem freq_le_of_keyLt {a b : Key} (h : keyLt a b = true) : a.freq ≤ b.freq := by
  rw [keyLt_iff] at h
  omega

theorem keyLt_of_freq_le {a b : Key} (hf : a.freq ≤ b.freq) (hi : a.idx < b.idx) : keyLt a b = true := by
  rw [keyLt_iff]
  omega

/-! #### The order in which nodes are merged -/

/-- What there is to say of an internal node: its children, a least pair, and its weight, their sum. -/
theorem MergesLeast.internal {nodes : List Node} (hm : MergesLeast nodes) {i : Nat} (hi : i < nodes.length)
    (hl : nodeIsLeaf nodes[i] = false) :
    ∃ l r, children nodes[i] = [l, r] ∧ LeastPair nodes i l r ∧
      (keyAt nodes i).freq = (keyAt nodes l).freq + (keyAt nodes r).freq := by
  cases hn : nodes[i] with
  | leaf p f => simp [hn, nodeIsLeaf] at hl
  | internal l r f =>
    have hi' : nodes[i]? = some (.internal l r f) := by rw [List.getElem?_eq_getElem hi, hn]
    have hpair := hm i l r f hi'
    exact ⟨l.toNat, r.toNat, rfl, hpair, keyAt_internal hi' hpair.left_lt hpair.right_lt⟩

/-- A child has a lower key than its parent. -/
theorem MergesLeast.child_lt {nodes : List Node} (hm : MergesLeast nodes) {i c : Nat} (hi : i < nodes.length)
    (hc : c ∈ children nodes[i]) : keyLt (keyAt nodes c) (keyAt nodes i) = true := by
  have hl : nodeIsLeaf nodes[i] = false := by
    cases hn : nodes[i] with
    | leaf p f => simp [hn, children] at hc
    | internal l r f => rfl
  obtain ⟨l, r, hch, hpair, hw⟩ := hm.internal hi hl
  rw [hch] at hc
  have hli := hpair.left_lt
  have hri := hpair.right_lt
  rcases List.mem_pair.1 hc with rfl | rfl
  · exact keyLt_of_freq_le (by omega) hli
  · exact keyLt_of_freq_le (by omega) hri

/-- The children of node `i` are children of the first nodes past `i`. -/
theorem mem_childRefs_take {nodes : List Node} {i j c : Nat} (hi : i < nodes.length) (hij : i < j)
    (hc : c ∈ children nodes[i]) : c ∈ childRefs (nodes.take j) := by
  have hlen : i < (nodes.take j).length := by rw [List.length_take]; omega
  refine List.mem_flatMap.2 ⟨(nodes.take j)[i], List.getElem_mem hlen, ?_⟩
  rwa [List.getElem_take]

theorem childRefs_take_subset {nodes : List Node} {i j : Nat} (hij : i ≤ j) :
    childRefs (nodes.take i) ⊆ childRefs (nodes.take j) := by
  have hsub := (childRefs_take_sublist (nodes.take j) i).subset
  rwa [List.take_take, Nat.min_eq_left hij] at hsub

/-- Internal nodes stand in the order of their keys, and so do their children: what one merge takes is less than what every
later merge takes. -/
theorem MergesLeast.in_order {nodes : List Node} {l : Nat} (ht : TreeOk nodes l) (hm : MergesLeast nodes) {i j : Nat}
    (hli : l ≤ i) (hij : i < j) (hj : j < nodes.length) :
    keyLt (keyAt nodes i) (keyAt nodes j) = true ∧
    ∀ c ∈ children (nodes[i]'(Nat.lt_trans hij hj)), ∀ d ∈ children nodes[j],
      keyLt (keyAt nodes c) (keyAt nodes d) = true := by
  induction j using Nat.strong_induction_on with
  | _ j ih =>
    have hi := Nat.lt_trans hij hj
    obtain ⟨a, b, hchi, hpi, hwi⟩ := hm.internal hi (ht.notLeaf_of_le hli hi)
    obtain ⟨a', b', hchj, hpj, hwj⟩ := hm.internal hj (ht.notLeaf_of_le (by omega) hj)
    have hbi : keyLt (keyAt nodes b) (keyAt nodes i) = true := hm.child_lt hi (by rw [hchi]; simp)
    have taken : ∀ c ∈ children nodes[i], c ∈ childRefs (nodes.take j) := fun c hc => mem_childRefs_take hi hij hc
    have hright : ∀ d, d < j → d ∉ childRefs (nodes.take j) → keyLt (keyAt nodes b) (keyAt nodes d) = true := by
      intro d hdj hfree
      rcases Nat.lt_trichotomy d i with hdi | rfl | hid
      · refine hpi.least d hdi (fun hd => hfree (childRefs_take_subset (Nat.le_of_lt hij) hd)) ?_ ?_
        · rintro rfl; exact hfree (taken d (by rw [hchi]; simp))
        · rintro rfl; exact hfree (taken d (by rw [hchi]; simp))
      · exact hbi
      · exact keyLt_trans hbi (ih d hdj hid (Nat.lt_trans hdj hj)).1
    have hba' := hright a' hpj.left_lt hpj.left_free
    have hbb' := hright b' hpj.right_lt hpj.right_free
    refine ⟨keyLt_of_freq_le ?_ hij, fun c hc d hd => ?_⟩
    · have h1 := freq_le_of_keyLt hpi.ordered
      have h2 := freq_le_of_keyLt hba'
      have h3 := freq_le_of_keyLt hbb'
      omega
    · have hbd : keyLt (keyAt nodes b) (keyAt nodes d) = true := by
        rw [hchj] at hd
        rcases List.mem_pair.1 hd with rfl | rfl
        · exact hba'
        · exact hbb'
      rw [hchi] at hc
      rcases List.mem_pair.1 hc with rfl | rfl
      · exact keyLt_trans hpi.ordered hbd
      · exact hbd

/-! #### Depths -/

theorem TreeOk.le_of_internal {nodes : List Node} {l i : Nat} (h : TreeOk nodes l) (hi : i < nodes.length)
    (hn : nodeIsLeaf nodes[i] = false) : l ≤ i := by
  by_contra hlt
  rw [h.isLeaf_of_lt (Nat.not_le.1 hlt)] at hn
  exact Bool.noConfusion hn

/-- The last edge of a path down. -/
theorem descend_concat {nodes : List Node} {r c : Nat} {p : Path} {b : Bool} (h : descend nodes r (p ++ [b]) = some c) :
    ∃ i, ∃ hi : i < nodes.length, descend nodes r p = some i ∧ c ∈ children nodes[i] ∧ nodeIsLeaf nodes[i] = false := by
  rw [descend_append] at h
  obtain ⟨i, hp, hb⟩ := Option.bind_eq_some_iff.1 h
  obtain ⟨hi, hl, hc⟩ := descend_cons hb
  rw [descend_nil, Option.some.injEq] at hc
  exact ⟨i, hi, hp, hc ▸ walkChild_mem hl b, hl⟩

/-- No node below another has a higher key. -/
theorem MergesLeast.descend_not_lt {nodes : List Node} (hm : MergesLeast nodes) {r c : Nat} {p : Path}
    (h : descend nodes r p = some c) : keyLt (keyAt nodes r) (keyAt nodes c) = false := by
  induction p using List.reverseRecOn generalizing c with
  | nil =>
    rw [descend_nil, Option.some.injEq] at h
    rw [h, keyLt_irrefl]
  | append_singleton p b ih =>
    obtain ⟨i, hi, hp, hc, -⟩ := descend_concat h
    exact keyLt_asymm (keyLt_of_lt_of_not_lt (hm.child_lt hi hc) (ih hp))

/-- Of two nodes below the root, the one with the higher key is no deeper: one level up, the parents' keys are in the same
order. -/
theorem MergesLeast.depth_le {nodes : List Node} {l : Nat} (ht : TreeOk nodes l) (hm : MergesLeast nodes) {r c d : Nat}
    {p q : Path} (hp : descend nodes r p = some c) (hq : descend nodes r q = some d)
    (hcd : keyLt (keyAt nodes d) (keyAt nodes c) = false) : q.length ≤ p.length := by
  induction p using List.reverseRecOn generalizing q c d with
  | nil =>
    cases q using List.reverseRecOn with
    | nil => exact Nat.le_refl _
    | append_singleton q y =>
      rw [descend_nil, Option.some.injEq] at hp
      obtain ⟨j, hj, hqj, hd, -⟩ := descend_concat hq
      have hdr := keyLt_of_lt_of_not_lt (hm.child_lt hj hd) (hm.descend_not_lt hqj)
      rw [hp, hcd] at hdr
      exact Bool.noConfusion hdr
  | append_singleton p x ih =>
    cases q using List.reverseRecOn with
    | nil => exact Nat.zero_le _
    | append_singleton q y =>
      obtain ⟨i, hi, hpi, hc, hli⟩ := descend_concat hp
      obtain ⟨j, hj, hqj, hd, hlj⟩ := descend_concat hq
      have hij : keyLt (keyAt nodes j) (keyAt nodes i) = false := by
        rcases Nat.lt_trichotomy i j with hlt | rfl | hlt
        · exact keyLt_asymm (MergesLeast.in_order ht hm (ht.le_of_internal hi hli) hlt hj).1
        · exact keyLt_irrefl _
        · have hdc := (MergesLeast.in_order ht hm (ht.le_of_internal hj hlj) hlt hi).2 d hd c hc
          rw [hdc] at hcd
          exact Bool.noConfusion hcd
      have hle := ih hpi hqj hij
      rw [List.length_append, List.length_append, List.length_singleton, List.length_singleton]
      omega

/-! #### The codes of a built tree -/

/-- A present symbol has its leaf, with its count (R143). -/
theorem leaf_of_present {f : Vector Word 256} {b : Byte} (hb : entry f b ≠ 0) :
    ∃ i, ∃ hi : i < (buildFromFrequencies f).2,
      (buildFromFrequencies f).1[i]'(Nat.lt_of_lt_of_le hi (buildFromFrequencies_treeOk f).le_length) =
        .leaf b (entry f b) := by
  have hmem : Node.leaf b (entry f b) ∈ leavesOf f := by
    rw [leavesOf_eq]
    exact List.mem_map.2 ⟨b, mem_presentSymbols.2 hb, rfl⟩
  rw [← buildFromFrequencies_front] at hmem
  obtain ⟨i, hi, hn⟩ := List.getElem_of_mem hmem
  rw [List.getElem_take] at hn
  exact ⟨i, Nat.lt_of_lt_of_le hi (List.length_take_le _ _), hn⟩

/-- In the code table of a built tree a strictly rarer symbol has no shorter code. -/
theorem code_length_le_of_rarer {f : Vector Word 256} {a b : Byte} (ha : entry f a ≠ 0)
    (hab : (entry f a).toNat < (entry f b).toNat) :
    (entry (codeTable (buildFromFrequencies f).1 (buildFromFrequencies f).2) b).length ≤
      (entry (codeTable (buildFromFrequencies f).1 (buildFromFrequencies f).2) a).length := by
  have ht := buildFromFrequencies_treeOk f
  have hb : entry f b ≠ 0 := fun h0 => by rw [h0] at hab; exact Nat.not_lt_zero _ hab
  obtain ⟨i, hi, hni⟩ := leaf_of_present ha
  obtain ⟨j, hj, hnj⟩ := leaf_of_present hb
  have hca := codeTable_leaf ht hi
  have hcb := codeTable_leaf ht hj
  rw [hni, nodePayload] at hca
  rw [hnj, nodePayload] at hcb
  rw [hca, hcb]
  have hlen := Nat.lt_of_lt_of_le hi ht.le_length
  split
  · exact Nat.le_refl _
  · obtain ⟨hdi, -⟩ := pathOf_tree ht (by omega) hi
    obtain ⟨hdj, -⟩ := pathOf_tree ht (by omega) hj
    refine MergesLeast.depth_le ht (buildFromFrequencies_mergesLeast f) hdi hdj (keyLt_asymm ?_)
    rw [keyLt_iff, keyAt_leaf _ (ht.isLeaf_of_lt hi), keyAt_leaf _ (ht.isLeaf_of_lt hj), hni, hnj]
    exact .inl hab

/-- Settles O32: the merges take keys in ascending order, by exact frequencies, so a lower key is never nearer the root. -/
theorem rarerSymbolsHaveNoShorterCodes : Obligations.RarerSymbolsHaveNoShorterCodes := by
  unfold Obligations.RarerSymbolsHaveNoShorterCodes
  intro s t u hx he hy a b ha hab
  rw [built_of_success hx he] at hy
  rw [exec_of_body_ok (i := .codeGen) (codeGenBody_ok_iff.2 ⟨rfl, rfl⟩)] at hy
  injection hy with hy
  rw [← hy, completeOk_codes, codedState_codes, arena_of_built, leafCount_of_built]
  exact code_length_le_of_rarer ha hab

end Sys2Proof.Machine

/-! ### CODE_GEN (spec/42_code_generator.md R170 to R174) -/

namespace Sys2Proof.Machine

/-! #### The codes of any tree -/

/-- From two leaves on, a symbol's code leads from the root down to the symbol's leaf (R171). -/
theorem codeTable_descend {nodes : List Node} {l i : Nat} (h : TreeOk nodes l) (h2 : 2 ≤ nodes.length) (hi : i < l) :
    descend nodes (nodes.length - 1)
      (entry (codeTable nodes l) (nodePayload (nodes[i]'(Nat.lt_of_lt_of_le hi h.le_length)))) = some i := by
  obtain ⟨hdesc, -⟩ := pathOf_tree h h2 hi
  rwa [codeTable_leaf h hi, if_neg (by omega)]

/-- R174: a sole leaf's code has one bit (R172), and any other leaf's is a path of R171. -/
theorem codeTable_length {nodes : List Node} {l i : Nat} (h : TreeOk nodes l) (hi : i < l) :
    let p := entry (codeTable nodes l) (nodePayload (nodes[i]'(Nat.lt_of_lt_of_le hi h.le_length)))
    1 ≤ p.length ∧ p.length ≤ max 1 (l - 1) := by
  intro p
  have hp : p = if nodes.length = 1 then [false] else pathOf nodes i := codeTable_leaf h hi
  by_cases hone : nodes.length = 1
  · rw [hp, if_pos hone]
    exact ⟨Nat.le_refl _, Nat.le_max_left _ _⟩
  · have hlen := Nat.lt_of_lt_of_le hi h.le_length
    obtain ⟨-, hpos, hle⟩ := pathOf_tree h (by omega) hi
    rw [hp, if_neg hone]
    exact ⟨hpos, Nat.le_trans hle (Nat.le_max_right _ _)⟩

/-- Two symbols with codes are two leaves of one root, and no path to a leaf goes on to another (R173). -/
theorem codeTable_prefixFree {nodes : List Node} {l : Nat} (h : TreeOk nodes l) {a b : Byte} (hab : a ≠ b)
    (ha : entry (codeTable nodes l) a ≠ []) (hb : entry (codeTable nodes l) b ≠ []) :
    ¬ entry (codeTable nodes l) a <+: entry (codeTable nodes l) b := by
  intro hpre
  obtain ⟨i, hi, rfl⟩ := leaf_of_code h ha
  obtain ⟨j, hj, rfl⟩ := leaf_of_code h hb
  have hij : i ≠ j := by
    rintro rfl
    exact hab rfl
  have hle := h.le_length
  have h2 : 2 ≤ nodes.length := by omega
  obtain ⟨-, heq⟩ := h.descend_prefix hi (codeTable_descend h h2 hi) (codeTable_descend h h2 hj) hpre
  exact hij heq

/-! #### The command -/

/-- With a tree CODE_GEN completes, whatever its arena (R170). -/
theorem exec_codeGen_of_treeV {s : State} (hv : s.treeV = true) :
    exec .codeGen s = .next (completeOk (codedState s)) :=
  exec_of_body_ok (i := .codeGen) (codeGenBody_ok_iff.2 ⟨hv, rfl⟩)

theorem coded_of_exec {s t : State} (hv : s.treeV = true) (hx : exec .codeGen s = .next t) :
    t = completeOk (codedState s) := by
  rw [exec_codeGen_of_treeV hv] at hx
  injection hx with hx
  exact hx.symm

/-- Settles O29: the codes are the code table of the arena, whose every entry is a path, the sole leaf's bit or empty. -/
theorem codeGenFollowsTheTree : Obligations.CodeGenFollowsTheTree := by
  unfold Obligations.CodeGenFollowsTheTree
  refine ⟨decode_encode .codeGen, fun s hv ht => ?_, fun s hv => ?_⟩
  · have hsize := arena_length s
    have hle := ht.le_length
    refine ⟨_, exec_codeGen_of_treeV hv, fun i h2 hi => ?_, fun hone => ?_, fun b hb => ?_, rfl⟩
    · have hdesc := codeTable_descend ht (by omega) hi
      rwa [arena_getElem, hsize] at hdesc
    · have hleaf : 0 < s.leafCount.toNat := by have := ht.size; omega
      have hcode := codeTable_leaf ht hleaf
      rwa [arena_getElem, if_pos (by omega)] at hcode
    · refine codeTable_absent ht fun i hi => ?_
      rw [arena_getElem]
      exact hb i hi
  · exact exec_eq_afterError (i := .codeGen) (codeGenBody_error_iff.2 ⟨hv, rfl⟩)

/-- Settles O30: CODE holds the code table of a tree, which is prefix-free. -/
theorem codesArePrefixFree : Obligations.CodesArePrefixFree := by
  unfold Obligations.CodesArePrefixFree
  intro s t hv ht hx a b hab
  rw [coded_of_exec hv hx, completeOk_codes, codedState_codes]
  exact codeTable_prefixFree ht hab

/-- The eight bits of LEN hold the length of a code of at most 255 bits (R106). -/
theorem readTarget_codeWin_len {t : State} (hv : t.codesV = true) {b : Byte} (hb : (entry t.codes b).length ≤ 255) :
    (readTarget t (.codeWin b 0)).toNat = (entry t.codes b).length := by
  rw [readTarget_codeWin hv, codeEntryWord_length, Nat.mod_eq_of_lt (by omega), toNat_ofNat_of_lt (by omega)]

/-- Settles O31: a path is no longer than the internal nodes are many, at most 255, and LEN holds that. -/
theorem codeLengthsAreBounded : Obligations.CodeLengthsAreBounded := by
  unfold Obligations.CodeLengthsAreBounded
  intro s t hv ht hx i hi p
  obtain ⟨hpos, hmax⟩ : 1 ≤ p.length ∧ p.length ≤ max 1 (s.leafCount.toNat - 1) := by
    have hlen := codeTable_length ht hi
    rwa [arena_getElem, ← codedState_codes, ← completeOk_codes, ← coded_of_exec hv hx] at hlen
  have hbyte : p.length ≤ 255 := by have := ht.l_le; omega
  have hcodes : t.codesV = true := by rw [coded_of_exec hv hx, completeOk_codesV, codedState_codesV]
  exact ⟨hpos, hmax, hbyte, readTarget_codeWin_len hcodes hbyte⟩

end Sys2Proof.Machine

/-! ### The encoder: packing, ENV_PACK and ENCODE (spec/43_encoder.md R181 to R186) -/

namespace Sys2Proof.Machine

/-! #### Packed bits (R181, R183) -/

/-- Bit `k mod 8` of the packed byte `k div 8` is bit `k`, and 0 past the end. -/
theorem packByte_bit (b : List Bool) (k : Nat) : (packByte b (k / 8)).getLsbD (k % 8) = b.getD k false := by
  rw [packByte_getLsbD _ _ _ (Nat.mod_lt k (by decide)), Nat.div_add_mod]

/-- Settles O33: byte `k div 8` of the packed sequence is there in both cases, and holds bit `k` or a zero. -/
theorem packingIsLeastSignificantBitFirst : Obligations.PackingIsLeastSignificantBitFirst := by
  unfold Obligations.PackingIsLeastSignificantBitFirst
  intro b
  refine ⟨pack_length b, fun k hk => ⟨packByte b (k / 8), pack_getElem? ?_, ?_⟩,
    fun k hk hbyte => ⟨packByte b (k / 8), pack_getElem? (pack_length b ▸ hbyte), ?_⟩⟩
  · rw [ceil8]
    omega
  · rw [packByte_bit, List.getD_eq_getElem _ _ hk]
  · rw [packByte_bit, List.getD_eq_default _ _ hk]

/-! #### ENV_PACK (R182, R184) -/

/-- The envelope's header fields are the tree registers themselves (R182). -/
theorem stateEnvelope_eq (s : State) :
    stateEnvelope s = le32 s.treeSize ++ le32 s.leafCount ++ le32 (BitVec.ofNat 32 (stateBits s).length) ++
      serialize (arena s) s.leafCount.toNat ++ pack (stateBits s) := by
  rw [stateEnvelope, envelope, arena_length, BitVec.ofNat_toNat, BitVec.ofNat_toNat, BitVec.setWidth_eq,
    BitVec.setWidth_eq]

/-- STAT_RATIO after ENV_PACK's writes (R184). -/
theorem statRatio_of_packed (s : State) :
    (completeOk (packedState s)).statRatio.toNat =
      if s.inLen = 0 then 0xFFFFFFFF else min ((stateEnvelope s).length * 65536 / s.inLen.toNat) 0xFFFFFFFF := by
  rw [completeOk_statRatio, packedState_statRatio, ratioQ16_toNat]
  simp only [toNat_eq_zero_iff]

/-- What ENV_PACK leaves as it was (R182). -/
theorem packedState_frame (s : State) :
    let t := completeOk (packedState s)
    t = afterSuccess { s with
      outBuf := t.outBuf, outLen := t.outLen, bits := t.bits, dataOff := t.dataOff
      statLeaf := s.leafCount, statNodes := s.treeSize, statOrig := s.inLen, statComp := t.outLen
      statRatio := t.statRatio } := by
  unfold packedState
  generalize stateEnvelope s = e
  rfl

/-- Settles O35: the three outcomes of the body, by its two checks. -/
theorem envPackFramesTheEnvelope : Obligations.EnvPackFramesTheEnvelope := by
  unfold Obligations.EnvPackFramesTheEnvelope
  refine ⟨decode_encode .envPack, fun s => ?_⟩
  intro b tree e
  have he : stateEnvelope s = e := stateEnvelope_eq s
  rw [← he]
  refine ⟨fun hreq => ?_, fun hcodes hsrc hlen => ?_, fun hcodes hsrc hfit => ?_⟩
  · obtain ⟨-, -, -, hchecked, -⟩ := sharedChecksComeFirst
    exact hchecked s hreq
  · have hpass : (s.codesV && !s.treeSrc) = true := by simp [hcodes, hsrc]
    exact exec_eq_afterError (i := .envPack) (envPackBody_error_iff.2 (.inr ⟨hpass, hlen, rfl⟩))
  · obtain ⟨hout, hlen, hpast, hbits, hoff⟩ := output_of_packed hfit
    exact ⟨_, exec_of_body_ok (i := .envPack) (envPackBody_ok_iff.2 ⟨⟨hcodes, hsrc⟩, hfit, rfl⟩), hout, hlen, hpast,
      hbits, hoff, statRatio_of_packed s, packedState_frame s⟩

/-- Settles O36: the tree region holds one byte for a leaf and four for an internal node. -/
theorem envelopeSizeFollowsTheTree : Obligations.EnvelopeSizeFollowsTheTree := by
  unfold Obligations.EnvelopeSizeFollowsTheTree
  intro s t hle hexec herr
  obtain ⟨s1, hbody, rfl⟩ := body_of_success hexec herr
  obtain ⟨-, hfit, rfl⟩ := envPackBody_ok_iff.1 hbody
  obtain ⟨-, hlen, -, hbits, hoff⟩ := output_of_packed hfit
  have htree : (serialize (arena s) s.leafCount.toNat).length =
      s.leafCount.toNat + 4 * (s.treeSize.toNat - s.leafCount.toNat) := by
    rw [serialize_length, arena_length, Nat.min_eq_right hle]
  rw [stateEnvelope_length, htree, ceil8] at hlen
  rw [htree] at hoff
  simp only [hlen, hoff, hbits, completeOk_leafCount, completeOk_treeSize, packedState_leafCount, packedState_treeSize]
  omega

/-! #### ENCODE from any state (R185) -/

/-- ENCODE's body fails in ENV_PACK when the envelope of the input does not fit OUT. -/
theorem encodeBody_error_of_overflow {o : Byte} {s : State} (h : s.inLen.toNat ≤ s.cfg.inCap)
    (hlen : s.cfg.outCap < (inputEnvelope (inputBytes s)).length) :
    encodeBody o s = .error ⟨.outOverflow, BitVec.ofNat 32 (inputEnvelope (inputBytes s)).length⟩ := by
  obtain ⟨s1, s2, hcount, hbuild, hcodes⟩ := encode_stages (o := o) h
  rw [← stateEnvelope_encodedState] at hlen ⊢
  exact encodeBody_error_iff.2
    (.inr ⟨h, s1, s2, _, hcount, hbuild, hcodes, envPackBody_error_iff.2 (.inr ⟨rfl, hlen, rfl⟩)⟩)

/-- On an input that fits IN, ENCODE packs the state its stages lead to, or takes the overflow of the envelope. -/
theorem exec_encode_of_inCap {s : State} (h : s.inLen.toNat ≤ s.cfg.inCap) :
    ((inputEnvelope (inputBytes s)).length ≤ s.cfg.outCap →
      exec .encode s = .next (completeOk (packedState (encodedState s)))) ∧
    (s.cfg.outCap < (inputEnvelope (inputBytes s)).length →
      exec .encode s = .next (afterError 0x10#8 (BitVec.ofNat 32 (inputEnvelope (inputBytes s)).length) s)) :=
  ⟨fun hfit => exec_of_body_ok (i := .encode) (encodeBody_ok_iff_fits.2 ⟨h, hfit, rfl⟩),
    fun hlen => exec_eq_afterError (i := .encode) (encodeBody_error_of_overflow h hlen)⟩

/-- The tables and registers ENCODE leaves are those of its input's tree. -/
theorem registers_of_encoded (s : State) :
    arena (completeOk (packedState (encodedState s))) = (inputTree (inputBytes s)).1 ∧
    (completeOk (packedState (encodedState s))).treeSize.toNat = (inputTree (inputBytes s)).1.length ∧
    (completeOk (packedState (encodedState s))).leafCount.toNat = (inputTree (inputBytes s)).2 ∧
    (completeOk (packedState (encodedState s))).root.toNat =
      if 1 ≤ (inputTree (inputBytes s)).1.length then 2 ^ 31 + ((inputTree (inputBytes s)).1.length - 1) else 0 := by
  have harena : arena (completeOk (packedState (encodedState s))) = (inputTree (inputBytes s)).1 :=
    (arena_congr rfl rfl).trans (arena_encodedState s)
  have hle := (inputTree_treeOk (inputBytes s)).length_le
  refine ⟨harena, by rw [← arena_length, harena], leafCount_encodedState s, ?_⟩
  rw [completeOk_root, packedState_root, root_encodedState, rootWord_toNat (by omega)]

/-- On success a command leaves everything as it was but the completion fields and what some body writes (R47, R122). -/
theorem eq_afterSuccess_of_success {i : Instr} {s t : State} (hexec : exec i s = .next t) (herr : t.errCode = 0) :
    t = afterSuccess { s with
      freq := t.freq, nodes := t.nodes, codes := t.codes, outBuf := t.outBuf, outLen := t.outLen
      freqV := t.freqV, treeV := t.treeV, treeSrc := t.treeSrc, codesV := t.codesV
      treeSize := t.treeSize, leafCount := t.leafCount, bits := t.bits, dataOff := t.dataOff, root := t.root
      statLeaf := t.statLeaf, statNodes := t.statNodes, statOrig := t.statOrig, statComp := t.statComp
      statRatio := t.statRatio } := by
  obtain ⟨s1, hbody, rfl⟩ := body_of_success hexec herr
  obtain ⟨herr, hcfg, hcmd, hwbusy, hdone, herrIE, hlen, hin, hsched, hans, hdraws, hepoch⟩ := body_frame hbody
  rw [afterSuccess, ← herr, ← hcfg, ← hcmd, ← hwbusy, ← hdone, ← herrIE, ← hlen, ← hin, ← hsched, ← hans, ← hdraws,
    ← hepoch]
  rfl

/-- Settles O37: ENCODE's body checks IN_LEN and the envelope's length, and on success packs `encodedState`. -/
theorem encodeWritesTheEnvelopeOfTheInput : Obligations.EncodeWritesTheEnvelopeOfTheInput := by
  unfold Obligations.EncodeWritesTheEnvelopeOfTheInput
  refine ⟨decode_encode .encode, fun s => ⟨fun hlen => ?_, fun hin hlen => ?_, fun hin hfit => ?_⟩⟩
  · exact exec_eq_afterError (body_error_of_inCap_lt (.inr (.inr (.inl rfl))) hlen)
  · exact (exec_encode_of_inCap hin).2 hlen
  · have hexec := (exec_encode_of_inCap hin).1 hfit
    have hratio := statRatio_of_packed (encodedState s)
    rw [← stateEnvelope_encodedState] at hfit ⊢
    obtain ⟨hout, hlen, hpast, hbits, hoff⟩ := output_of_packed (s := encodedState s) hfit
    rw [stateBits_encodedState] at hbits
    rw [arena_encodedState, leafCount_encodedState] at hoff
    have hkept : outByte (encodedState s) = outByte s :=
      outByte_congr (by simp [encodedState]) (by simp [encodedState])
    have hinLen : (encodedState s).inLen = s.inLen := by simp [encodedState]
    rw [hkept] at hpast
    rw [hinLen] at hratio
    have horig : (completeOk (packedState (encodedState s))).statOrig = s.inLen := by
      rw [completeOk_statOrig, packedState_statOrig, hinLen]
    obtain ⟨harena, hsize, hleaf, hroot⟩ := registers_of_encoded s
    exact ⟨_, hexec, hout, hlen, hpast, freq_encodedState s, harena, hsize, hleaf, codes_encodedState s,
      hbits, hoff, hroot, hratio, rfl, rfl, horig, rfl, eq_afterSuccess_of_success hexec rfl⟩

/-! #### ENCODE and its stages (R185)

A completion changes nothing a later stage reads, so the completions between the stages leave no trace. -/

theorem countedState_completeOk (s : State) : countedState (completeOk s) = completeOk (countedState s) := rfl

theorem builtState_completeOk (s : State) : builtState (completeOk s) = completeOk (builtState s) := rfl

theorem codedState_completeOk (s : State) : codedState (completeOk s) = completeOk (codedState s) := rfl

theorem packedState_completeOk (s : State) : packedState (completeOk s) = completeOk (packedState s) := rfl

theorem completeOk_completeOk (s : State) : completeOk (completeOk s) = completeOk s := rfl

theorem stateEnvelope_completeOk (s : State) : stateEnvelope (completeOk s) = stateEnvelope s := rfl

/-- The stages up to CODE_GEN, each completing on its own, end in the completion of `encodedState`. -/
theorem staged_encodedState (s : State) :
    completeOk (codedState (completeOk (builtState (completeOk (countedState (completeOk (clearDerived s))))))) =
      completeOk (encodedState s) := by
  simp only [countedState_completeOk, builtState_completeOk, codedState_completeOk, completeOk_completeOk, encodedState]

theorem exec_clear (s : State) : exec .clear s = .next (completeOk (clearDerived s)) := rfl

theorem cleared_of_exec {s t : State} (h : exec .clear s = .next t) : t = completeOk (clearDerived s) :=
  (Host.Outcome.next.inj h).symm

theorem exec_freqCount_of_inCap {s : State} (h : s.inLen.toNat ≤ s.cfg.inCap) :
    exec .freqCount s = .next (completeOk (countedState s)) :=
  exec_of_body_ok (i := .freqCount) (freqCountBody_ok_iff.2 ⟨h, rfl⟩)

theorem exec_treeBuild_of_freqV {s : State} (hv : s.freqV = true) :
    exec .treeBuild s = .next (completeOk (builtState s)) :=
  exec_of_body_ok (i := .treeBuild) (treeBuildBody_ok_iff.2 ⟨hv, rfl⟩)

/-- A FREQ_COUNT that fails had too long an input, and says so (R140). -/
theorem freqCount_of_failure {s t : State} (hexec : exec .freqCount s = .next t) (herr : t.errCode ≠ 0) :
    s.cfg.inCap < s.inLen.toNat ∧ t.errCode = 0x11#8 ∧ t.errInfo = s.inLen := by
  obtain ⟨r, hbody, rfl⟩ := body_of_failure hexec herr
  obtain ⟨hlen, rfl⟩ := freqCountBody_error_iff.1 hbody
  exact ⟨hlen, rfl, rfl⟩

/-- Once FREQ_COUNT has succeeded after CLEAR, TREE_BUILD and CODE_GEN find their flags set and succeed too. -/
theorem staged_of_freqCount {s s2 s3 s4 : State} (hcount : exec .freqCount (completeOk (clearDerived s)) = .next s2)
    (herr : s2.errCode = 0) (hbuild : exec .treeBuild s2 = .next s3) (hcodes : exec .codeGen s3 = .next s4) :
    s.inLen.toNat ≤ s.cfg.inCap ∧ s3.errCode = 0 ∧ s4 = completeOk (encodedState s) := by
  obtain ⟨s1, hbody, rfl⟩ := body_of_success hcount herr
  obtain ⟨hin, rfl⟩ := freqCountBody_ok_iff.1 hbody
  obtain rfl := Host.Outcome.next.inj (hbuild.symm.trans (exec_treeBuild_of_freqV rfl))
  exact ⟨hin, rfl, (coded_of_exec rfl hcodes).trans (staged_encodedState s)⟩

/-- ENV_PACK as the last stage completes exactly when the input's envelope fits OUT. -/
theorem exec_envPack_staged (s : State) :
    ((inputEnvelope (inputBytes s)).length ≤ s.cfg.outCap →
      exec .envPack (completeOk (encodedState s)) = .next (completeOk (packedState (encodedState s)))) ∧
    (s.cfg.outCap < (inputEnvelope (inputBytes s)).length →
      exec .envPack (completeOk (encodedState s)) = .next
        (afterError 0x10#8 (BitVec.ofNat 32 (inputEnvelope (inputBytes s)).length) (completeOk (encodedState s)))) := by
  have hcfg : (completeOk (encodedState s)).cfg = s.cfg := by simp [encodedState]
  rw [← stateEnvelope_encodedState, ← stateEnvelope_completeOk, ← hcfg]
  refine ⟨fun hfit => ?_, fun hlen => ?_⟩
  · rw [exec_of_body_ok (i := .envPack) (envPackBody_ok_iff.2 ⟨⟨rfl, rfl⟩, hfit, rfl⟩), packedState_completeOk,
      completeOk_completeOk]
  · exact exec_eq_afterError (i := .envPack) (envPackBody_error_iff.2 (.inr ⟨rfl, hlen, rfl⟩))

/-- Settles O38: the stages lead to the state ENCODE packs, and the same two checks can fail. -/
theorem encodeIsTheStagedSequence : Obligations.EncodeIsTheStagedSequence := by
  unfold Obligations.EncodeIsTheStagedSequence
  refine ⟨decode_encode .encode, fun s => ⟨fun t => ⟨?_, ?_⟩, ?_, ?_⟩⟩
  · rintro ⟨hexec, herr⟩
    obtain ⟨s1, hbody, rfl⟩ := body_of_success hexec herr
    obtain ⟨hin, hfit, rfl⟩ := encodeBody_ok_iff_fits.1 hbody
    have hpack := (exec_envPack_staged s).1 hfit
    rw [← staged_encodedState] at hpack
    exact ⟨_, _, _, _, exec_clear s, ⟨exec_freqCount_of_inCap hin, rfl⟩, ⟨exec_treeBuild_of_freqV rfl, rfl⟩,
      ⟨exec_codeGen_of_treeV rfl, rfl⟩, hpack, rfl⟩
  · rintro ⟨s1, s2, s3, s4, hclear, ⟨hcount, herr2⟩, ⟨hbuild, -⟩, ⟨hcodes, -⟩, hpack, herr⟩
    obtain rfl := cleared_of_exec hclear
    obtain ⟨hin, -, rfl⟩ := staged_of_freqCount hcount herr2 hbuild hcodes
    rcases Nat.lt_or_ge s.cfg.outCap (inputEnvelope (inputBytes s)).length with hlen | hfit
    · obtain rfl := Host.Outcome.next.inj (hpack.symm.trans ((exec_envPack_staged s).2 hlen))
      exact absurd herr (causeCode_ne_zero .outOverflow)
    · rw [← hpack, (exec_envPack_staged s).1 hfit]
      exact ⟨(exec_encode_of_inCap hin).1 hfit, herr⟩
  · intro s1 s2 hclear hcount herr
    obtain rfl := cleared_of_exec hclear
    obtain ⟨hlen, hcode, hinfo⟩ := freqCount_of_failure hcount herr
    simp only [completeOk_cfg, completeOk_inLen, clearDerived_cfg, clearDerived_inLen] at hlen hinfo
    rw [hcode, hinfo]
    exact ⟨rfl, exec_eq_afterError (body_error_of_inCap_lt (.inr (.inr (.inl rfl))) hlen)⟩
  · intro s1 s2 s3 s4 s5 hclear hcount herr hbuild hcodes hpack
    obtain rfl := cleared_of_exec hclear
    obtain ⟨hin, herr3, rfl⟩ := staged_of_freqCount hcount herr hbuild hcodes
    refine ⟨herr3, rfl, fun herr5 => ?_⟩
    rcases Nat.lt_or_ge s.cfg.outCap (inputEnvelope (inputBytes s)).length with hlen | hfit
    · obtain rfl := Host.Outcome.next.inj (hpack.symm.trans ((exec_envPack_staged s).2 hlen))
      exact ⟨rfl, (exec_encode_of_inCap hin).2 hlen⟩
    · obtain rfl := Host.Outcome.next.inj (hpack.symm.trans ((exec_envPack_staged s).1 hfit))
      exact absurd rfl herr5

end Sys2Proof.Machine

/-! ### DECODE of what ENCODE made (spec/43_encoder.md R187) -/

namespace Sys2Proof.Machine

/-! #### Codes of an arena -/

/-- `p` leads to a leaf of symbol `b`: from the root down (R171), or as the one-bit code of a sole leaf (R172). -/
def IsCode (nodes : List Node) (b : Byte) (p : Path) : Prop :=
  ∃ i f, nodes[i]? = some (.leaf b f) ∧
    ((nodes.length = 1 ∧ p = [false]) ∨ (2 ≤ nodes.length ∧ descend nodes (nodes.length - 1) p = some i))

/-- An arena with a code is not empty. -/
theorem IsCode.length_pos {nodes : List Node} {b : Byte} {p : Path} (h : IsCode nodes b p) : 0 < nodes.length := by
  obtain ⟨-, -, -, ⟨hone, -⟩ | ⟨h2, -⟩⟩ := h <;> omega

theorem IsCode.withoutFreq {nodes : List Node} {b : Byte} {p : Path} (h : IsCode nodes b p) :
    IsCode (nodes.map withoutFreq) b p := by
  obtain ⟨i, f, hi, hp⟩ := h
  refine ⟨i, 0, by rw [List.getElem?_map, hi]; rfl, ?_⟩
  rwa [List.length_map, descend_withoutFreq]

/-- The code table of a tree gives a leaf's symbol a code. -/
theorem isCode_codeTable {nodes : List Node} {l i : Nat} (h : TreeOk nodes l) (hi : i < l) :
    let b := nodePayload (nodes[i]'(Nat.lt_of_lt_of_le hi h.le_length))
    IsCode nodes b (entry (codeTable nodes l) b) := by
  intro b
  have hlen := Nat.lt_of_lt_of_le hi h.le_length
  have hleaf : ∃ f, nodes[i]? = some (.leaf b f) := by
    have hkind := h.isLeaf_of_lt hi
    rw [List.getElem?_eq_getElem hlen]
    cases hn : nodes[i] with
    | leaf q f => exact ⟨f, by simp [b, hn, nodePayload]⟩
    | internal => simp [hn, nodeIsLeaf] at hkind
  obtain ⟨f, hleaf⟩ := hleaf
  refine ⟨i, f, hleaf, ?_⟩
  by_cases hone : nodes.length = 1
  · exact .inl ⟨hone, by rw [codeTable_leaf h hi, if_pos hone]⟩
  · exact .inr ⟨by omega, codeTable_descend h (by omega) hi⟩

/-- Every byte of an input has a code in the input's tree. -/
theorem isCode_inputCodes {x : List Byte} (hx : x.length < 2 ^ 32) {b : Byte} (hb : b ∈ x) :
    IsCode (inputTree x).1 b (entry (inputCodes x) b) := by
  obtain ⟨i, hi, rfl⟩ := leaf_of_inputByte hx hb
  exact isCode_codeTable (inputTree_treeOk x) hi

/-! #### Walking codes (R204, R206, R207) -/

section Codes

variable {s : State} (ht : TreeOk (arena s) s.leafCount.toNat)
include ht

/-- From the root a code emits its symbol and leads back to the root. -/
theorem walkBits_code {b : Byte} {p : Path} (hp : IsCode (arena s) b p) (k : Nat) {out : List Byte}
    (hfit : out.length < s.cfg.outCap) :
    walkBits s k p ⟨s.treeSize.toNat - 1, out⟩ = .ok ⟨s.treeSize.toNat - 1, out ++ [b]⟩ := by
  obtain ⟨i, f, hleaf, hcode⟩ := hp
  obtain ⟨hi, hnode⟩ := List.getElem?_eq_some_iff.1 hleaf
  have hil : i < s.leafCount.toNat := (ht.kinds i hi).1 (by rw [hnode]; rfl)
  rw [arena_getElem] at hnode
  rw [arena_length] at hi hcode
  rcases hcode with ⟨hone, rfl⟩ | ⟨h2, hdesc⟩
  · obtain rfl : i = 0 := by omega
    have hwalk := walkBits_zeros hone 1 k ⟨s.treeSize.toNat - 1, out⟩ hfit
    rwa [hnode] at hwalk
  · rw [walkBits_path h2 ht k out hdesc hil (path_ne_nil h2 ht hdesc hil), emit, if_neg (by simp only; omega), hnode]
    rfl

/-- A sequence of codes emits its symbols, as long as they fit OUT. -/
theorem walkBits_codes {c : Byte → Path} {x : List Byte} (hx : ∀ b ∈ x, IsCode (arena s) b (c b)) (k : Nat)
    {out : List Byte} (hfit : out.length + x.length ≤ s.cfg.outCap) :
    walkBits s k (x.flatMap c) ⟨s.treeSize.toNat - 1, out⟩ = .ok ⟨s.treeSize.toNat - 1, out ++ x⟩ := by
  induction x generalizing k out with
  | nil => rw [List.flatMap_nil, walkBits, List.append_nil]
  | cons b x ih =>
    rw [List.length_cons] at hfit
    rw [List.flatMap_cons, walkBits_append, walkBits_code ht (hx b List.mem_cons_self) k (by omega)]
    simp only
    rw [ih (fun a ha => hx a (List.mem_cons_of_mem b ha)) _ (by rw [List.length_append, List.length_singleton]; omega),
      List.append_assoc, List.singleton_append]

/-- BIT_DECODE emits the symbols of the codes its packed bits hold. -/
theorem bitDecodeBody_of_codes {o : Byte} {c : Byte → Path} {x : List Byte} (hv : s.treeV = true ∧ s.treeSrc = true)
    (hneed : s.dataOff.toNat + ceil8 s.bits.toNat ≤ s.inLen.toNat) (hbits : packedBits s = x.flatMap c)
    (hx : ∀ b ∈ x, IsCode (arena s) b (c b)) (hfit : x.length ≤ s.cfg.outCap) :
    bitDecodeBody o s = .ok (decodedState s x) := by
  have hwalk : walkAll s = .ok ⟨s.treeSize.toNat - 1, x⟩ := by
    rw [walkAll, hbits, walkBits_codes ht hx 0 (by simpa using hfit), List.nil_append]
  refine bitDecodeBody_ok_iff.2 ⟨hv, hneed, fun hzero => ?_, _, hwalk, fun _ => rfl, rfl⟩
  have hlen : s.bits.toNat = (x.flatMap c).length := by rw [← hbits, packedBits, List.length_map, List.length_range]
  cases x with
  | nil => exact hlen
  | cons b x =>
    have hpos := (hx b List.mem_cons_self).length_pos
    rw [arena_length, hzero] at hpos
    exact absurd hpos (Nat.lt_irrefl 0)

end Codes

/-! #### The envelope of an input, loaded -/

theorem HoldsInput.clearDerived {u : State} {e : List Byte} (h : HoldsInput u e) : HoldsInput (clearDerived u) e :=
  ⟨h.len, h.fits, by rw [inputBytes_clearDerived, h.bytes]⟩

/-- The header of the envelope of an input (R100, R103). -/
def inputHeader (x : List Byte) : Header :=
  ⟨(inputTree x).1.length, (inputTree x).2, (bitSeq (inputCodes x) x).length,
    12 + (serialize (inputTree x).1 (inputTree x).2).length⟩

/-- The state ENV_PARSE leaves of the envelope of an input. -/
def inputParsed (u : State) (x : List Byte) : State :=
  parsedState u (inputHeader x) ((inputTree x).1.map withoutFreq)

section Loaded

variable {u : State} {x : List Byte} (h : HoldsInput u (inputEnvelope x)) (hx : x.length ≤ 2 ^ 24)
include h hx

/-- The header and the tree region of the loaded envelope are accepted. -/
theorem HoldsInput.parse_input : parseHeader (inByte u) u.inLen.toNat = .ok (inputHeader x) ∧
    reconstruct (inByte u) (inputHeader x).size (inputHeader x).leaves = .ok ((inputTree x).1.map withoutFreq) := by
  have ht := inputTree_treeOk x
  have hlen := envelope_length (inputTree x).1 (inputTree x).2 (bitSeq (inputCodes x) x)
  obtain ⟨hheader, hrecords⟩ := HoldsInput.parse h ht (length_bitSeq_lt hx) ⟨[], List.append_nil _⟩
    (by rw [inputEnvelope]; omega)
  have hrecon := reconstruct_of_treeOk (hrecords ▸ ht.withoutFreq)
  rw [hrecords] at hrecon
  exact ⟨hheader, hrecon⟩

theorem HoldsInput.envParseBody_input : envParseBody u = .ok (inputParsed u x) := by
  obtain ⟨hheader, hrecon⟩ := h.parse_input hx
  exact envParseBody_ok_iff.2 ⟨h.len ▸ h.fits, _, _, hheader, hrecon, rfl⟩

/-- How the tree registers read after the loaded envelope is parsed. -/
theorem HoldsInput.registers_of_inputParsed : arena (inputParsed u x) = (inputTree x).1.map withoutFreq ∧
    TreeOk (arena (inputParsed u x)) (inputParsed u x).leafCount.toNat ∧
    (inputParsed u x).bits.toNat = (bitSeq (inputCodes x) x).length ∧
    (inputParsed u x).dataOff.toNat = 12 + (serialize (inputTree x).1 (inputTree x).2).length := by
  obtain ⟨hheader, hrecon⟩ := h.parse_input hx
  obtain ⟨harena, htree, -, hleaf, hbits, hoff⟩ := registers_of_parsed hheader hrecon
  exact ⟨harena, by rw [inputParsed, harena, hleaf]; exact htree, hbits, hoff⟩

/-- The parsed envelope's data bits are the codes of the input's bytes (R203). -/
theorem HoldsInput.packedBits_inputParsed : packedBits (inputParsed u x) = bitSeq (inputCodes x) x := by
  obtain ⟨-, -, hbits, hoff⟩ := h.registers_of_inputParsed hx
  have hin : inByte (inputParsed u x) = inByte u := inByte_congr rfl rfl
  have hbit : packedBit (inputParsed u x) = fun k =>
      (inByte u (12 + (serialize (inputTree x).1 (inputTree x).2).length + k / 8)).getLsbD (k % 8) := by
    funext k
    rw [packedBit, hin, hoff]
  rw [packedBits, hbits, hbit]
  exact (HoldsInput.data h).symm

/-- BIT_DECODE of the parsed envelope emits the input. -/
theorem HoldsInput.bitDecodeBody_input {o : Byte} (hfit : x.length ≤ u.cfg.outCap) :
    bitDecodeBody o (inputParsed u x) = .ok (decodedState (inputParsed u x) x) := by
  obtain ⟨harena, htree, hbits, hoff⟩ := h.registers_of_inputParsed hx
  have hneed : (inputParsed u x).dataOff.toNat + ceil8 (inputParsed u x).bits.toNat ≤ (inputParsed u x).inLen.toNat := by
    rw [hoff, hbits, inputParsed, parsedState_inLen, h.len, inputEnvelope, envelope_length]
  refine bitDecodeBody_of_codes htree ⟨rfl, rfl⟩ hneed (h.packedBits_inputParsed hx) (fun b hb => ?_) hfit
  rw [harena]
  exact (isCode_inputCodes (by omega) hb).withoutFreq

end Loaded

/-- Settles O49: ENCODE's output is the envelope its ENV_PACK frames; DECODE parses it and walks its codes back. -/
theorem decodeReturnsTheEncodedInput : Obligations.DecodeReturnsTheEncodedInput := by
  unfold Obligations.DecodeReturnsTheEncodedInput
  refine ⟨fun s t hexec herr => ?_, fun x u hu hfit => ?_⟩
  · obtain ⟨s1, hbody, rfl⟩ := body_of_success hexec herr
    obtain ⟨-, hfit, rfl⟩ := encodeBody_ok_iff_fits.1 hbody
    rw [← stateEnvelope_encodedState] at hfit ⊢
    exact (output_of_packed hfit).1
  · have hcap := (outCap_bounds u.cfg).2.2
    have hload := hu.clearDerived
    have hbody : decodeBody (Instr.opcode .decode) u = .ok (decodedState (inputParsed (clearDerived u) x) x) :=
      decodeBody_ok_iff.2 ⟨hu.len ▸ hu.fits, _, hload.envParseBody_input (by omega),
        hload.bitDecodeBody_input (by omega) hfit⟩
    obtain ⟨hout, hlen, hpast⟩ := output_of_decoded (s := inputParsed (clearDerived u) x) hfit
    have hkept : outByte (inputParsed (clearDerived u) x) = outByte u :=
      outByte_congr (by simp [inputParsed]) (by simp [inputParsed])
    rw [hkept] at hpast
    exact ⟨_, exec_of_body_ok (i := .decode) hbody, rfl, rfl, hout, hlen, rfl, rfl, rfl, rfl, hpast,
      congrFun (inByte_congr (by simp [inputParsed]) (by simp [inputParsed]))⟩

end Sys2Proof.Machine

/-! ### The decoder: the header and ENV_PARSE (spec/44_decoder.md R200, R202) -/

namespace Sys2Proof.Machine

/-! #### The header (R200) -/

theorem parseHeader_short {buf : Nat → Byte} {len : Nat} (h : len < 12) :
    parseHeader buf len = .error ⟨.fmtShort, 12#32⟩ := if_pos h

theorem parseHeader_inconsistent {buf : Nat → Byte} {len : Nat} (h12 : 12 ≤ len)
    (hbad : ¬headerOk (rdLE32 buf 0) (rdLE32 buf 4) = true) : parseHeader buf len = .error ⟨.fmtHeader, 0#32⟩ := by
  rw [parseHeader, if_neg (Nat.not_lt.2 h12)]
  exact if_neg hbad

/-- Once the pair of size and leaf count is accepted, only the end of the tree region is left to check. -/
theorem parseHeader_of_headerOk {buf : Nat → Byte} {len : Nat} (h12 : 12 ≤ len)
    (hok : headerOk (rdLE32 buf 0) (rdLE32 buf 4) = true) :
    parseHeader buf len =
      if len < 12 + rdLE32 buf 4 + 4 * (rdLE32 buf 0 - rdLE32 buf 4) then
        .error ⟨.fmtShort, BitVec.ofNat 32 (12 + rdLE32 buf 4 + 4 * (rdLE32 buf 0 - rdLE32 buf 4))⟩
      else
        .ok ⟨rdLE32 buf 0, rdLE32 buf 4, rdLE32 buf 8, 12 + rdLE32 buf 4 + 4 * (rdLE32 buf 0 - rdLE32 buf 4)⟩ := by
  rw [parseHeader, if_neg (Nat.not_lt.2 h12)]
  exact if_pos hok

/-- ENV_PARSE takes the header's error. -/
theorem exec_envParse_of_header_error {s : State} {r : Raise} (hin : s.inLen.toNat ≤ s.cfg.inCap)
    (hheader : parseHeader (inByte s) s.inLen.toNat = .error r) :
    exec .envParse s = .next (afterError (causeCode r.cause) r.info s) :=
  exec_eq_afterError (i := .envParse) (envParseBody_error_iff.2 (.inr ⟨hin, .inl hheader⟩))

/-- Settles O39: ParseHeader's three checks, one after another. -/
theorem headerIsCheckedInOrder : Obligations.HeaderIsCheckedInOrder := by
  unfold Obligations.HeaderIsCheckedInOrder
  intro s hin size l ok doff
  refine ⟨fun hshort => ?_, fun h12 hbad => ?_, fun h12 hok hcut => ?_, fun h12 hok hwhole => ?_⟩
  · exact exec_envParse_of_header_error hin (parseHeader_short hshort)
  · exact exec_envParse_of_header_error hin (parseHeader_inconsistent h12 (mt headerOk_iff.1 hbad))
  · exact exec_envParse_of_header_error hin ((parseHeader_of_headerOk h12 (headerOk_iff.2 hok)).trans (if_pos hcut))
  · exact (parseHeader_of_headerOk h12 (headerOk_iff.2 hok)).trans (if_neg (Nat.not_lt.2 hwhole))

/-! #### ENV_PARSE (R202) -/

/-- What ENV_PARSE leaves as it was (R202). -/
theorem parsedState_frame (s : State) (h : Header) (ns : List Node) :
    let t := completeOk (parsedState s h ns)
    t = afterSuccess { s with
      nodes := t.nodes, treeSize := t.treeSize, leafCount := t.leafCount, bits := t.bits, dataOff := t.dataOff
      root := t.root, treeV := true, treeSrc := true, freqV := false, codesV := false } := rfl

/-- Settles O40: the errors of the body in their order, and the registers of the state it leaves on success. -/
theorem envParseRebuildsTheTree : Obligations.EnvParseRebuildsTheTree := by
  unfold Obligations.EnvParseRebuildsTheTree
  refine ⟨decode_encode .envParse, fun s hlen => ?_, fun s hin => ⟨fun r hheader => ?_, fun h r hheader hrecon => ?_,
    fun h ns hheader hrecon => ?_⟩⟩
  · exact exec_eq_afterError (body_error_of_inCap_lt (.inr (.inl rfl)) hlen)
  · exact exec_envParse_of_header_error hin hheader
  · exact exec_eq_afterError (i := .envParse) (envParseBody_error_iff.2 (.inr ⟨hin, .inr ⟨h, hheader, hrecon⟩⟩))
  · obtain ⟨harena, -, hsize, hleaf, hbits, hoff⟩ := registers_of_parsed hheader hrecon
    obtain ⟨-, hle, -⟩ := parseHeader_ok hheader
    exact ⟨_, exec_of_body_ok (i := .envParse) (envParseBody_ok_iff.2 ⟨hin, h, ns, hheader, hrecon, rfl⟩),
      harena, reconstruct_eq_records hrecon, hsize, hleaf, hbits, hoff, rootWord_toNat (by omega),
      parsedState_frame s h ns⟩

end Sys2Proof.Machine

/-! ### The decoder: BIT_DECODE (spec/44_decoder.md R204, R206, R207) -/

namespace Sys2Proof.Machine

/-! #### The command, by what its walk does -/

section Parsed

variable {s : State} (hv : s.treeV = true ∧ s.treeSrc = true)
  (hneed : s.dataOff.toNat + ceil8 s.bits.toNat ≤ s.inLen.toNat) (hempty : s.treeSize = 0 → s.bits.toNat = 0)
include hv hneed hempty

/-- A walk that ends at the root gives BIT_DECODE its output. -/
theorem bitDecodeBody_of_walkAll {o : Byte} {out : List Byte}
    (hwalk : walkAll s = .ok ⟨s.treeSize.toNat - 1, out⟩) : bitDecodeBody o s = .ok (decodedState s out) :=
  bitDecodeBody_ok_iff.2 ⟨hv, hneed, hempty, _, hwalk, fun _ => rfl, rfl⟩

/-- BIT_DECODE of a walk that ends at the root writes OUT and OUT_LEN, and nothing else changes. -/
theorem exec_bitDecode_of_walkAll {out : List Byte} (hwalk : walkAll s = .ok ⟨s.treeSize.toNat - 1, out⟩)
    (hfit : out.length ≤ s.cfg.outCap) :
    ∃ t, exec .bitDecode s = .next t ∧ outputBytes t = out ∧ t.outLen.toNat = out.length ∧
      (∀ k, out.length ≤ k → outByte t k = outByte s k) ∧
      t = afterSuccess { s with outBuf := t.outBuf, outLen := t.outLen } := by
  obtain ⟨hout, hlen, hpast⟩ := output_of_decoded hfit
  exact ⟨_, exec_of_body_ok (i := .bitDecode) (bitDecodeBody_of_walkAll hv hneed hempty hwalk), hout, hlen, hpast, rfl⟩

/-- BIT_DECODE takes the error of its walk. -/
theorem exec_bitDecode_of_walkAll_error {r : Raise} (hwalk : walkAll s = .error r) :
    exec .bitDecode s = .next (afterError (causeCode r.cause) r.info s) :=
  exec_eq_afterError (i := .bitDecode) (bitDecodeBody_error_iff.2
    (.inr ⟨Bool.and_eq_true_iff.2 hv, .inr ⟨hneed, .inr ⟨hempty, .inl hwalk⟩⟩⟩))

/-- A walk that ends inside a path is truncated (R204). -/
theorem exec_bitDecode_of_walkAll_inside {w : Walk} (hwalk : walkAll s = .ok w) (h2 : 2 ≤ s.treeSize.toNat)
    (hptr : w.ptr ≠ s.treeSize.toNat - 1) : exec .bitDecode s = .next (afterError 0x03#8 s.bits s) :=
  exec_eq_afterError (i := .bitDecode) (c := .fmtTruncated) (bitDecodeBody_error_iff.2
    (.inr ⟨Bool.and_eq_true_iff.2 hv, .inr ⟨hneed, .inr ⟨hempty, .inr ⟨w, hwalk, ⟨h2, hptr⟩, rfl⟩⟩⟩⟩))

end Parsed

/-- Too few data bytes are FMT_SHORT, on any tree (R204). -/
theorem bitDecodeBody_of_short {o : Byte} {s : State} (hv : s.treeV = true ∧ s.treeSrc = true)
    (hshort : s.inLen.toNat < s.dataOff.toNat + ceil8 s.bits.toNat) :
    bitDecodeBody o s = .error ⟨.fmtShort, BitVec.ofNat 32 (s.dataOff.toNat + ceil8 s.bits.toNat)⟩ :=
  bitDecodeBody_error_iff.2 (.inr ⟨Bool.and_eq_true_iff.2 hv, .inl ⟨hshort, rfl⟩⟩)

/-! #### Walks on a tree of two or more nodes (R207) -/

section Tree

variable {s : State} (h2 : 2 ≤ s.treeSize.toNat) (ht : TreeOk (arena s) s.leafCount.toNat)
  {ps : List (Path × Nat)}
  (hps : ∀ p ∈ ps, p.2 < s.leafCount.toNat ∧ descend (arena s) (s.treeSize.toNat - 1) p.1 = some p.2)
include h2 ht hps

/-- Once a sequence of paths that fits OUT is read, the walk goes on from the root with what is left. -/
theorem walkAll_of_paths {rest : List Bool} (hbits : packedBits s = (ps.map Prod.fst).flatten ++ rest)
    (hfit : ps.length ≤ s.cfg.outCap) :
    walkAll s = walkBits s (ps.map Prod.fst).flatten.length rest
      ⟨s.treeSize.toNat - 1, ps.map fun p => nodePayload (node s p.2)⟩ := by
  rw [walkAll, hbits, walkBits_append, walkBits_paths h2 ht ps 0 [] hps (by simpa using hfit), List.nil_append,
    Nat.zero_add]

/-- Packed bits that are a sequence of paths lead back to the root. -/
theorem walkAll_paths (hbits : packedBits s = (ps.map Prod.fst).flatten) (hfit : ps.length ≤ s.cfg.outCap) :
    walkAll s = .ok ⟨s.treeSize.toNat - 1, ps.map fun p => nodePayload (node s p.2)⟩ := by
  rw [walkAll_of_paths h2 ht hps (rest := []) (by rw [hbits, List.append_nil]) hfit, walkBits]

/-- Bits left over that stop at an internal node leave the pointer there, below the root. -/
theorem walkAll_paths_partial {rest : List Bool} {i : Nat} (hbits : packedBits s = (ps.map Prod.fst).flatten ++ rest)
    (hfit : ps.length ≤ s.cfg.outCap) (hrest : rest ≠ [])
    (hdesc : descend (arena s) (s.treeSize.toNat - 1) rest = some i) (hi : s.leafCount.toNat ≤ i) :
    ∃ w, walkAll s = .ok w ∧ w.ptr ≠ s.treeSize.toNat - 1 := by
  refine ⟨_, (walkAll_of_paths h2 ht hps hbits hfit).trans (walkBits_partial h2 ht _ _ hdesc hi), ?_⟩
  have hdown := ht.descend_le hdesc
  have hpos := List.length_pos_iff.2 hrest
  simp only
  omega

/-- The path that completes one symbol more than OUT holds overflows at its last bit. -/
theorem walkAll_paths_overflow {rest : List Bool} (hbits : packedBits s = (ps.map Prod.fst).flatten ++ rest)
    (hover : ps.length = s.cfg.outCap + 1) :
    walkAll s = .error ⟨.outOverflow, BitVec.ofNat 32 ((ps.map Prod.fst).flatten.length - 1)⟩ := by
  rcases ps.eq_nil_or_concat' with rfl | ⟨qs, q, rfl⟩
  · exact absurd hover (by simp)
  · obtain ⟨hi, hdesc⟩ := hps q (by simp)
    have hfull : qs.length = s.cfg.outCap := by simpa using hover
    rw [walkAll_of_paths h2 ht (fun p hp => hps p (List.mem_append_left _ hp)) (rest := q.1 ++ rest)
        (by simpa using hbits) hfull.le,
      walkBits_append, walkBits_path h2 ht _ _ hdesc hi (path_ne_nil h2 ht hdesc hi), emit,
      if_pos (by simpa using hfull)]
    simp

end Tree

/-- Settles O43: by what the walk does after the paths, at the root with nothing left, inside a path, or at a full OUT. -/
theorem bitDecodeWalksTheTree : Obligations.BitDecodeWalksTheTree := by
  unfold Obligations.BitDecodeWalksTheTree
  refine ⟨decode_encode .bitDecode, fun s ps rest hv hsrc h2 ht hneed hps hbits => ?_⟩
  have hempty : s.treeSize = 0 → s.bits.toNat = 0 := fun hzero => absurd (toNat_eq_zero_iff.2 hzero) (by omega)
  refine ⟨fun hfit hrest => ?_, fun hfit hrest hinside => ?_, fun hover => ?_⟩
  · rw [hrest, List.append_nil] at hbits
    obtain ⟨t, hexec, hout⟩ := exec_bitDecode_of_walkAll ⟨hv, hsrc⟩ hneed hempty (walkAll_paths h2 ht hps hbits hfit)
      (by rwa [List.length_map])
    rw [List.length_map] at hout
    exact ⟨t, hexec, hout⟩
  · obtain ⟨i, hdesc, hi⟩ := hinside
    obtain ⟨w, hwalk, hptr⟩ := walkAll_paths_partial h2 ht hps hbits hfit hrest hdesc hi
    exact exec_bitDecode_of_walkAll_inside ⟨hv, hsrc⟩ hneed hempty hwalk h2 hptr
  · exact exec_bitDecode_of_walkAll_error ⟨hv, hsrc⟩ hneed hempty (walkAll_paths_overflow h2 ht hps hbits hover)

/-- BIT_DECODE raises FMT_BAD_CODE on an empty or a single-leaf tree only (R206). -/
theorem treeSize_le_of_badCode {o : Byte} {s : State} {r : Raise} (hbody : bitDecodeBody o s = .error r)
    (hbad : r.cause = .fmtBadCode) : s.treeSize.toNat ≤ 1 := by
  rcases bitDecodeBody_error_iff.1 hbody with ⟨-, rfl⟩ | ⟨-, ⟨-, rfl⟩ | ⟨-, ⟨⟨hzero, -⟩, -⟩ | ⟨-, hwalk | ⟨w, -, -, rfl⟩⟩⟩⟩
  · cases hbad
  · cases hbad
  · rw [toNat_eq_zero_iff.2 hzero]
    exact Nat.zero_le 1
  · rcases walkBits_error_cause hwalk with ⟨-, hone⟩ | hover
    · exact hone.le
    · cases hbad.symm.trans hover
  · cases hbad

theorem cause_of_badCode {c : ErrorCause} (h : causeCode c = 0x07#8) : c = .fmtBadCode := by
  cases c
  case fmtBadCode => rfl
  all_goals exact absurd h (by decide)

/-- Settles O45: success leaves ERR_CODE 0, and a body that raises FMT_BAD_CODE stood on fewer than two nodes. -/
theorem badCodeNeedsADegenerateTree : Obligations.BadCodeNeedsADegenerateTree := by
  unfold Obligations.BadCodeNeedsADegenerateTree
  intro s t h2 hexec hcode
  obtain ⟨r, hbody, rfl⟩ := body_of_failure hexec (by rw [hcode]; decide)
  exact absurd (treeSize_le_of_badCode hbody (cause_of_badCode hcode)) (by omega)

/-! #### Walks on the degenerate trees (R206) -/

/-- No packed bits leave the walk where it starts. -/
theorem walkAll_of_no_bits {s : State} (hbits : s.bits.toNat = 0) : walkAll s = .ok ⟨s.treeSize.toNat - 1, []⟩ := by
  rw [walkAll, packedBits, hbits]
  rfl

/-- Zeros before bit `k` make a run of `k` zeros at the front of the packed bits. -/
theorem take_packedBits_of_zeros {s : State} {k : Nat} (hk : k ≤ s.bits.toNat)
    (hzeros : ∀ j, j < k → packedBit s j = false) : (packedBits s).take k = List.replicate k false := by
  rw [packedBits, ← List.map_take, List.take_range, Nat.min_eq_left hk, List.eq_replicate_iff]
  simpa using hzeros

section SingleLeaf

variable {s : State} (hone : s.treeSize.toNat = 1)
include hone

/-- Zeros that fit OUT emit the sole symbol, each once. -/
theorem walkAll_zeros {n : Nat} (hbits : packedBits s = List.replicate n false) (hfit : n ≤ s.cfg.outCap) :
    walkAll s = .ok ⟨s.treeSize.toNat - 1, List.replicate n (nodePayload (node s 0))⟩ := by
  rw [walkAll, hbits, walkBits_zeros hone n 0 _ (by simpa using hfit), List.nil_append]

/-- After `k` zeros that fit OUT, an error at bit `k` is the walk's. -/
theorem walkAll_error_at {k : Nat} (hk : k < s.bits.toNat) (hfit : k ≤ s.cfg.outCap)
    (hzeros : ∀ j, j < k → packedBit s j = false) {e : Raise}
    (hbit : walkBit s k (packedBit s k) ⟨s.treeSize.toNat - 1, List.replicate k (nodePayload (node s 0))⟩ = .error e) :
    walkAll s = .error e := by
  have hlen : k < (packedBits s).length := by simpa [packedBits] using hk
  have hsplit : packedBits s = List.replicate k false ++ packedBit s k :: (packedBits s).drop (k + 1) := by
    rw [← take_packedBits_of_zeros hk.le hzeros]
    conv_lhs => rw [← List.take_append_drop k (packedBits s), List.drop_eq_getElem_cons hlen]
    simp [packedBits]
  rw [walkAll, hsplit, walkBits_append, walkBits_zeros hone k 0 _ (by simpa using hfit)]
  simp only [List.nil_append, List.length_replicate, Nat.zero_add, walkBits, hbit]

/-- The first bit 1 is no code of a single leaf. -/
theorem walkAll_one {k : Nat} (hk : k < s.bits.toNat) (hfit : k ≤ s.cfg.outCap)
    (hzeros : ∀ j, j < k → packedBit s j = false) (hbit : packedBit s k = true) :
    walkAll s = .error ⟨.fmtBadCode, BitVec.ofNat 32 k⟩ :=
  walkAll_error_at hone hk hfit hzeros (by rw [walkBit, if_pos hone, if_pos hbit])

/-- One zero more than OUT holds overflows at its position. -/
theorem walkAll_zeros_overflow (hk : s.cfg.outCap < s.bits.toNat)
    (hzeros : ∀ k, k ≤ s.cfg.outCap → packedBit s k = false) :
    walkAll s = .error ⟨.outOverflow, BitVec.ofNat 32 s.cfg.outCap⟩ := by
  refine walkAll_error_at hone hk le_rfl (fun j hj => hzeros j hj.le) ?_
  rw [walkBit, if_pos hone, hzeros _ le_rfl, if_neg Bool.false_ne_true, emit, if_pos List.length_replicate]

end SingleLeaf

/-- Settles O44: the checks before the walk, then the walk of an empty and of a single-leaf tree. -/
theorem bitDecodeOfDegenerateTrees : Obligations.BitDecodeOfDegenerateTrees := by
  unfold Obligations.BitDecodeOfDegenerateTrees
  intro s hv hsrc need
  have single : s.treeSize = 1 → s.treeSize.toNat = 1 ∧ (s.treeSize = 0 → s.bits.toNat = 0) := fun hone =>
    ⟨congrArg BitVec.toNat hone, fun hzero => absurd (hone.symm.trans hzero) (by decide)⟩
  refine ⟨fun hshort => ?_, fun hneed hzero hbits => ?_, fun hneed hbits => ?_, fun hneed h1 hzeros hfit => ?_,
    fun hneed h1 hlen hzeros => ?_, fun k hneed h1 hk hfit hbit hzeros => ?_⟩
  · exact exec_eq_afterError (i := .bitDecode) (bitDecodeBody_of_short ⟨hv, hsrc⟩ hshort)
  · exact exec_eq_afterError (i := .bitDecode) (c := .fmtBadCode) (bitDecodeBody_error_iff.2
      (.inr ⟨Bool.and_eq_true_iff.2 ⟨hv, hsrc⟩, .inr ⟨hneed, .inl ⟨⟨hzero, hbits⟩, rfl⟩⟩⟩))
  · have hnone := toNat_eq_zero_iff.2 hbits
    exact exec_of_body_ok (i := .bitDecode)
      (bitDecodeBody_of_walkAll ⟨hv, hsrc⟩ hneed (fun _ => hnone) (walkAll_of_no_bits hnone))
  · obtain ⟨hone, hempty⟩ := single h1
    have hbits : packedBits s = List.replicate s.bits.toNat false := by
      rw [← take_packedBits_of_zeros le_rfl hzeros, List.take_of_length_le (by simp [packedBits])]
    obtain ⟨t, hexec, hout, hlen, hpast, hframe⟩ := exec_bitDecode_of_walkAll ⟨hv, hsrc⟩ hneed hempty
      (walkAll_zeros hone hbits hfit) (by rwa [List.length_replicate])
    rw [List.length_replicate] at hlen hpast
    exact ⟨t, hexec, hout, BitVec.eq_of_toNat_eq hlen, hpast, hframe⟩
  · obtain ⟨hone, hempty⟩ := single h1
    exact exec_bitDecode_of_walkAll_error ⟨hv, hsrc⟩ hneed hempty (walkAll_zeros_overflow hone hlen hzeros)
  · obtain ⟨hone, hempty⟩ := single h1
    exact exec_bitDecode_of_walkAll_error ⟨hv, hsrc⟩ hneed hempty (walkAll_one hone hk hfit hzeros hbit)

end Sys2Proof.Machine

/-! ### The decoder: DECODE (spec/44_decoder.md R205, R208) -/

namespace Sys2Proof.Machine

/-! #### DECODE and its stages (R205)

A completion changes nothing a later stage reads, so the completions between the stages leave no trace. -/

theorem walkBits_completeOk (s : State) (k : Nat) (bs : List Bool) (w : Walk) :
    walkBits (completeOk s) k bs w = walkBits s k bs w := by
  induction bs generalizing k w with
  | nil => rfl
  | cons b bs ih => simp only [walkBits, ih]; rfl

theorem walkAll_completeOk (s : State) : walkAll (completeOk s) = walkAll s := walkBits_completeOk _ _ _ _

theorem bitDecodeBody_completeOk (o : Byte) (s : State) :
    bitDecodeBody o (completeOk s) = (bitDecodeBody o s).map completeOk := by
  cases hbody : bitDecodeBody o s with
  | ok q =>
    obtain ⟨hv, hneed, hempty, w, hwalk, hptr, rfl⟩ := bitDecodeBody_ok_iff.1 hbody
    exact bitDecodeBody_ok_iff.2 ⟨hv, hneed, hempty, w, (walkAll_completeOk s).trans hwalk, hptr, rfl⟩
  | error r => exact bitDecodeBody_error_iff.2 (walkAll_completeOk s ▸ bitDecodeBody_error_iff.1 hbody)

/-- The opcode BIT_DECODE's body is given shows only in the SEQUENCE error, which a parsed tree rules out (R127). -/
theorem bitDecodeBody_opcode {s : State} (hv : s.treeV = true ∧ s.treeSrc = true) (o o' : Byte) :
    bitDecodeBody o s = bitDecodeBody o' s := by
  obtain ⟨htree, hsrc⟩ := hv
  simp only [bitDecodeBody, require, raiseUnless, htree, hsrc, Bool.and_self, if_true]

/-- DECODE's own check of IN_LEN is ENV_PARSE's, made twice. -/
theorem decodeBody_eq_stages (o : Byte) (s : State) :
    decodeBody o s = envParseBody (clearDerived s) >>= bitDecodeBody o := by
  cases hcheck : checkInLen s with
  | ok u => rw [decodeBody, hcheck]; rfl
  | error r =>
    have hparse : envParseBody (clearDerived s) = .error r :=
      envParseBody_error_iff.2 (.inl (checkInLen_error_iff.1 hcheck))
    rw [decodeBody, hcheck, hparse]
    rfl

/-- DECODE takes the error of ENV_PARSE after CLEAR. -/
theorem exec_decode_of_envParse_failure {s s2 : State} (hparse : exec .envParse (completeOk (clearDerived s)) = .next s2)
    (herr : s2.errCode ≠ 0) : exec .decode s = .next (afterError s2.errCode s2.errInfo s) := by
  obtain ⟨r, hbody, rfl⟩ := body_of_failure hparse herr
  have hparse : envParseBody (clearDerived s) = .error r :=
    envParseBody_error_iff.2 (envParseBody_error_iff (s := completeOk (clearDerived s)).1 hbody)
  exact exec_of_body_error (i := .decode) ((decodeBody_eq_stages _ s).trans (by rw [hparse]; rfl))

/-- What ENV_PARSE leaves after CLEAR is the completion of what it leaves inside DECODE. -/
theorem parsed_of_envParse_success {s s2 : State} (hparse : exec .envParse (completeOk (clearDerived s)) = .next s2)
    (herr : s2.errCode = 0) :
    ∃ p, envParseBody (clearDerived s) = .ok p ∧ (p.treeV = true ∧ p.treeSrc = true) ∧ s2 = completeOk p := by
  obtain ⟨s1, hbody, rfl⟩ := body_of_success hparse herr
  obtain ⟨hin, h, ns, hheader, hrecon, rfl⟩ := envParseBody_ok_iff.1 hbody
  exact ⟨_, envParseBody_ok_iff.2 ⟨hin, h, ns, hheader, hrecon, rfl⟩, ⟨rfl, rfl⟩, rfl⟩

/-- Once ENV_PARSE has succeeded after CLEAR, DECODE ends as BIT_DECODE does. -/
theorem exec_decode_of_envParse_success {s s2 s3 : State}
    (hparse : exec .envParse (completeOk (clearDerived s)) = .next s2) (herr : s2.errCode = 0)
    (hwalk : exec .bitDecode s2 = .next s3) :
    (s3.errCode = 0 → exec .decode s = .next s3) ∧
    (s3.errCode ≠ 0 → exec .decode s = .next (afterError s3.errCode s3.errInfo s)) := by
  obtain ⟨p, hp, hv, rfl⟩ := parsed_of_envParse_success hparse herr
  have hdecode : bodyOf .decode s = bodyOf .bitDecode p := by
    rw [bodyOf, decodeBody_eq_stages, hp]
    exact bitDecodeBody_opcode hv (Instr.opcode .decode) (Instr.opcode .bitDecode)
  have hcompleted : bodyOf .bitDecode (completeOk p) = (bodyOf .bitDecode p).map completeOk :=
    bitDecodeBody_completeOk _ p
  rw [exec_eq, hcompleted] at hwalk
  rw [exec_eq, hdecode]
  cases hbits : bodyOf .bitDecode p with
  | ok q =>
    obtain rfl : completeOk q = s3 := Host.Outcome.next.inj (hbits ▸ hwalk)
    exact ⟨fun _ => rfl, fun herr3 => absurd rfl herr3⟩
  | error r =>
    obtain rfl : takeError r (completeOk p) = s3 := Host.Outcome.next.inj (hbits ▸ hwalk)
    exact ⟨fun herr3 => absurd herr3 (causeCode_ne_zero r.cause), fun _ => rfl⟩

/-- Settles O46: DECODE ends as the first stage that fails, or as the last. -/
theorem decodeIsTheStagedSequence : Obligations.DecodeIsTheStagedSequence := by
  unfold Obligations.DecodeIsTheStagedSequence
  refine ⟨decode_encode .decode, fun s => ⟨fun t => ⟨?_, ?_⟩, ?_, ?_⟩⟩
  · rintro ⟨hexec, herr⟩
    have success : ∀ u : State, u.errCode ≠ 0 → exec .decode s ≠ .next (afterError u.errCode u.errInfo s) :=
      fun u hu hfail => hu (by rw [← herr, Host.Outcome.next.inj (hexec.symm.trans hfail)]; rfl)
    obtain ⟨s2, hparse⟩ : ∃ s2, exec .envParse (completeOk (clearDerived s)) = .next s2 := ⟨_, exec_eq _ _⟩
    obtain ⟨s3, hwalk⟩ : ∃ s3, exec .bitDecode s2 = .next s3 := ⟨_, exec_eq _ _⟩
    have herr2 := of_not_not fun hu => success _ hu (exec_decode_of_envParse_failure hparse hu)
    obtain ⟨hok, hfail⟩ := exec_decode_of_envParse_success hparse herr2 hwalk
    have herr3 := of_not_not fun hu => success _ hu (hfail hu)
    rw [Host.Outcome.next.inj (hexec.symm.trans (hok herr3))]
    exact ⟨_, _, exec_clear s, ⟨hparse, herr2⟩, hwalk, herr3⟩
  · rintro ⟨s1, s2, hclear, ⟨hparse, herr2⟩, hwalk, herr⟩
    obtain rfl := cleared_of_exec hclear
    exact ⟨(exec_decode_of_envParse_success hparse herr2 hwalk).1 herr, herr⟩
  · intro s1 s2 hclear hparse herr
    obtain rfl := cleared_of_exec hclear
    exact exec_decode_of_envParse_failure hparse herr
  · intro s1 s2 s3 hclear hparse herr2 hwalk herr
    obtain rfl := cleared_of_exec hclear
    exact (exec_decode_of_envParse_success hparse herr2 hwalk).2 herr

/-! #### DECODE of a valid envelope -/

/-- The data bits of the envelope in IN are codes of its tree, and `out` is their symbols: nothing for an empty tree, zeros
for a single leaf, root-to-leaf paths for two or more nodes (R206, R207). -/
def HoldsCodes (s : State) (h : Header) (ns : List Node) (data : List Bool) (out : List Byte) : Prop :=
  (h.size = 0 ∧ h.bits = 0 ∧ out = []) ∨
    (h.size = 1 ∧ data = List.replicate h.bits false ∧ out = List.replicate h.bits (inByte s 12)) ∨
    (2 ≤ h.size ∧ ∃ ps : List (Path × Nat),
      (∀ p ∈ ps, p.2 < h.leaves ∧ descend ns (h.size - 1) p.1 = some p.2) ∧
      data = (ps.map Prod.fst).flatten ∧ out = ps.map fun p => inByte s (12 + p.2))

theorem HoldsCodes.bits_eq_zero {s : State} {h : Header} {ns : List Node} {data : List Bool} {out : List Byte}
    (hvalid : HoldsCodes s h ns data out) (hsize : h.size = 0) : h.bits = 0 := by
  obtain ⟨-, hnone, -⟩ | ⟨hone, -⟩ | ⟨h2, -⟩ := hvalid
  · exact hnone
  · omega
  · omega

section Valid

variable {s : State} {h : Header} {ns : List Node} (hheader : parseHeader (inByte s) s.inLen.toNat = .ok h)
  (hrecon : reconstruct (inByte s) h.size h.leaves = .ok ns)
include hheader hrecon

/-- The packed bits of a parsed envelope, by the header's DATA_OFF and BITS (R203). -/
theorem packedBits_parsedState : packedBits (parsedState s h ns) =
    (List.range h.bits).map fun k => (inByte s (h.doff + k / 8)).getLsbD (k % 8) := by
  obtain ⟨-, -, -, -, hbits, hoff⟩ := registers_of_parsed hheader hrecon
  rw [packedBits, hbits]
  refine List.map_congr_left fun k _ => ?_
  rw [packedBit, hoff, inByte_congr (parsedState_inBuf s h ns) (parsedState_epoch s h ns)]

/-- The symbol of leaf `i` of a parsed envelope is the byte of its record (R101). -/
theorem nodePayload_parsedState {i : Nat} (hi : i < h.leaves) :
    nodePayload (node (parsedState s h ns) i) = inByte s (12 + i) := by
  obtain ⟨-, htree, -⟩ := registers_of_parsed hheader hrecon
  have hlen := Nat.lt_of_lt_of_le hi htree.le_length
  obtain rfl := reconstruct_eq_records hrecon
  rw [node, parsedState_nodes, List.getD_append _ _ _ _ hlen, List.getD_eq_getElem _ _ hlen, recordsOf_getElem,
    recordAt, if_pos hi, nodePayload]

/-- The packed bits of a valid envelope walk to the symbols of the codes they hold, in each shape of the tree. -/
theorem walkAll_parsedState {data : List Bool} {out : List Byte} (hfit : out.length ≤ s.cfg.outCap)
    (hdata : packedBits (parsedState s h ns) = data)
    (hvalid : HoldsCodes s h ns data out) :
    walkAll (parsedState s h ns) = .ok ⟨(parsedState s h ns).treeSize.toNat - 1, out⟩ := by
  obtain ⟨harena, htree, hsize, hleaf, hbits, -⟩ := registers_of_parsed hheader hrecon
  rcases hvalid with ⟨-, hnone, rfl⟩ | ⟨hone, hzeros, rfl⟩ | ⟨h2, ps, hps, hpaths, rfl⟩
  · exact walkAll_of_no_bits (hbits.trans hnone)
  · have hpos : 0 < h.leaves := by
      obtain ⟨hok, -⟩ := parseHeader_ok hheader
      have := headerOk_iff.1 hok
      omega
    rw [List.length_replicate] at hfit
    rw [walkAll_zeros (hsize.trans hone) (hdata.trans hzeros) hfit, nodePayload_parsedState hheader hrecon hpos]
  · rw [List.length_map] at hfit
    rw [walkAll_paths (by rwa [hsize]) (by rwa [harena, hleaf]) (by rwa [harena, hleaf, hsize]) (hdata.trans hpaths) hfit]
    have hsymbols : ps.map (fun p => nodePayload (node (parsedState s h ns) p.2)) = ps.map fun p => inByte s (12 + p.2) :=
      List.map_congr_left fun p hp => nodePayload_parsedState hheader hrecon (hps p hp).1
    rw [hsymbols]

end Valid

/-- What DECODE leaves as it was (R205). -/
theorem decodedState_parsedState_frame (s : State) (h : Header) (ns : List Node) (out : List Byte) :
    let t := completeOk (decodedState (parsedState (clearDerived s) h ns) out)
    t = afterSuccess { s with
      nodes := t.nodes, treeSize := t.treeSize, leafCount := t.leafCount, bits := t.bits, dataOff := t.dataOff
      root := rootWord h.size, treeV := true, treeSrc := true, freqV := false, codesV := false
      outBuf := t.outBuf, outLen := t.outLen } := by
  cases s
  rfl

/-- Settles O47: the envelope parses to a tree on which its packed bits walk to the symbols. -/
theorem decodeDecodesEveryValidEnvelope : Obligations.DecodeDecodesEveryValidEnvelope := by
  unfold Obligations.DecodeDecodesEveryValidEnvelope
  intro s h ns data out hin hheader hrecon hneed hfit hdata hvalid
  replace hvalid : HoldsCodes s h ns data out := hvalid
  obtain ⟨harena, -, hsize, hleaf, hbits, hoff⟩ := registers_of_parsed (s := clearDerived s) hheader hrecon
  have hwalk := walkAll_parsedState (s := clearDerived s) hheader hrecon hfit
    ((packedBits_parsedState (s := clearDerived s) hheader hrecon).trans hdata.symm) hvalid
  have hbody : decodeBody (Instr.opcode .decode) s = .ok (decodedState (parsedState (clearDerived s) h ns) out) :=
    decodeBody_ok_iff.2 ⟨hin, _, envParseBody_ok_iff.2 ⟨hin, h, ns, hheader, hrecon, rfl⟩,
      bitDecodeBody_of_walkAll ⟨rfl, rfl⟩ (by rwa [hoff, hbits, ceil8, parsedState_inLen, clearDerived_inLen])
        (fun hzero => hbits.trans (hvalid.bits_eq_zero (by rw [← hsize, hzero]; rfl))) hwalk⟩
  obtain ⟨hout, hlen, hpast⟩ := output_of_decoded (s := parsedState (clearDerived s) h ns) hfit
  have hkept : outByte (parsedState (clearDerived s) h ns) = outByte s := outByte_congr (by simp) (by simp)
  rw [hkept] at hpast
  exact ⟨_, exec_of_body_ok (i := .decode) hbody, hout, hlen, hpast, harena, hleaf, hsize, hbits, hoff,
    decodedState_parsedState_frame s h ns out⟩

/-! #### DECODE of a cut envelope (R208) -/

/-- ENV_PARSE accepts the envelope of a state that holds a tree, cut anywhere inside its packed bytes. -/
theorem envParseBody_of_prefix {p u : State} {e : List Byte} (htree : TreeOk (arena p) p.leafCount.toNat)
    (hfit : (stateEnvelope p).length ≤ p.cfg.outCap) (hu : HoldsInput u e) (he : e <+: stateEnvelope p)
    (hlen : 12 + (serialize (arena p) p.leafCount.toNat).length ≤ e.length) :
    ∃ h ns, envParseBody u = .ok (parsedState u h ns) ∧
      (parsedState u h ns).bits.toNat = (stateBits p).length ∧
      (parsedState u h ns).dataOff.toNat = 12 + (serialize (arena p) p.leafCount.toNat).length := by
  obtain ⟨hheader, hrecords⟩ := hu.parse htree (stateBits_length_lt hfit) he hlen
  have hrecon := reconstruct_of_treeOk (hrecords ▸ htree.withoutFreq)
  obtain ⟨-, -, -, -, hbits, hoff⟩ := registers_of_parsed hheader hrecon
  exact ⟨_, _, envParseBody_ok_iff.2 ⟨hu.len ▸ hu.fits, _, _, hheader, hrecon, rfl⟩, hbits, hoff⟩

/-- Settles O50: without its last byte the envelope still parses, and BIT_DECODE misses one data byte. -/
theorem cutEnvelopesAreRejected : Obligations.CutEnvelopesAreRejected := by
  unfold Obligations.CutEnvelopesAreRejected
  intro i s t u hi hexec herr hpos hu
  obtain ⟨p, rfl, htree, hfit⟩ := packed_of_success hi hexec herr
  obtain ⟨hout, -, -, hpacked, -⟩ := output_of_packed hfit
  rw [hout] at hu
  rw [hpacked] at hpos
  have hlen := stateEnvelope_length p
  have hcut : (stateEnvelope p).dropLast.length = (stateEnvelope p).length - 1 := List.length_dropLast
  have hbyte : 1 ≤ ceil8 (stateBits p).length := by rw [ceil8]; omega
  obtain ⟨h, ns, hparse, hbits, hoff⟩ :=
    envParseBody_of_prefix htree hfit hu.clearDerived (List.dropLast_prefix _) (by omega)
  have hneed : (parsedState (clearDerived u) h ns).dataOff.toNat + ceil8 (parsedState (clearDerived u) h ns).bits.toNat =
      (stateEnvelope p).length := by rw [hoff, hbits, hlen]
  have hshort := bitDecodeBody_of_short (o := Instr.opcode .decode) (s := parsedState (clearDerived u) h ns) ⟨rfl, rfl⟩
    (by rw [hneed, parsedState_inLen, clearDerived_inLen, hu.len, hcut]; omega)
  rw [hneed] at hshort
  exact exec_eq_afterError (i := .decode) (decodeBody_error_iff.2 (.inr ⟨hu.len ▸ hu.fits, .inr ⟨_, hparse, hshort⟩⟩))

end Sys2Proof.Machine

/-! ### Completion, errors and the interrupt (spec/60_exceptions.md) -/

namespace Sys2Proof.Machine

/-! #### What a completion leaves (R122, R236) -/

/-- Settles O14: a body that succeeds leaves ERR and gets ERR_CODE 0, and one that raises gets a nonzero code. -/
theorem completionRecordsTheOutcome : Obligations.CompletionRecordsTheOutcome := by
  unfold Obligations.CompletionRecordsTheOutcome
  intro i s
  cases hbody : bodyOf i s with
  | ok s1 =>
    obtain ⟨herr, -⟩ := body_frame hbody
    exact ⟨completeOk s1, exec_of_body_ok hbody, rfl, rfl, fun _ => ⟨rfl, herr⟩, fun hcode => absurd rfl hcode⟩
  | error r =>
    exact ⟨takeError r s, exec_of_body_error hbody, rfl, rfl, fun hcode => absurd hcode (causeCode_ne_zero r.cause),
      fun _ => takeError_eq r s⟩

/-- Settles O17: no body touches the host's state, and an error is taken from the state before the body. -/
theorem noCommandTouchesTheHostsState : Obligations.NoCommandTouchesTheHostsState := by
  unfold Obligations.NoCommandTouchesTheHostsState
  intro i s t hexec
  rcases exec_next_cases hexec with ⟨s1, hbody, rfl⟩ | ⟨r, -, rfl⟩
  · obtain ⟨-, hcfg, hcmd, hwbusy, hdoneIE, herrIE, hlen, hin, hsched, hans, hdraws, hepoch⟩ := body_frame hbody
    exact ⟨hcfg, hcmd, hwbusy, hdoneIE, herrIE, hlen, hin, congrFun (inByte_congr hin hepoch),
      hsched, hans, hdraws, hepoch⟩
  · exact ⟨rfl, rfl, rfl, rfl, rfl, rfl, rfl, fun _ => rfl, rfl, rfl, rfl, rfl⟩

/-! #### Which errors a command can raise (R230, R233) -/

/-- Settles O15: ERR_CODE of each cause is the number of its row in R230. -/
theorem errorCodesAreTheListedNumbers : Obligations.ErrorCodesAreTheListedNumbers := by
  unfold Obligations.ErrorCodesAreTheListedNumbers
  exact ⟨rfl, rfl, rfl, rfl, rfl, rfl, rfl, rfl, rfl, rfl, rfl⟩

/-- The causes that R233's table lists for BIT_DECODE on a parsed tree. -/
def walkCauses : List ErrorCause := [.fmtShort, .fmtBadCode, .outOverflow, .fmtTruncated]

/-- The causes that R233's table lists for a command. -/
def listedCauses : Instr → List ErrorCause
  | .nop => []
  | .clear => []
  | .freqCount => [.lenRange]
  | .treeBuild => [.sequence]
  | .codeGen => [.sequence]
  | .envPack => [.sequence, .outOverflow]
  | .encode => [.lenRange, .outOverflow]
  | .envParse => [.lenRange, .fmtShort, .fmtHeader, .fmtDupSymbol, .fmtChildRange, .fmtTreeShape]
  | .bitDecode => .sequence :: walkCauses
  | .decode => [.lenRange, .fmtShort, .fmtHeader, .fmtDupSymbol, .fmtChildRange, .fmtTreeShape, .fmtBadCode, .outOverflow,
    .fmtTruncated]

theorem parseHeader_error_cause {buf : Nat → Byte} {len : Nat} {e : Raise} (h : parseHeader buf len = .error e) :
    e.cause = .fmtShort ∨ e.cause = .fmtHeader := by
  rcases Nat.lt_or_ge len 12 with hshort | h12
  · cases (parseHeader_short hshort).symm.trans h
    exact .inl rfl
  · by_cases hok : headerOk (rdLE32 buf 0) (rdLE32 buf 4) = true
    · rw [parseHeader_of_headerOk h12 hok] at h
      split_ifs at h
      cases h
      exact .inl rfl
    · cases (parseHeader_inconsistent h12 hok).symm.trans h
      exact .inr rfl

theorem checkChild_error_cause {size i side c : Nat} {refd : List Nat} {e : Raise}
    (h : checkChild size i side c refd = .error e) : e.cause = .fmtChildRange ∨ e.cause = .fmtTreeShape := by
  rw [checkChild] at h
  split_ifs at h
  · cases h
    exact .inl rfl
  · cases h
    exact .inr rfl

theorem reconNode_error_cause {buf : Nat → Byte} {size l i : Nat} {r : Recon} {e : Raise}
    (h : reconNode buf size l i r = .error e) :
    e.cause = .fmtDupSymbol ∨ e.cause = .fmtChildRange ∨ e.cause = .fmtTreeShape := by
  rw [reconNode] at h
  split_ifs at h
  · cases h
    exact .inl rfl
  · rcases bind_error_iff.1 h with hleft | ⟨_, -, h⟩
    · exact .inr (checkChild_error_cause hleft)
    · rcases bind_error_iff.1 h with hright | ⟨_, -, h⟩
      · exact .inr (checkChild_error_cause hright)
      · cases h

theorem reconLoop_error_cause {buf : Nat → Byte} {size l n i : Nat} {r : Recon} {e : Raise}
    (h : reconLoop buf size l n i r = .error e) :
    e.cause = .fmtDupSymbol ∨ e.cause = .fmtChildRange ∨ e.cause = .fmtTreeShape := by
  induction n generalizing i r with
  | zero => cases h
  | succ n ih =>
    rw [reconLoop] at h
    cases hnode : reconNode buf size l i r with
    | error e' =>
      rw [hnode] at h
      cases h
      exact reconNode_error_cause hnode
    | ok r' =>
      rw [hnode] at h
      exact ih h

theorem reconstruct_error_cause {buf : Nat → Byte} {size l : Nat} {e : Raise} (h : reconstruct buf size l = .error e) :
    e.cause = .fmtDupSymbol ∨ e.cause = .fmtChildRange ∨ e.cause = .fmtTreeShape := by
  rw [reconstruct] at h
  cases hloop : reconLoop buf size l size 0 ⟨12, [], [], []⟩ with
  | error e' =>
    rw [hloop] at h
    cases h
    exact reconLoop_error_cause hloop
  | ok r =>
    rw [hloop] at h
    cases h

theorem envParseBody_error_cause {s : State} {e : Raise} (h : envParseBody s = .error e) :
    e.cause ∈ listedCauses .envParse := by
  rcases envParseBody_error_iff.1 h with ⟨-, rfl⟩ | ⟨-, hheader | ⟨_, -, hrecon⟩⟩
  · simp [listedCauses]
  · rcases parseHeader_error_cause hheader with hc | hc <;> simp [listedCauses, hc]
  · rcases reconstruct_error_cause hrecon with hc | hc | hc <;> simp [listedCauses, hc]

/-- On a parsed tree BIT_DECODE raises no SEQUENCE. -/
theorem bitDecodeBody_error_cause {o : Byte} {s : State} {e : Raise} (h : bitDecodeBody o s = .error e) :
    (e.cause = .sequence ∧ (s.treeV && s.treeSrc) = false) ∨ e.cause ∈ walkCauses := by
  rcases bitDecodeBody_error_iff.1 h with ⟨hv, rfl⟩ | ⟨-, ⟨-, rfl⟩ | ⟨-, ⟨-, rfl⟩ | ⟨-, hwalk | ⟨_, -, -, rfl⟩⟩⟩⟩
  · exact .inl ⟨rfl, hv⟩
  · simp [walkCauses]
  · simp [walkCauses]
  · rcases walkBits_error_cause hwalk with ⟨hc, -⟩ | hc <;> simp [walkCauses, hc]
  · simp [walkCauses]

/-- ENCODE packs a coded tree of its own making, so its only late error is OUT_OVERFLOW. -/
theorem encodeBody_error_cause {o : Byte} {s : State} {e : Raise} (h : encodeBody o s = .error e) :
    e.cause ∈ listedCauses .encode := by
  rcases encodeBody_error_iff.1 h with ⟨-, rfl⟩ | ⟨-, s1, s2, s3, -, htree, hcode, hpack⟩
  · simp [listedCauses]
  · obtain ⟨-, rfl⟩ := treeBuildBody_ok_iff.1 htree
    obtain ⟨-, rfl⟩ := codeGenBody_ok_iff.1 hcode
    rcases envPackBody_error_iff.1 hpack with ⟨hseq, -⟩ | ⟨-, -, rfl⟩
    · simp at hseq
    · simp [listedCauses]

/-- DECODE walks a tree of its own parsing, so it raises no SEQUENCE. -/
theorem decodeBody_error_cause {o : Byte} {s : State} {e : Raise} (h : decodeBody o s = .error e) :
    e.cause ∈ listedCauses .decode := by
  rcases decodeBody_error_iff.1 h with ⟨-, rfl⟩ | ⟨-, hparse | ⟨s1, hparse, hwalk⟩⟩
  · simp [listedCauses]
  · have hlisted : listedCauses .envParse ⊆ listedCauses .decode := by decide
    exact hlisted (envParseBody_error_cause hparse)
  · obtain ⟨-, _, _, -, -, rfl⟩ := envParseBody_ok_iff.1 hparse
    rcases bitDecodeBody_error_cause hwalk with ⟨-, hv⟩ | hmem
    · simp at hv
    · have hlisted : walkCauses ⊆ listedCauses .decode := by decide
      exact hlisted hmem

/-- A body raises a cause of its command's row of R233. -/
theorem body_error_cause {i : Instr} {s : State} {e : Raise} (h : bodyOf i s = .error e) : e.cause ∈ listedCauses i := by
  cases i with
  | nop => cases h
  | clear => cases h
  | encode => exact encodeBody_error_cause h
  | decode => exact decodeBody_error_cause h
  | freqCount =>
    obtain ⟨-, rfl⟩ := freqCountBody_error_iff.1 h
    exact List.mem_cons_self
  | treeBuild =>
    obtain ⟨-, rfl⟩ := treeBuildBody_error_iff.1 h
    exact List.mem_cons_self
  | codeGen =>
    obtain ⟨-, rfl⟩ := codeGenBody_error_iff.1 h
    exact List.mem_cons_self
  | envPack => rcases envPackBody_error_iff.1 h with ⟨-, rfl⟩ | ⟨-, -, rfl⟩ <;> simp [listedCauses]
  | envParse => exact envParseBody_error_cause h
  | bitDecode =>
    rcases bitDecodeBody_error_cause h with ⟨hc, -⟩ | hmem
    · simp [listedCauses, hc]
    · exact List.mem_cons_of_mem _ hmem

/-- Settles O16: an illegal word raises ILLEGAL_CMD, and a command's nonzero ERR_CODE is the number of a cause its body
raised. -/
theorem commandsRaiseOnlyTheirErrors : Obligations.CommandsRaiseOnlyTheirErrors := by
  unfold Obligations.CommandsRaiseOnlyTheirErrors
  refine ⟨fun s t w hbusy hillegal hstep => ?_, fun i s t hexec hcode => ?_⟩
  · obtain ⟨_, hd⟩ := exists_decode_error hillegal
    rw [engineStep_of_decode_error hbusy hd] at hstep
    cases hstep
    rfl
  · obtain ⟨r, hbody, rfl⟩ := body_of_failure hexec hcode
    have hmem : causeCode r.cause ∈ (listedCauses i).map causeCode := List.mem_map_of_mem (body_error_cause hbody)
    cases i <;> exact hmem

/-! #### The interrupt (R240) -/

theorem irq_iff (s : State) : irq s = true ↔ (s.done = true ∧ s.doneIE = true) ∨ (s.err = true ∧ s.errIE = true) := by
  simp only [irq, Bool.or_eq_true, Bool.and_eq_true]

theorem irq_of_no_status {s : State} (hd : s.done = false) (he : s.err = false) : irq s = false := by
  rw [irq, hd, he, Bool.false_and, Bool.false_and, Bool.or_false]

theorem irq_of_no_enable {s : State} (hd : s.doneIE = false) (he : s.errIE = false) : irq s = false := by
  rw [irq, hd, he, Bool.and_false, Bool.and_false, Bool.or_false]

/-- Settles O51: a completion sets DONE, a failed one ERR, under enables no command touches; acceptance, the write of STATUS
and reset clear DONE and ERR, the write of IRQ_EN both enables. -/
theorem irqIsALevelOfStatusAndEnables : Obligations.IrqIsALevelOfStatusAndEnables := by
  unfold Obligations.IrqIsALevelOfStatusAndEnables
  refine ⟨irq_iff, fun i s t hexec hie => ?_, fun i s t hexec hcode hie => ?_, fun s w hidle => ?_,
    fun s w hd he => ?_, fun s => ?_, fun s => irq_of_no_status rfl rfl⟩
  · obtain ⟨-, -, -, hdoneIE, -⟩ := noCommandTouchesTheHostsState i s t hexec
    obtain ⟨t', hexec', hdone, -⟩ := completionRecordsTheOutcome i s
    cases hexec.symm.trans hexec'
    exact (irq_iff t).2 (.inl ⟨hdone, hdoneIE.trans hie⟩)
  · obtain ⟨r, -, rfl⟩ := body_of_failure hexec hcode
    exact (irq_iff _).2 (.inr ⟨rfl, hie⟩)
  · rw [transact_writeCmd_of_idle hidle]
    exact irq_of_no_status rfl rfl
  · rw [(statusAndIrqEnWrites s w).1]
    exact irq_of_no_status (if_pos hd) (if_pos he)
  · rw [(statusAndIrqEnWrites s 0#32).2]
    exact irq_of_no_enable rfl rfl

end Sys2Proof.Machine

/-! ### Reset, and the life of the output (spec/70_reset_and_hazards.md) -/

namespace Sys2Proof.Machine

/-- Settles O10: the step is the reset of R260, which puts every register at its value of R49 and counts itself (log 15). -/
theorem resetAbandonsTheCommand : Obligations.ResetAbandonsTheCommand := by
  unfold Obligations.ResetAbandonsTheCommand
  intro s rest hs
  exact ⟨resetBlock { s with schedule := rest }, step_of_reset hs, rfl, rfl, rfl, irq_of_no_status rfl rfl, fun _ => rfl,
    Nat.succ_ne_self s.epoch⟩

/-! #### What a transaction can do to the state (R68, R120) -/

/-- The states a transaction can leave behind, but for the answer: a read takes a draw or nothing; a write is ignored,
dropped, or one of the five writes of R68. -/
theorem transact_cases (r : Request) (s : State) : ∃ u a, transact r s = { u with answer := a } ∧
    ((∃ l m, u = invInput { s with inLen := l, inBuf := m }) ∨ u = s ∨ u = { s with draws := s.draws + 1 } ∨
      u = { s with wbusy := true } ∨ u = acceptCommand r.wdata s ∨ u = acknowledge r.wdata s ∨
      u = writeIrqEn r.wdata s) := by
  unfold transact
  split
  case isFalse => exact ⟨s, _, rfl, .inr (.inl rfl)⟩
  case isTrue =>
    cases r.kind with
    | read =>
      refine ⟨_, _, rfl, ?_⟩
      unfold busRead
      split_ifs <;> simp
    | write =>
      refine ⟨_, _, rfl, ?_⟩
      cases targetAt s.cfg r.addr.toNat with
      | cmd => simp only [busWrite, writeCmd]; split <;> simp
      | status => simp [busWrite]
      | irqEn => simp [busWrite]
      | inLen =>
        simp only [busWrite, writeInLen]
        split_ifs
        · simp
        · exact .inl ⟨r.wdata, s.inBuf, rfl⟩
      | inWin k =>
        simp only [busWrite, writeInWin]
        split_ifs
        · simp
        · exact .inl ⟨s.inLen, s.inBuf.writeBytes k (le32 r.wdata), rfl⟩
      | _ => exact .inr (.inl rfl)

/-! #### What keeps the output (R273) -/

/-- OUT_LEN and every byte of OUT are the same in both states. -/
def SameOutput (s t : State) : Prop := t.outLen = s.outLen ∧ ∀ k, outByte t k = outByte s k

/-- None of what a transaction can do reaches OUT_LEN or OUT. -/
theorem sameOutput_transact (r : Request) (s : State) : SameOutput s (transact r s) := by
  obtain ⟨u, a, htrans, hu⟩ := transact_cases r s
  rw [htrans]
  rcases hu with ⟨l, m, rfl⟩ | rfl | rfl | rfl | rfl | rfl | rfl
  all_goals exact ⟨rfl, fun _ => rfl⟩

/-- The bodies that write no output. -/
theorem sameOutput_of_body {i : Instr} {s t : State} (h : bodyOf i s = .ok t)
    (hi : i = .nop ∨ i = .freqCount ∨ i = .treeBuild ∨ i = .codeGen ∨ i = .envParse) : SameOutput s t := by
  rcases hi with rfl | rfl | rfl | rfl | rfl
  · obtain rfl := ok_iff.1 h; exact ⟨rfl, fun _ => rfl⟩
  · obtain ⟨-, rfl⟩ := freqCountBody_ok_iff.1 h; exact ⟨rfl, fun _ => rfl⟩
  · obtain ⟨-, rfl⟩ := treeBuildBody_ok_iff.1 h; exact ⟨rfl, fun _ => rfl⟩
  · obtain ⟨-, rfl⟩ := codeGenBody_ok_iff.1 h; exact ⟨rfl, fun _ => rfl⟩
  · obtain ⟨-, hd, ns, -, -, rfl⟩ := envParseBody_ok_iff.1 h; exact ⟨rfl, fun _ => rfl⟩

/-- Settles O19: success keeps what the body left, CLEAR and an error clear the derived state (R47), and a transaction reaches
neither OUT_LEN nor OUT. -/
theorem outputLivesUntilACommandWritesIt : Obligations.OutputLivesUntilACommandWritesIt := by
  unfold Obligations.OutputLivesUntilACommandWritesIt
  refine ⟨fun i s t hexec hcode hi => ?_, fun i s t hexec hend => ?_, sameOutput_transact⟩
  · obtain ⟨s1, hbody, rfl⟩ := body_of_success hexec hcode
    have hkept : SameOutput s s1 := sameOutput_of_body hbody hi
    exact hkept
  · rcases hend with rfl | hcode
    · obtain rfl := cleared_of_exec hexec
      exact ⟨rfl, fun _ => rfl⟩
    · obtain ⟨r, -, rfl⟩ := body_of_failure hexec hcode
      exact ⟨rfl, fun _ => rfl⟩

end Sys2Proof.Machine
